-- ==== Sys2Proof/Word.lean ====
section
/-! DEFINITION. The word types of the HFC block (00_scope.md R7, R9, R10; 30_encoding.md R80). -/

namespace Sys2Proof

/-- One byte of an input or output stream; also a symbol, and the field `a` of a command (R10, R81). -/
abbrev Byte := BitVec 8

/-- A 64-bit value: a frequency, a size, a counter, the field `d`, a response value (R7, R81, R88). -/
abbrev Word64 := BitVec 64

/-- The weight of a tree node, 72 bits unsigned (R7, R27, R124). -/
abbrev Weight := BitVec 72

/-- The index of a node cell, 9 bits (R26, R61). -/
abbrev NodeIndex := BitVec 9

/-- A command word, 80 bits (R80). -/
abbrev CommandWord := BitVec 80

/-- A bit-string, first bit first (R10). R146 lets a model hold a code as a list of bits. -/
abbrev BitString := List Bool

end Sys2Proof
end

