-- ==== Sys2Proof/Syntax.lean ====
section
/-! DEFINITION. The command set: one constructor per row of spec/opcode_table.json
(30_encoding.md R83). A constructor carries the operand fields that its format uses (R82). -/

namespace Sys2Proof

/-- A command of the block. `recb` is REC (the name `rec` is Lean's own). -/
inductive Instr where
  /-- CLR, op 0x01, format Z (R220). -/
  | clr
  /-- REC, op 0x02, format A: `a` is the input byte (R100). -/
  | recb (a : Byte)
  /-- LDF, op 0x03, format AD: `a` is the symbol, `d` the count (R101). -/
  | ldf (a : Byte) (d : Word64)
  /-- BLD, op 0x04, format Z (R120). -/
  | bld
  /-- ASG, op 0x05, format Z (R140). -/
  | asg
  /-- PKB, op 0x06, format A: `a` is the input byte (R160). -/
  | pkb (a : Byte)
  /-- PKF, op 0x07, format Z (R161). -/
  | pkf
  /-- UEX, op 0x08, format D: `d` is the expected output size (R181). -/
  | uex (d : Word64)
  /-- UPB, op 0x09, format A: `a` is the packed byte (R184). -/
  | upb (a : Byte)
  /-- UEND, op 0x0A, format Z (R185). -/
  | uend
  /-- RDR, op 0x10, format A: `a` is the status selector, 0 to 10 (R222). -/
  | rdr (a : Byte)
  /-- RDF, op 0x11, format A: `a` is the symbol (R102). -/
  | rdf (a : Byte)
  /-- RDL, op 0x12, format A: `a` is the symbol (R143). -/
  | rdl (a : Byte)
  /-- RDC, op 0x13, format AD: `a` is the symbol, `d` the chunk number, 0 to 3 (R145). -/
  | rdc (a : Byte) (d : Word64)
deriving DecidableEq, Repr

end Sys2Proof
end

