-- ==== Sys2Proof/WellFormed.lean ====
section
/-! DEFINITION. Which terms of `Instr` spell a command (30_encoding.md R82, R84): the operand
ranges that the fields' widths do not already enforce. -/

namespace Sys2Proof

/-- RDR needs a selector of 0 to 10 (R84, R222) and RDC a chunk of 0 to 3 (R82, R145); every other
command takes any value of its used fields. -/
def Instr.wellFormed : Instr → Bool
  | .clr => true
  | .recb _ => true
  | .ldf _ _ => true
  | .bld => true
  | .asg => true
  | .pkb _ => true
  | .pkf => true
  | .uex _ => true
  | .upb _ => true
  | .uend => true
  | .rdr a => decide (a ≤ 10)
  | .rdf _ => true
  | .rdl _ => true
  | .rdc _ d => decide (d ≤ 3)

end Sys2Proof
end

