-- ==== Sys2Proof/Decode.lean ====
section
/-! DEFINITION. The decoder and the encoder of command words (30_encoding.md R80 to R86), both
written from the opcode map of R83 and the formats of R82. The phase check and the handling of
phase ERROR (R86 steps 1 and 4) are in Machine/Flags.lean. -/

namespace Sys2Proof

/-! ## The fields of the command word (R81) -/

/-- Field `op`, bits 79:72. -/
def wordOp (w : CommandWord) : Byte := w.extractLsb' 72 8

/-- Field `a`, bits 71:64. -/
def wordA (w : CommandWord) : Byte := w.extractLsb' 64 8

/-- Field `d`, bits 63:0. -/
def wordD (w : CommandWord) : Word64 := w.extractLsb' 0 64

/-- Bits 79:64, the pair `{op, a}` that FINFO records (10_state.md R32). -/
def wordInfo (w : CommandWord) : BitVec 16 := wordOp w ++ wordA w

/-- The word with the given fields: `op * 2^72 + a * 2^64 + d` (R81). -/
def makeWord (op a : Byte) (d : Word64) : CommandWord := (op ++ a ++ d : BitVec 80)

/-! ## Decoding -/

/-- Why a word spells no command (R84, R85). -/
inductive DecodeError where
  /-- `op` is not in the opcode map (R85). -/
  | illegalCommand
  /-- A must-be-zero field is not zero, or an operand is out of its range (R84). -/
  | illegalOperand
deriving DecidableEq, Repr

/-- Format Z: `a` and `d` must be 0 (R82). -/
def formatZ (i : Instr) (a : Byte) (d : Word64) : Except DecodeError Instr :=
  if a = 0 ∧ d = 0 then .ok i else .error .illegalOperand

/-- Format A: `a` used, `d` must be 0 (R82). -/
def formatA (f : Byte → Instr) (a : Byte) (d : Word64) : Except DecodeError Instr :=
  if d = 0 then .ok (f a) else .error .illegalOperand

/-- Format D: `a` must be 0, `d` used (R82). -/
def formatD (f : Word64 → Instr) (a : Byte) (d : Word64) : Except DecodeError Instr :=
  if a = 0 then .ok (f d) else .error .illegalOperand

/-- The operand ranges of RDR and RDC (R82, R84). -/
def inRange (i : Instr) : Except DecodeError Instr :=
  if i.wellFormed then .ok i else .error .illegalOperand

/-- R86 steps 2 and 3: `op` is looked up in the opcode map of R83, then the format's fields and
ranges are checked. Total on every word. -/
def decode (w : CommandWord) : Except DecodeError Instr :=
  match (wordOp w).toNat with
  | 0x01 => formatZ .clr (wordA w) (wordD w)
  | 0x02 => formatA .recb (wordA w) (wordD w)
  | 0x03 => .ok (.ldf (wordA w) (wordD w))
  | 0x04 => formatZ .bld (wordA w) (wordD w)
  | 0x05 => formatZ .asg (wordA w) (wordD w)
  | 0x06 => formatA .pkb (wordA w) (wordD w)
  | 0x07 => formatZ .pkf (wordA w) (wordD w)
  | 0x08 => formatD .uex (wordA w) (wordD w)
  | 0x09 => formatA .upb (wordA w) (wordD w)
  | 0x0A => formatZ .uend (wordA w) (wordD w)
  | 0x10 => (formatA .rdr (wordA w) (wordD w)).bind inRange
  | 0x11 => formatA .rdf (wordA w) (wordD w)
  | 0x12 => formatA .rdl (wordA w) (wordD w)
  | 0x13 => inRange (.rdc (wordA w) (wordD w))
  | _ => .error .illegalCommand

/-- The decoder on a word given as a number, as spec/opcode_table.json numbers its bits: `nbits` of
them, and every bit above is 0. A command is one word of 80 bits (R80), so a number that does not
fit in 80 bits spells none (log 16). -/
def decodeTableWord (nbits w : Nat) : Option Instr :=
  if w % 2 ^ nbits < 2 ^ 80 then
    match decode (BitVec.ofNat 80 (w % 2 ^ nbits)) with
    | .ok i => some i
    | .error _ => none
  else none

/-! ## Encoding -/

/-- The opcode of each command (R83). -/
def Instr.opcode : Instr → Byte
  | .clr => 0x01
  | .recb _ => 0x02
  | .ldf _ _ => 0x03
  | .bld => 0x04
  | .asg => 0x05
  | .pkb _ => 0x06
  | .pkf => 0x07
  | .uex _ => 0x08
  | .upb _ => 0x09
  | .uend => 0x0A
  | .rdr _ => 0x10
  | .rdf _ => 0x11
  | .rdl _ => 0x12
  | .rdc _ _ => 0x13

/-- The field `a` of each command's word, 0 where the format does not use it (R82). -/
def Instr.fieldA : Instr → Byte
  | .clr => 0
  | .recb a => a
  | .ldf a _ => a
  | .bld => 0
  | .asg => 0
  | .pkb a => a
  | .pkf => 0
  | .uex _ => 0
  | .upb a => a
  | .uend => 0
  | .rdr a => a
  | .rdf a => a
  | .rdl a => a
  | .rdc a _ => a

/-- The field `d` of each command's word, 0 where the format does not use it (R82). -/
def Instr.fieldD : Instr → Word64
  | .clr => 0
  | .recb _ => 0
  | .ldf _ d => d
  | .bld => 0
  | .asg => 0
  | .pkb _ => 0
  | .pkf => 0
  | .uex d => d
  | .upb _ => 0
  | .uend => 0
  | .rdr _ => 0
  | .rdf _ => 0
  | .rdl _ => 0
  | .rdc _ d => d

/-- The command word of an instruction (R81, R83). -/
def encode (i : Instr) : CommandWord := makeWord i.opcode i.fieldA i.fieldD

/-! ## The opcode table -/

/-- One row of spec/opcode_table.json. -/
structure OpcodeRow where
  mnemonic : String
  pattern  : CommandWord
  mask     : CommandWord
deriving DecidableEq, Repr

/-- The 14 rows of spec/opcode_table.json, its `match` and `mask` as they stand there (R84). -/
def opcodeTable : List OpcodeRow :=
  [⟨"CLR", 0x01000000000000000000, 0xFFFFFFFFFFFFFFFFFFFF⟩,
   ⟨"REC", 0x02000000000000000000, 0xFF00FFFFFFFFFFFFFFFF⟩,
   ⟨"LDF", 0x03000000000000000000, 0xFF000000000000000000⟩,
   ⟨"BLD", 0x04000000000000000000, 0xFFFFFFFFFFFFFFFFFFFF⟩,
   ⟨"ASG", 0x05000000000000000000, 0xFFFFFFFFFFFFFFFFFFFF⟩,
   ⟨"PKB", 0x06000000000000000000, 0xFF00FFFFFFFFFFFFFFFF⟩,
   ⟨"PKF", 0x07000000000000000000, 0xFFFFFFFFFFFFFFFFFFFF⟩] ++
  [⟨"UEX", 0x08000000000000000000, 0xFFFF0000000000000000⟩,
   ⟨"UPB", 0x09000000000000000000, 0xFF00FFFFFFFFFFFFFFFF⟩,
   ⟨"UEND", 0x0A000000000000000000, 0xFFFFFFFFFFFFFFFFFFFF⟩,
   ⟨"RDR", 0x10000000000000000000, 0xFF00FFFFFFFFFFFFFFFF⟩,
   ⟨"RDF", 0x11000000000000000000, 0xFF00FFFFFFFFFFFFFFFF⟩,
   ⟨"RDL", 0x12000000000000000000, 0xFF00FFFFFFFFFFFFFFFF⟩,
   ⟨"RDC", 0x13000000000000000000, 0xFF00FFFFFFFFFFFFFFFC⟩]

/-- A word matches a row when its masked bits are the row's pattern (R84). -/
def OpcodeRow.matches (r : OpcodeRow) (w : CommandWord) : Bool := w &&& r.mask == r.pattern

/-- R84: a word is a legal spelling when it matches a row, with the one check a mask cannot express
(RDR needs `a ≤ 10`). The decoder does not use this definition; a statement compares the two. -/
def legalSpelling (w : CommandWord) : Bool :=
  opcodeTable.any (·.matches w) && (wordOp w != 0x10 || decide (wordA w ≤ 10))

end Sys2Proof
end

