-- ==== Sys2Proof/Config.lean ====
section
/-! DEFINITION. The fixed sizes of the block (00_scope.md R7) and the open parameters of the
host-side container format (R8). The block has no free values: 93_implementation_defined.md says
that nothing in the spec is `any value`. -/

namespace Sys2Proof.Config

/-- NSYM: symbols, and leaves of every tree (R7). -/
abbrev nsym : Nat := 256

/-- NINT: internal nodes, and merges of every build (R7). -/
abbrev nint : Nat := 255

/-- NNODE: node cells (R7, R26). -/
abbrev nnode : Nat := 511

/-- CODE_MAX: the greatest code length the storage holds (R7, R25). -/
abbrev codeMax : Nat := 255

/-- ROOT: the node index of the root after a build (R7, R28). -/
abbrev root : NodeIndex := 510

end Sys2Proof.Config

namespace Sys2Proof

/-- The open parameters of the Container Format (R8): the signature SIG, whose length is N1, and
the width N2 of the file-name field. The spec fixes N3 = N4 = 8 and little-endian. -/
structure HdrParams where
  sig : List Byte
  n2  : Nat
deriving DecidableEq, Repr

/-- N1, the length of the signature in bytes (R8). -/
def HdrParams.n1 (P : HdrParams) : Nat := P.sig.length

/-- R8 asks for N1 ≥ 1 and N2 ≥ 1. -/
def HdrParams.valid (P : HdrParams) : Bool := decide (1 ≤ P.n1) && decide (1 ≤ P.n2)

/-- N3, the width of the original-size field in bytes (R8). -/
abbrev HdrParams.n3 : Nat := 8

/-- N4, the width of one frequency field in bytes (R8). -/
abbrev HdrParams.n4 : Nat := 8

/-- HLEN, the header's length in bytes (45_container.md): N1 + N2 + N3 + 256 * N4. -/
def HdrParams.hlen (P : HdrParams) : Nat := P.n1 + P.n2 + HdrParams.n3 + Config.nsym * HdrParams.n4

end Sys2Proof
end

