-- ==== Sys2Proof/Machine/Table.lean ====
section
/-! DEFINITION. A table of a fixed number of cells, as plain data: a list together with the proof of
its length. The Symbol Table (10_state.md R23) and the node memory (R26) are such tables. -/

namespace Sys2Proof.Machine

/-- `n` cells of type `α`, cell 0 first. -/
structure Table (α : Type) (n : Nat) where
  cells   : List α
  size_eq : cells.length = n
deriving DecidableEq, Repr

/-- Every cell holds `x`. -/
def tableFill {α : Type} (n : Nat) (x : α) : Table α n :=
  ⟨List.replicate n x, List.length_replicate⟩

/-- Cell `i` holds `f i`. -/
def tableOf {α : Type} (n : Nat) (f : Nat → α) : Table α n :=
  ⟨(List.range n).map f, by simp⟩

/-- Read of cell `i`. -/
def tableGet {α : Type} {n : Nat} (t : Table α n) (i : Fin n) : α :=
  t.cells[i.val]'(by rw [t.size_eq]; exact i.isLt)

/-- Write of cell `i`; every other cell is kept. -/
def tableSet {α : Type} {n : Nat} (t : Table α n) (i : Fin n) (x : α) : Table α n :=
  ⟨t.cells.set i.val x, by rw [List.length_set]; exact t.size_eq⟩

end Sys2Proof.Machine
end

