-- ==== Sys2Proof/Machine/State.lean ====
section
/-! DEFINITION. The state of the block, as plain data: the whole tuple of 10_state.md R20, and two
fields of the model's own for what the spec calls the input and the output of a step (R21). -/

namespace Sys2Proof.Machine

/-- The PHASE register (R31). Values 10 to 14 never occur, so the type does not have them
(93_implementation_defined.md I22). -/
inductive Phase where
  | empty | count | load | table | tree | codes | pack | packed | unpack | done | error
deriving DecidableEq, Repr

/-- The FAULT register (R32; 60_exceptions.md R240): `none` is code 0, no fault. Codes 6 to 255 are
never produced, so the type does not have them (I23). -/
inductive FaultCode where
  | none | illegalCommand | illegalOperand | phaseViolation | loadOrder | formatTruncated
deriving DecidableEq, Repr

/-- The UST register (R37; 44_bit_unpacker.md R182). -/
inductive Ust where
  | atRoot | descending
deriving DecidableEq, Repr

/-- One entry of the Symbol Table (R24): the frequency, the code (first bit first) and its length. -/
structure SymbolEntry where
  freq : Word64
  code : BitString
  len  : BitVec 8
deriving DecidableEq, Repr

/-- A tree node (R27). -/
inductive Node where
  | leaf (sym : Byte) (weight : Weight)
  | internal (left right : NodeIndex) (weight : Weight)
deriving DecidableEq, Repr

/-- The Symbol Table ST[0..255] (R23). -/
abbrev SymbolTable := Table SymbolEntry 256

/-- The node memory NODE[0..510]; a cell without a value is `none` (R26). -/
abbrev NodeMemory := Table (Option Node) 511

/-- What the host can give the block between commands: a command word (30_encoding.md R80), or reset
(10_state.md R20, 70_reset_and_hazards.md R270). The model's own (log 1, log 4). -/
inductive HostInput where
  | command (w : CommandWord)
  | reset
deriving DecidableEq, Repr

/-- The response to a command (30_encoding.md R88). -/
inductive Response where
  /-- The command executed and returns no value. -/
  | ack
  /-- A read command executed and returns this value. -/
  | val (v : Word64)
  /-- The command raised this fault. -/
  | flt (c : FaultCode)
  /-- The command was refused in phase ERROR; carries the value of FAULT. -/
  | ref (c : FaultCode)
deriving DecidableEq, Repr

/-- The state of the machine (R20), and the model's two port fields `inbox` and `rsp`. -/
structure State where
  /-- ST, the Symbol Table (R23). -/
  st     : SymbolTable
  /-- NODE, the node memory (R26). -/
  node   : NodeMemory
  /-- PHASE (R31). -/
  phase  : Phase
  /-- FAULT (R32). -/
  fault  : FaultCode
  /-- FINFO, the pair of op and a of the command that raised the fault (R32). -/
  finfo  : BitVec 16
  /-- SIZE (R33). -/
  size   : Word64
  /-- INCNT (R34). -/
  incnt  : Word64
  /-- OUTCNT (R35). -/
  outcnt : Word64
  /-- EMIT (R35). -/
  emit   : Word64
  /-- LDX (R36). -/
  ldx    : BitVec 9
  /-- TP, the unpacker's pointer into the tree (R37). -/
  tp     : NodeIndex
  /-- UST (R37). -/
  ust    : Ust
  /-- ACC, the packer's bit buffer (R38). -/
  acc    : Byte
  /-- CNT, the number of bits in ACC (R38). -/
  cnt    : BitVec 3
  /-- OUT, the bytes delivered in this session, oldest first (R40). -/
  out    : List Byte
  /-- INBOX, the model's own: the host's inputs not yet taken, oldest first (log 1). -/
  inbox  : List HostInput
  /-- RSP, the model's own: the response to the latest command since reset, if any (log 2). -/
  rsp    : Option Response
deriving DecidableEq, Repr

/-- Where the machine stops. No run from reset meets one (10_state.md R26): each is a state that the
spec says a legal command sequence cannot reach. All are safe: the spec gives no next state there. -/
inductive Fault where
  /-- A read of node index 511, which does not exist (20_memory.md R61). Raised by ASG, UPB. Safe. -/
  | nodeDoesNotExist
  /-- A read of a node cell that holds no value (R26, I24). Raised by ASG, UPB. Safe. -/
  | nodeWithoutValue
  /-- The unpacker's pointer is at a Leaf, which has no children (44_bit_unpacker.md R183). Raised by
  UPB. Safe. -/
  | nodeNotInternal
  /-- A path of more than 255 edges, which the code storage cannot hold (R25). Raised by ASG. Safe. -/
  | codeTooLong
  /-- A code that has fewer bits than its `len` says (R24). Raised by PKB. Safe. -/
  | codeBitMissing
deriving DecidableEq, Repr

/-- Why the machine refuses an instruction. A word that the block refuses (response REF, 60_exceptions.md R245)
is not one of these: it is a next state. -/
inductive Refusal where
  /-- An instruction without a meaning in this model; raised by no arm (all have one). Safe. -/
  | notModelled (mnemonic : String)
deriving DecidableEq, Repr

/-- A Symbol Table entry after reset (R44). -/
def SymbolEntry.empty : SymbolEntry := { freq := 0, code := [], len := 0 }

/-- The state right after reset (R44, 70_reset_and_hazards.md R270). The spec gives every value but
those of the model's own `inbox` and `rsp` (DESIGN CHOICE, log 1 and log 2). -/
def State.reset : State where
  st     := tableFill 256 SymbolEntry.empty
  node   := tableFill 511 none
  phase  := .empty
  fault  := .none
  finfo  := 0
  size   := 0
  incnt  := 0
  outcnt := 0
  emit   := 0
  ldx    := 0
  tp     := Config.root
  ust    := .atRoot
  acc    := 0
  cnt    := 0
  out    := []
  inbox  := []
  rsp    := none

end Sys2Proof.Machine
end

