-- ==== Sys2Proof/Machine/Operands.lean ====
section
/-! DEFINITION. The operand forms of the commands: the symbol index, the code of a symbol and its
64-bit chunks, the bits of a byte in stream order, and the pair that FINFO records. -/

namespace Sys2Proof.Machine

/-- The pair `{op, a}` of a command's word (10_state.md R32). -/
def finfoOf (i : Instr) : BitVec 16 := i.opcode ++ i.fieldA

/-- Field `a` as an index of the Symbol Table: the index is the symbol (R23). -/
def symbolIndex (a : Byte) : Fin 256 := ⟨a.toNat, a.isLt⟩

/-- The entry ST[a]. -/
def State.entry (s : State) (a : Byte) : SymbolEntry := tableGet s.st (symbolIndex a)

/-- Write of the entry ST[a]. -/
def State.setEntry (s : State) (a : Byte) (e : SymbolEntry) : State :=
  { s with st := tableSet s.st (symbolIndex a) e }

/-- The 256 frequencies, in symbol order (41_tree_builder.md R120 reads nothing else). -/
def frequencies (st : SymbolTable) : List Word64 := st.cells.map (·.freq)

/-- The value of a bit-string, first bit most significant; 0 for the empty one (00_scope.md R10). -/
def bitsVal (c : BitString) : Nat := c.foldl (fun v b => 2 * v + b.toNat) 0

/-- The bits of a byte in stream order, bit 7 first (R11). -/
def byteBits (b : Byte) : BitString :=
  [b.getLsbD 7, b.getLsbD 6, b.getLsbD 5, b.getLsbD 4, b.getLsbD 3, b.getLsbD 2, b.getLsbD 1, b.getLsbD 0]

/-- The bits `code[0], ..., code[len-1]` that PKB packs (43_bit_packer.md R160). The code has `len`
bits in every state a run reaches (R24); where it has fewer, there is no bit to read (log 7). -/
def codeBits (e : SymbolEntry) : Except Fault BitString :=
  if e.len.toNat ≤ e.code.length then .ok (e.code.take e.len.toNat) else .error .codeBitMissing

/-- Chunk `d` of a code's value: bits `64*d + 63` down to `64*d` of the value in 256 bits
(42_code_assigner.md R145). -/
def codeChunk (c : BitString) (d : Word64) : Word64 :=
  (BitVec.ofNat 256 (bitsVal c)).extractLsb' (64 * d.toNat) 64

end Sys2Proof.Machine
end

