-- ==== Sys2Proof/Machine/Flags.lean ====
section
/-! DEFINITION. The status of the block. It has no condition codes (10_state.md R42): its status
bits are PHASE, UST and FAULT. Their numeric values, the register table that RDR reads, the
legality of each command by phase, and the two fields of a response. -/

namespace Sys2Proof.Machine

/-! ## Numeric values of the status registers -/

/-- The value of PHASE (R31). -/
def Phase.value : Phase → BitVec 4
  | .empty => 0
  | .count => 1
  | .load => 2
  | .table => 3
  | .tree => 4
  | .codes => 5
  | .pack => 6
  | .packed => 7
  | .unpack => 8
  | .done => 9
  | .error => 15

/-- The cause code that FAULT holds (60_exceptions.md R240). -/
def FaultCode.value : FaultCode → BitVec 8
  | .none => 0
  | .illegalCommand => 1
  | .illegalOperand => 2
  | .phaseViolation => 3
  | .loadOrder => 4
  | .formatTruncated => 5

/-- The value of UST (R37). -/
def Ust.value : Ust → BitVec 1
  | .atRoot => 0
  | .descending => 1

/-- PKBUF, `{CNT, ACC}` (R38): bits 10:8 are CNT, bits 7:0 ACC. -/
def pkbuf (s : State) : BitVec 11 := s.cnt ++ s.acc

/-- The selector table of RDR (R39), each register zero-extended to 64 bits (46_system.md R222).
Selectors 11 to 255 name no register. -/
def statusRegister (s : State) (a : Byte) : Option Word64 :=
  match a.toNat with
  | 0 => some (s.phase.value.setWidth 64)
  | 1 => some (s.fault.value.setWidth 64)
  | 2 => some (s.finfo.setWidth 64)
  | 3 => some s.size
  | 4 => some s.incnt
  | 5 => some s.outcnt
  | 6 => some s.emit
  | 7 => some (s.ldx.setWidth 64)
  | 8 => some (s.tp.setWidth 64)
  | 9 => some (s.ust.value.setWidth 64)
  | 10 => some ((pkbuf s).setWidth 64)
  | _ => none

/-- The level the block offers its platform, `err = (PHASE == ERROR)` (60_exceptions.md R243). -/
def State.err (s : State) : Bool := s.phase == .error

/-! ## Whether a session's output is valid (46_system.md R221, 60_exceptions.md R246) -/

/-- The phases in which the bytes in OUT are a session's output: packing finished and flushed, or
unpacking complete. In any other last phase, ERROR among them, they must not be used. -/
def Phase.outputValid : Phase → Bool
  | .packed | .done => true
  | .empty | .count | .load | .table | .tree | .codes | .pack | .unpack | .error => false

/-- The output of a session whose last state is `s`: valid exactly when PHASE is PACKED or DONE, and in
any other phase the session has produced none (46_system.md R221). -/
def State.validOutput (s : State) : Option (List Byte) := if s.phase.outputValid then some s.out else none

/-! ## The two fields of a response (30_encoding.md R88) -/

/-- `rsp`, the 2-bit code. -/
def Response.code : Response → BitVec 2
  | .ack => 0
  | .val _ => 1
  | .flt _ => 2
  | .ref _ => 3

/-- `res`, the 64-bit value. -/
def Response.res : Response → Word64
  | .ack => 0
  | .val v => v
  | .flt c => c.value.setWidth 64
  | .ref c => c.value.setWidth 64

/-! ## Legality by phase -/

/-- The cells `ok` of the table of R90 in the ten phases other than ERROR. UEND in UNPACK counts as
`ok`: its own rule raises FormatTruncated. -/
def legalIn : Instr → Phase → Bool
  | .clr, _ => true
  | .recb _, p => p == .empty || p == .count
  | .ldf _ _, p => p == .empty || p == .load
  | .bld, p => p == .empty || p == .count || p == .table
  | .asg, p => p == .tree
  | .pkb _, p => p == .codes || p == .pack
  | .pkf, p => p == .codes || p == .pack
  | .uex _, p => p == .tree || p == .codes
  | .upb _, p => p == .unpack || p == .done
  | .uend, p => p == .unpack || p == .done
  | .rdr _, _ => true
  | .rdf _, p => p != .load
  | .rdl _, _ => true
  | .rdc _ _, _ => true

/-- The commands that execute in phase ERROR: CLR, and RDR with a selector that names a register
(60_exceptions.md R245). -/
def runsInError : Instr → Bool
  | .clr => true
  | .recb _ => false
  | .ldf _ _ => false
  | .bld => false
  | .asg => false
  | .pkb _ => false
  | .pkf => false
  | .uex _ => false
  | .upb _ => false
  | .uend => false
  | .rdr a => (Instr.rdr a).wellFormed
  | .rdf _ => false
  | .rdl _ => false
  | .rdc _ _ => false

/-- What the checks before a command's own rule decide. -/
inductive Admission where
  /-- The command's rule runs. -/
  | runs
  /-- The command is refused with REF (R245). -/
  | refused
  /-- The command raises this fault. -/
  | raises (c : FaultCode)
deriving DecidableEq, Repr

/-- The checks of R86 in their order (R242): phase ERROR, operand ranges, phase table. (An unlisted
`op` and a must-be-zero field that is not zero never reach a command: `rejectWord`.) -/
def admission (i : Instr) (p : Phase) : Admission :=
  if p = .error then
    if runsInError i then .runs else .refused
  else if i.wellFormed = false then .raises .illegalOperand
  else if legalIn i p then .runs
  else .raises .phaseViolation

end Sys2Proof.Machine
end

