-- ==== Sys2Proof/Machine/Ops.lean ====
section
/-! DEFINITION. The operations that the commands share: answering, delivering a byte, taking a fault
and leaving the fault state, the checks before a command's rule, access to the node memory, and
taking the host's next input. -/

namespace Sys2Proof.Machine

/-- What `exec` and `step` answer. -/
abbrev Result := Host.Outcome State Fault Refusal

/-! ## Answering and delivering -/

/-- `rsp <- r` (00_scope.md R12, 30_encoding.md R88). -/
def State.answer (s : State) (r : Response) : State := { s with rsp := some r }

/-- `emit(b)`: the byte goes to the end of OUT and OUTCNT counts it modulo 2^64 (R12). -/
def State.emitByte (s : State) (b : Byte) : State :=
  { s with out := s.out ++ [b], outcnt := s.outcnt + 1 }

/-! ## Taking a fault, and leaving the fault state -/

/-- Fault entry (60_exceptions.md R244): FAULT, FINFO, PHASE and the response, and nothing else. -/
def State.raiseFault (s : State) (c : FaultCode) (info : BitVec 16) : State :=
  { s with fault := c, finfo := info, phase := .error, rsp := some (.flt c) }

/-- The refusal of a word in phase ERROR: REF with the value of FAULT, no state change (R245). -/
def State.refuse (s : State) : State := s.answer (.ref s.fault)

/-- The state of R44, taken by CLR (46_system.md R220). The inputs the host has still to give and
the response are not part of that state. -/
def State.clear (s : State) : State := { State.reset with inbox := s.inbox, rsp := s.rsp }

/-- Reset between commands (70_reset_and_hazards.md R270). No command has been answered after it;
the inputs the host gives afterwards are kept (log 4). -/
def State.takeReset (s : State) : State := { State.reset with inbox := s.inbox }

/-- The fault code of a word that spells no command (60_exceptions.md R240). -/
def decodeFault : DecodeError → FaultCode
  | .illegalCommand => .illegalCommand
  | .illegalOperand => .illegalOperand

/-- A word that spells no command: refused in phase ERROR (R245), else its fault is raised with the
word's own `{op, a}` (R240, R242). -/
def rejectWord (e : DecodeError) (w : CommandWord) (s : State) : State :=
  if s.phase = .error then s.refuse else s.raiseFault (decodeFault e) (wordInfo w)

/-! ## The shape of every command -/

/-- The checks before a command's rule (30_encoding.md R86), then the rule itself, `body`. -/
def guarded (i : Instr) (body : State → Result) (s : State) : Result :=
  match admission i s.phase with
  | .runs => body s
  | .refused => .next s.refuse
  | .raises c => .next (s.raiseFault c (finfoOf i))

/-- The outcome of a rule that may meet a cell or a bit that no run reaches. -/
def finish : Except Fault State → Result
  | .ok s => .next s
  | .error f => .fault f

/-! ## The node memory -/

/-- Read of NODE[n]. Index 511 does not exist (20_memory.md R61); a cell that holds no value is never
read as a default (10_state.md R26). -/
def readNode (m : NodeMemory) (n : NodeIndex) : Except Fault Node :=
  if h : n.toNat < 511 then
    match tableGet m ⟨n.toNat, h⟩ with
    | some x => .ok x
    | none => .error .nodeWithoutValue
  else .error .nodeDoesNotExist

/-- Write of NODE[n], n in 0..510 (a build writes no other). -/
def writeNode (m : NodeMemory) (n : Nat) (x : Node) : NodeMemory :=
  if h : n < 511 then tableSet m ⟨n, h⟩ (some x) else m

/-- The weight field of a node (R27). -/
def Node.weight : Node → Weight
  | .leaf _ w => w
  | .internal _ _ w => w

/-! ## The host's input -/

/-- The oldest input the host has given, and the state with that input taken (20_memory.md R70:
commands take effect in the order issued). `none`: the block waits (log 3). -/
def fetch (s : State) : Option (HostInput × State) :=
  match s.inbox with
  | [] => none
  | x :: rest => some (x, { s with inbox := rest })

end Sys2Proof.Machine
end

