-- ==== Sys2Proof/Machine/BitPacker.lean ====
section
/-! DEFINITION. The Bit Packer commands PKB and PKF (43_bit_packer.md). -/

namespace Sys2Proof.Machine

/-- `append_bit(b)` (R162): the bit enters ACC at bit 0; the eighth bit completes a byte. -/
def appendBit (s : State) (b : Bool) : State :=
  let acc := (s.acc <<< 1) ||| (if b then 1 else 0)
  if s.cnt = 7 then { s.emitByte acc with acc := 0, cnt := 0 }
  else { s with acc := acc, cnt := s.cnt + 1 }

/-- The bits of a bit-string appended one after the other, first bit first (R160). -/
def appendBits (s : State) (c : BitString) : State := c.foldl appendBit s

/-- PKB (R160). -/
def execPkb (a : Byte) (s : State) : Result :=
  guarded (.pkb a) (fun s =>
    finish ((codeBits (s.entry a)).map fun c =>
      let s1 := appendBits s c
      { s1 with incnt := s1.incnt + 1, phase := .pack }.answer .ack)) s

/-- The last byte of the stream (R161): the CNT bits of ACC at the top, zeros below. -/
def paddedByte (acc : Byte) (cnt : BitVec 3) : Byte := acc <<< (8 - cnt.toNat)

/-- The flush of the bit buffer (R161): an empty buffer emits nothing. -/
def flushBits (s : State) : State :=
  if s.cnt = 0 then s else { s.emitByte (paddedByte s.acc s.cnt) with acc := 0, cnt := 0 }

/-- PKF (R161). -/
def execPkf (s : State) : Result :=
  guarded .pkf (fun s => .next ({ flushBits s with phase := .packed }.answer .ack)) s

end Sys2Proof.Machine
end

