-- ==== Sys2Proof/Machine/BitUnpacker.lean ====
section
/-! DEFINITION. The Bit Unpacker commands UEX, UPB and UEND (44_bit_unpacker.md). -/

namespace Sys2Proof.Machine

/-- UEX (R181). -/
def execUex (d : Word64) (s : State) : Result :=
  guarded (.uex d) (fun s =>
    .next ({ s with
      size := d, emit := 0, tp := Config.root, ust := .atRoot,
      phase := if d = 0 then .done else .unpack }.answer .ack)) s

/-- `TP <- NODE[TP].left` on a 0 bit, `NODE[TP].right` on a 1 bit; TP is Internal here (R183). -/
def childOf (m : NodeMemory) (n : NodeIndex) (b : Bool) : Except Fault NodeIndex :=
  match readNode m n with
  | .error f => .error f
  | .ok (.leaf _ _) => .error .nodeNotInternal
  | .ok (.internal left right _) => .ok (if b then right else left)

/-- The rest of `ubit` (R183) once TP has moved to `n`: at a Leaf its symbol is emitted and the
pointer goes back to the root. -/
def arriveAt (s : State) (n : NodeIndex) : Except Fault State :=
  match readNode s.node n with
  | .error f => .error f
  | .ok (.leaf sym _) =>
    let s1 := s.emitByte sym
    .ok { s1 with emit := s1.emit + 1, tp := Config.root, ust := .atRoot }
  | .ok (.internal _ _ _) => .ok { s with tp := n, ust := .descending }

/-- `ubit(b)` (R183). -/
def unpackBit (s : State) (b : Bool) : Except Fault State :=
  match childOf s.node s.tp b with
  | .error f => .error f
  | .ok n => arriveAt s n

/-- The loop of UPB (R184) over the bits of the byte still to come: it breaks once EMIT equals
SIZE, so padding is never decoded (R186). -/
def unpackBits : BitString → State → Except Fault State
  | [], s => .ok s
  | b :: bs, s =>
    if s.emit = s.size then .ok s
    else
      match unpackBit s b with
      | .error f => .error f
      | .ok s1 => unpackBits bs s1

/-- The last lines of UPB (R184): PHASE becomes DONE when EMIT has reached SIZE. -/
def endByte (s : State) : State := if s.emit = s.size then { s with phase := .done } else s

/-- UPB (R184): in DONE the byte is ignored, with no state change. -/
def execUpb (a : Byte) (s : State) : Result :=
  guarded (.upb a) (fun s =>
    if s.phase = .done then .next (s.answer .ack)
    else
      finish ((unpackBits (byteBits a) { s with incnt := s.incnt + 1 }).map fun s1 =>
        (endByte s1).answer .ack)) s

/-- UEND (R185). -/
def execUend (s : State) : Result :=
  guarded .uend (fun s =>
    if s.phase = .unpack then .next (s.raiseFault .formatTruncated (finfoOf .uend))
    else .next (s.answer .ack)) s

end Sys2Proof.Machine
end

