-- ==== Sys2Proof/Machine/CodeAssigner.lean ====
section
/-! DEFINITION. The Code Assigner commands ASG, RDL and RDC (42_code_assigner.md). -/

namespace Sys2Proof.Machine

/-- The code of symbol `sym` and its length, written together (R142); the frequency is kept. -/
def writeCode (st : SymbolTable) (sym : Byte) (code : BitString) : SymbolTable :=
  tableSet st (symbolIndex sym)
    { tableGet st (symbolIndex sym) with code := code, len := BitVec.ofNat 8 code.length }

/-- `walk(n, path)` (R140): depth first, `left` first, appending 0 for `left` and 1 for `right`; at a
Leaf the path is the symbol's code. `depth` is how many nodes deep the walk may still go: a path of
more than 255 edges would not fit in the code storage (10_state.md R25, log 6). -/
def walk (m : NodeMemory) : (depth : Nat) → NodeIndex → BitString → SymbolTable → Except Fault SymbolTable
  | 0, _, _, _ => .error .codeTooLong
  | depth + 1, n, path, st =>
    match readNode m n with
    | .error f => .error f
    | .ok (.leaf sym _) => .ok (writeCode st sym path)
    | .ok (.internal left right _) =>
      match walk m depth left (path ++ [false]) st with
      | .error f => .error f
      | .ok st1 => walk m depth right (path ++ [true]) st1

/-- The Symbol Table that ASG makes from the tree (R140): the walk starts at the root with the empty
path, and paths of up to 255 edges fit. -/
def assignCodes (m : NodeMemory) (st : SymbolTable) : Except Fault SymbolTable :=
  walk m 256 Config.root [] st

/-- ASG (R140). -/
def execAsg (s : State) : Result :=
  guarded .asg (fun s =>
    finish ((assignCodes s.node s.st).map fun st => { s with st := st, phase := .codes }.answer .ack)) s

/-- RDL (R143). -/
def execRdl (a : Byte) (s : State) : Result :=
  guarded (.rdl a) (fun s => .next (s.answer (.val ((s.entry a).len.setWidth 64)))) s

/-- RDC (R145). -/
def execRdc (a : Byte) (d : Word64) (s : State) : Result :=
  guarded (.rdc a d) (fun s => .next (s.answer (.val (codeChunk (s.entry a).code d)))) s

end Sys2Proof.Machine
end

