-- ==== Sys2Proof/Machine/Session.lean ====
section
/-! DEFINITION. The session and status commands CLR and RDR (46_system.md). -/

namespace Sys2Proof.Machine

/-- CLR (R220). -/
def execClr (s : State) : Result := guarded .clr (fun s => .next (s.clear.answer .ack)) s

/-- RDR (R222). A selector that names no register is an IllegalOperand, which the checks before the
rule have already found (30_encoding.md R84). -/
def execRdr (a : Byte) (s : State) : Result :=
  guarded (.rdr a) (fun s =>
    match statusRegister s a with
    | some v => .next (s.answer (.val v))
    | none => .next (s.raiseFault .illegalOperand (finfoOf (.rdr a)))) s

end Sys2Proof.Machine
end

