-- ==== Sys2Proof/Machine/SymbolTable.lean ====
section
/-! DEFINITION. The Symbol Table commands REC, LDF and RDF (40_symbol_table.md). -/

namespace Sys2Proof.Machine

/-- An increment that stops at 2^64-1 (R103). -/
def saturatingSucc (v : Word64) : Word64 := if v = BitVec.allOnes 64 then v else v + 1

/-- REC (R100). -/
def execRec (a : Byte) (s : State) : Result :=
  guarded (.recb a) (fun s =>
    let e := s.entry a
    let s1 := s.setEntry a { e with freq := saturatingSucc e.freq }
    .next ({ s1 with size := saturatingSucc s1.size, phase := .count }.answer .ack)) s

/-- LDF (R101). The index is compared and counted in the 9 bits of LDX (10_state.md R36). -/
def execLdf (a : Byte) (d : Word64) (s : State) : Result :=
  guarded (.ldf a d) (fun s =>
    if a.setWidth 9 ≠ s.ldx then .next (s.raiseFault .loadOrder (finfoOf (.ldf a d)))
    else
      let s1 := s.setEntry a { s.entry a with freq := d }
      let ldx := s1.ldx + 1
      .next ({ s1 with ldx := ldx, phase := if ldx = 256 then .table else .load }.answer .ack)) s

/-- RDF (R102). -/
def execRdf (a : Byte) (s : State) : Result :=
  guarded (.rdf a) (fun s => .next (s.answer (.val (s.entry a).freq))) s

end Sys2Proof.Machine
end

