-- ==== Sys2Proof/Machine/TreeBuilder.lean ====
section
/-! DEFINITION. The Tree Builder command BLD (41_tree_builder.md). -/

namespace Sys2Proof.Machine

/-! ## The working set -/

/-- The key of a node, the pair (weight, node index) (R122). -/
structure Key where
  weight : Weight
  index  : NodeIndex
deriving DecidableEq, Repr

/-- The order of keys: weight first, then node index, both unsigned (R122). -/
def keyLess (a b : Key) : Bool :=
  Nat.blt a.weight.toNat b.weight.toNat ||
    (Nat.beq a.weight.toNat b.weight.toNat && Nat.blt a.index.toNat b.index.toNat)

/-- The least of `k` and the keys of a list, and the others. -/
def splitLeast : Key → List Key → Key × List Key
  | k, [] => (k, [])
  | k, x :: xs =>
    match keyLess x k with
    | true =>
      match splitLeast x xs with
      | (m, rest) => (m, k :: rest)
    | false =>
      match splitLeast k xs with
      | (m, rest) => (m, x :: rest)

/-- `s <- the n in W with the least key(n); W <- W \ {s}` (R120); `none` for the empty set. -/
def takeLeast : List Key → Option (Key × List Key)
  | [] => none
  | k :: ks => some (splitLeast k ks)

/-! ## The build -/

/-- A build under way: the working set W, as the set of its nodes' keys (R121), the node memory, and
the index of the next node made. It exists only inside BLD (10_state.md R21). -/
structure Build where
  work  : List Key
  nodes : NodeMemory
  made  : Nat
deriving DecidableEq, Repr

/-- The leaf of symbol `i` (R120): its weight is the frequency zero-extended to 72 bits (R124). -/
def leafOf (i : Nat) (f : Word64) : Node := .leaf (BitVec.ofNat 8 i) (f.setWidth 72)

/-- The key of the leaf of symbol `i`. -/
def leafKey (i : Nat) (f : Word64) : Key := { weight := f.setWidth 72, index := BitVec.ofNat 9 i }

/-- The 256 leaves, and W holding all of them (R120). The build writes every cell, so nothing of the
memory before it is kept (R125, log 8). -/
def startBuild (fs : List Word64) : Build where
  work  := fs.zipIdx.map fun p => leafKey p.2 p.1
  nodes := tableOf 511 fun n => (fs[n]?).map (leafOf n)
  made  := 256

/-- One merge (R120): the two nodes of least key leave W, the first as `left` and the second as
`right` (R123), and the new node, whose weight is their sum, enters it. With fewer than two nodes
in W the build is complete. -/
def mergeOnce (b : Build) : Build :=
  match takeLeast b.work with
  | none => b
  | some (s, w1) =>
    match takeLeast w1 with
    | none => b
    | some (l, w2) =>
      let weight := s.weight + l.weight
      { work  := { weight := weight, index := BitVec.ofNat 9 b.made } :: w2
        nodes := writeNode b.nodes b.made (.internal s.index l.index weight)
        made  := b.made + 1 }

/-- `n` merges one after the other. -/
def mergeMany : Nat → Build → Build
  | 0, b => b
  | n + 1, b => mergeMany n (mergeOnce b)

/-- The node memory that BLD makes from the 256 frequencies (R120, R125): 255 merges. -/
def buildTree (fs : List Word64) : NodeMemory := (mergeMany 255 (startBuild fs)).nodes

/-- BLD (R120). -/
def execBld (s : State) : Result :=
  guarded .bld (fun s =>
    .next ({ s with node := buildTree (frequencies s.st), phase := .tree }.answer .ack)) s

end Sys2Proof.Machine
end

