-- ==== Sys2Proof/Machine/Dispatch.lean ====
section
/-! DEFINITION. One arm per constructor of `Instr` (30_encoding.md R83): a direct call of its meaning. -/

namespace Sys2Proof.Machine

def exec (i : Instr) (s : State) : Host.Outcome State Fault Refusal :=
  match i with
  | .clr => Sys2Proof.Machine.execClr s
  | .recb a => Sys2Proof.Machine.execRec a s
  | .ldf a d => Sys2Proof.Machine.execLdf a d s
  | .bld => Sys2Proof.Machine.execBld s
  | .asg => Sys2Proof.Machine.execAsg s
  | .pkb a => Sys2Proof.Machine.execPkb a s
  | .pkf => Sys2Proof.Machine.execPkf s
  | .uex d => Sys2Proof.Machine.execUex d s
  | .upb a => Sys2Proof.Machine.execUpb a s
  | .uend => Sys2Proof.Machine.execUend s
  | .rdr a => Sys2Proof.Machine.execRdr a s
  | .rdf a => Sys2Proof.Machine.execRdf a s
  | .rdl a => Sys2Proof.Machine.execRdl a s
  | .rdc a d => Sys2Proof.Machine.execRdc a d s

end Sys2Proof.Machine
end

