-- ==== Sys2Proof/Machine/Step.lean ====
section
/-! DEFINITION. One step of the machine: the host's oldest input is taken and, if it is a command
word, decoded and executed to completion (00_scope.md R13, 30_encoding.md R86). -/

namespace Sys2Proof.Machine

/-- One step. With no input the block waits and nothing changes (log 3). -/
def step (s : State) : Host.Outcome State Fault Refusal :=
  match fetch s with
  | none => .next s
  | some (.reset, s1) => .next s1.takeReset
  | some (.command w, s1) =>
    match decode w with
    | .ok i => exec i s1
    | .error e => .next (rejectWord e w s1)

/-- `s` with the word `w` of `nbits` bits as the very next input of the block: it goes to the front of
INBOX, where `step` takes its next command. Nothing else changes (log 1, log 16). -/
def State.withFetchWord (s : State) (nbits w : Nat) : State :=
  { s with inbox := .command (BitVec.ofNat 80 (w % 2 ^ nbits)) :: s.inbox }

end Sys2Proof.Machine
end

