-- ==== Sys2Proof/Machine/Assembler.lean ====
section
/-! DEFINITION. The spec's textual syntax (30_encoding.md R89) and its pseudo-instructions (R91):
from text to the commands it stands for. The machine itself does not use this file. -/

namespace Sys2Proof.Machine

/-! ## Pseudo-instructions (R91) -/

/-- `SCAN b0 ... bn-1`: one REC per byte; nothing for no byte. -/
def pseudoScan (bs : List Byte) : List Instr := bs.map .recb

/-- `LOADALL f0 ... f255`: one LDF per count, in symbol order. -/
def pseudoLoadAll (fs : List Word64) : List Instr :=
  fs.zipIdx.map fun p => .ldf (BitVec.ofNat 8 p.2) p.1

/-- `PACK b0 ... bn-1`: one PKB per byte, then PKF. -/
def pseudoPack (bs : List Byte) : List Instr := bs.map .pkb ++ [.pkf]

/-- `UNPACK n, p0 ... pm-1`: UEX, one UPB per byte, then UEND. -/
def pseudoUnpack (n : Word64) (ps : List Byte) : List Instr := .uex n :: ps.map .upb ++ [.uend]

/-- `PREPARE`: BLD, then ASG. -/
def pseudoPrepare : List Instr := [.bld, .asg]

/-! ## Tokens of a line (R89) -/

/-- A token: a run of letters, digits and underscores, a comma, or a character in single quotes. -/
inductive Token where
  | word (cs : List Char)
  | comma
  | quoted (c : Char)
deriving DecidableEq, Repr

/-- A character that a mnemonic, a name or a number may hold. -/
def isWordChar (c : Char) : Bool := c.isAlphanum || c == '_'

/-- The pending run of word characters (last first) as a token in front of the others. -/
def pushWord (run : List Char) (ts : List Token) : List Token :=
  if run.isEmpty then ts else .word run.reverse :: ts

/-- The tokens of one line; `run` is the run of word characters under way, last first. A `;` outside
quotes starts a comment. `none`: a character that no token begins with (log 14). -/
def tokens : List Char → List Char → Option (List Token)
  | [], run => some (pushWord run [])
  | '\'' :: c :: '\'' :: cs, run => (tokens cs []).map fun ts => pushWord run (.quoted c :: ts)
  | c :: cs, run =>
    if c = ';' then some (pushWord run [])
    else if isWordChar c then tokens cs (c :: run)
    else if c = ',' then (tokens cs []).map fun ts => pushWord run (.comma :: ts)
    else if c = ' ' ∨ c = '\t' ∨ c = '\r' then (tokens cs []).map (pushWord run)
    else none

/-! ## Numbers (R89) -/

/-- The value of a digit in base 16. -/
def digitValue (c : Char) : Option Nat :=
  if '0' ≤ c ∧ c ≤ '9' then some (c.toNat - '0'.toNat)
  else if 'a' ≤ c ∧ c ≤ 'f' then some (c.toNat - 'a'.toNat + 10)
  else if 'A' ≤ c ∧ c ≤ 'F' then some (c.toNat - 'A'.toNat + 10)
  else none

/-- The digits of a number, most significant first, in the given base. -/
def digitsValue (base : Nat) : List Char → Nat → Option Nat
  | [], v => some v
  | c :: cs, v =>
    match digitValue c with
    | some k => if k < base then digitsValue base cs (base * v + k) else none
    | none => none

/-- A number in decimal or `0x` hexadecimal, or a character in single quotes. -/
def tokenNumber : Token → Option Nat
  | .word ('0' :: 'x' :: c :: cs) => digitsValue 16 (c :: cs) 0
  | .word (c :: cs) => digitsValue 10 (c :: cs) 0
  | .word [] => none
  | .comma => none
  | .quoted c => some c.toNat

/-- A number that fits in `w` bits. -/
def tokenValue (w : Nat) (t : Token) : Option (BitVec w) :=
  match tokenNumber t with
  | some n => if n < 2 ^ w then some (BitVec.ofNat w n) else none
  | none => none

/-- Every token as a number of `w` bits. -/
def tokenValues (w : Nat) : List Token → Option (List (BitVec w))
  | [] => some []
  | t :: ts =>
    match tokenValue w t, tokenValues w ts with
    | some v, some vs => some (v :: vs)
    | _, _ => none

/-! ## Lines -/

/-- The register names that RDR takes in place of a selector (R91). -/
def registerNames : List (List Char × Byte) :=
  [(['P', 'H', 'A', 'S', 'E'], 0), (['F', 'A', 'U', 'L', 'T'], 1), (['F', 'I', 'N', 'F', 'O'], 2),
   (['S', 'I', 'Z', 'E'], 3), (['I', 'N', 'C', 'N', 'T'], 4), (['O', 'U', 'T', 'C', 'N', 'T'], 5)] ++
  [(['E', 'M', 'I', 'T'], 6), (['L', 'D', 'X'], 7), (['T', 'P'], 8), (['U', 'S', 'T'], 9),
   (['P', 'K', 'B', 'U', 'F'], 10)]

/-- The selector operand of RDR: a register's name (R91) or a number. -/
def selectorOperand (t : Token) : Option Byte :=
  match t with
  | .word cs => match registerNames.lookup cs with
    | some a => some a
    | none => tokenValue 8 t
  | _ => tokenValue 8 t

/-- A command without operands. -/
def lineZ (i : List Instr) (ts : List Token) : Option (List Instr) :=
  if ts.isEmpty then some i else none

/-- A command with the operand `a`. -/
def lineA (f : Byte → Instr) : List Token → Option (List Instr)
  | [t] => (tokenValue 8 t).map fun a => [f a]
  | _ => none

/-- A command with the operands `a` and `d`, separated by a comma. -/
def lineAD (f : Byte → Word64 → Instr) : List Token → Option (List Instr)
  | [t, .comma, u] =>
    match tokenValue 8 t, tokenValue 64 u with
    | some a, some d => some [f a d]
    | _, _ => none
  | _ => none

/-- The commands of a line whose first token is the word `m`. The assembler spells only commands: a
selector or chunk that the block would answer with IllegalOperand is assembled as it stands. -/
def lineOf (m : List Char) (ts : List Token) : Option (List Instr) :=
  if m = ['C', 'L', 'R'] then lineZ [.clr] ts
  else if m = ['R', 'E', 'C'] then lineA .recb ts
  else if m = ['L', 'D', 'F'] then lineAD .ldf ts
  else if m = ['B', 'L', 'D'] then lineZ [.bld] ts
  else if m = ['A', 'S', 'G'] then lineZ [.asg] ts
  else if m = ['P', 'K', 'B'] then lineA .pkb ts
  else if m = ['P', 'K', 'F'] then lineZ [.pkf] ts
  else if m = ['U', 'E', 'X'] then
    match ts with
    | [t] => (tokenValue 64 t).map fun d => [.uex d]
    | _ => none
  else if m = ['U', 'P', 'B'] then lineA .upb ts
  else if m = ['U', 'E', 'N', 'D'] then lineZ [.uend] ts
  else if m = ['R', 'D', 'R'] then
    match ts with
    | [t] => (selectorOperand t).map fun a => [.rdr a]
    | _ => none
  else if m = ['R', 'D', 'F'] then lineA .rdf ts
  else if m = ['R', 'D', 'L'] then lineA .rdl ts
  else if m = ['R', 'D', 'C'] then lineAD .rdc ts
  else if m = ['S', 'C', 'A', 'N'] then (tokenValues 8 ts).map pseudoScan
  else if m = ['L', 'O', 'A', 'D', 'A', 'L', 'L'] then
    match tokenValues 64 ts with
    | some fs => if fs.length = 256 then some (pseudoLoadAll fs) else none
    | none => none
  else if m = ['P', 'A', 'C', 'K'] then (tokenValues 8 ts).map pseudoPack
  else if m = ['U', 'N', 'P', 'A', 'C', 'K'] then
    match ts with
    | [t] => (tokenValue 64 t).map fun n => pseudoUnpack n []
    | t :: .comma :: us =>
      match tokenValue 64 t, tokenValues 8 us with
      | some n, some ps => some (pseudoUnpack n ps)
      | _, _ => none
    | _ => none
  else if m = ['P', 'R', 'E', 'P', 'A', 'R', 'E'] then lineZ pseudoPrepare ts
  else none

/-- The commands of one line of text (R89); an empty or comment-only line has none. -/
def assembleLine (cs : List Char) : Option (List Instr) :=
  match tokens cs [] with
  | some [] => some []
  | some (.word m :: ts) => lineOf m ts
  | _ => none

/-- A text cut into lines at its line ends; `run` is the line under way, last character first. -/
def textLines : List Char → List Char → List (List Char)
  | [], run => [run.reverse]
  | c :: cs, run => if c = '\n' then run.reverse :: textLines cs [] else textLines cs (c :: run)

/-- The commands of a list of lines. -/
def assembleLines : List (List Char) → Option (List Instr)
  | [] => some []
  | l :: ls =>
    match assembleLine l, assembleLines ls with
    | some is, some js => some (is ++ js)
    | _, _ => none

/-- The commands of a text, one command or pseudo-instruction a line (R89, R91). -/
def assemble (text : List Char) : Option (List Instr) := assembleLines (textLines text [])

end Sys2Proof.Machine
end

