-- ==== Sys2Proof/Machine/Container.lean ====
section
/-! DEFINITION. The Container Format and the host procedures (45_container.md). Nothing here is a
command of the block: these are the pure functions and the two procedures by which a host drives it,
through `step`, one command word at a time (00_scope.md R5). -/

namespace Sys2Proof.Machine

/-- Why a host function gives no result (R202, R203, R209). -/
inductive HostError where
  /-- A name longer than N2 bytes or with a 0x00 in it (R202). -/
  | nameInvalid
  /-- The header has 256 frequencies, no other number (R202; log 13). -/
  | frequencyCountInvalid
  /-- The size or the input does not fit in 64 bits (R206; log 13). -/
  | inputTooLong
  /-- FormatError(header truncated) (R203). -/
  | headerTruncated
  /-- FormatError(no signature) (R203). -/
  | noSignature
  /-- FormatError(stream truncated): UEND answered FLT(5) (R207). -/
  | streamTruncated
  /-- A command answered FLT or REF, at this stage (R209). -/
  | commandFailed (i : Instr) (r : Response)
  /-- The session did not end in PACKED or DONE, so its output is not valid (60_exceptions.md R246). -/
  | outputNotValid (p : Phase)
  /-- The block stopped without an answer; no run from reset does (log 5). -/
  | blockStopped (i : Instr)
deriving DecidableEq, Repr

/-! ## The header -/

/-- `le64(v)`: the 8 bytes of `v`, bits 7:0 first (R202). -/
def le64 (v : Word64) : List Byte := (List.range 8).map fun k => v.extractLsb' (8 * k) 8

/-- The little-endian value of a list of bytes (R203). -/
def leValue (bs : List Byte) : Nat := bs.foldr (fun b v => b.toNat + 256 * v) 0

/-- What a header holds besides the signature (R200): the original file name, the original size, the
256 frequencies in symbol order. -/
structure Header where
  name  : List Byte
  size  : Word64
  freqs : List Word64
deriving DecidableEq, Repr

/-- The inputs `write_header` takes (R202). -/
def headerValid (P : HdrParams) (h : Header) : Bool :=
  decide (h.name.length ≤ P.n2) && !h.name.contains 0 && decide (h.freqs.length = 256)

/-- `write_header` (R202). A name that is not valid is refused, not cut. -/
def writeHeader (P : HdrParams) (h : Header) : Except HostError (List Byte) :=
  if P.n2 < h.name.length ∨ h.name.contains 0 then .error .nameInvalid
  else if h.freqs.length ≠ 256 then .error .frequencyCountInvalid
  else .ok (P.sig ++ h.name ++ List.replicate (P.n2 - h.name.length) 0 ++ le64 h.size ++
    h.freqs.flatMap le64)

/-- The bytes of a field, by its offset and length (R201). -/
def fieldAt (bs : List Byte) (offset length : Nat) : List Byte := (bs.drop offset).take length

/-- The 64-bit little-endian integer at an offset (R203). -/
def word64At (bs : List Byte) (offset : Nat) : Word64 := BitVec.ofNat 64 (leValue (fieldAt bs offset 8))

/-- `read_header` (R203). -/
def readHeader (P : HdrParams) (bs : List Byte) : Except HostError Header :=
  if bs.length < P.hlen then .error .headerTruncated
  else if bs.take P.n1 ≠ P.sig then .error .noSignature
  else .ok
    { name  := (fieldAt bs P.n1 P.n2).takeWhile (· != 0)
      size  := word64At bs (P.n1 + P.n2)
      freqs := (List.range 256).map fun i => word64At bs (P.n1 + P.n2 + 8 + 8 * i) }

/-- `is_compressed` (R204): the signature is the sole discriminator. -/
def isCompressed (P : HdrParams) (bs : List Byte) : Bool :=
  decide (P.n1 ≤ bs.length) && bs.take P.n1 == P.sig

/-- `equal` (R210): the byte-for-byte equality check. -/
def equalBytes (A B : List Byte) : Bool :=
  A.length == B.length && (A.zip B).all fun p => p.1 == p.2

/-! ## Driving the block -/

/-- The host issues one command: its word is the block's next input, the block executes it, and the
host takes the response. A FLT or REF answer ends the procedure (R206, R209). -/
def issue (i : Instr) (s : State) : Except HostError (Response × State) :=
  match step { s with inbox := .command (encode i) :: s.inbox } with
  | .next t =>
    match t.rsp with
    | some (.flt c) => .error (.commandFailed i (.flt c))
    | some (.ref c) => .error (.commandFailed i (.ref c))
    | some r => .ok (r, t)
    | none => .error (.blockStopped i)
  | .fault _ => .error (.blockStopped i)
  | .refused _ => .error (.blockStopped i)

/-- The host takes a session's output at the session's end, and takes only a valid one
(60_exceptions.md R246; 70_reset_and_hazards.md R276). -/
def takeOutput (s : State) : Except HostError (List Byte) :=
  match s.validOutput with
  | some bytes => .ok bytes
  | none => .error (.outputNotValid s.phase)

/-- Commands issued one after the other, to the first failure. -/
def issueAll : List Instr → State → Except HostError State
  | [], s => .ok s
  | i :: is, s =>
    match issue i s with
    | .ok (_, t) => issueAll is t
    | .error e => .error e

/-- Read commands issued one after the other, and the values they answer (R206: the 256 RDF). -/
def issueReads : List Instr → State → Except HostError (List Word64 × State)
  | [], s => .ok ([], s)
  | i :: is, s =>
    match issue i s with
    | .ok (r, t) =>
      match issueReads is t with
      | .ok (vs, u) => .ok (r.res :: vs, u)
      | .error e => .error e
    | .error e => .error e

/-! ## A session driven by `step` -/

/-- The inputs that end a session: reset, and a word that spells CLR, which executes in every phase
(00_scope.md R14; 60_exceptions.md R247). -/
def endsSession : HostInput → Bool
  | .reset => true
  | .command w =>
    match decode w with
    | .ok i => decide (i = .clr)
    | .error _ => false

/-- Up to `n` steps of the session under way: it goes on while the host has an input waiting that does
not end it. -/
def runSession : Nat → State → Result
  | 0, s => .next s
  | n + 1, s =>
    match s.inbox with
    | [] => .next s
    | x :: _ =>
      if endsSession x then .next s
      else
        match step s with
        | .next t => runSession n t
        | .fault f => .fault f
        | .refused r => .refused r

/-- The last state of the session under way, with the inputs that the host has given: its end is CLR,
reset, or the end of the host's command sequence (00_scope.md R14, 46_system.md R221). -/
def sessionLast (s : State) : Result := runSession s.inbox.length s

/-- The valid output of the session under way, with the inputs that the host has given, if it has one
(46_system.md R221, 60_exceptions.md R246). -/
def sessionOutput (s : State) : Option (List Byte) :=
  match sessionLast s with
  | .next t => t.validOutput
  | .fault _ => none
  | .refused _ => none

/-- The inputs by which the host issues a list of commands. -/
def inputsOf (is : List Instr) : List HostInput := is.map fun i => .command (encode i)

/-- All 256 symbols, in order. -/
def allSymbols : List Byte := (List.range 256).map (BitVec.ofNat 8)

/-- What `compress` gives its caller (R206, R210): the file, the byte counts of its report, and the
block as the procedure leaves it. -/
structure Compressed where
  file     : List Byte
  inBytes  : Nat
  outBytes : Nat
  block    : State
deriving DecidableEq, Repr

/-- The stages of `compress` once the input's length is known to fit (R206). -/
def compressStages (P : HdrParams) (input name : List Byte) (s : State) : Except HostError Compressed := do
  let s1 ← issueAll ([.clr] ++ input.map .recb ++ [.bld, .asg]) s
  let (freqs, s2) ← issueReads (allSymbols.map .rdf) s1
  let header ← writeHeader P { name := name, size := BitVec.ofNat 64 input.length, freqs := freqs }
  let s3 ← issueAll (input.map .pkb ++ [.pkf]) s2
  let packed ← takeOutput s3
  .ok { file := header ++ packed, inBytes := input.length, outBytes := P.hlen + s3.outcnt.toNat, block := s3 }

/-- Procedure `compress(S, name)` (R206), from any state of the block. `n` must be below 2^64. -/
def compress (P : HdrParams) (input name : List Byte) (s : State) : Except HostError Compressed :=
  if 2 ^ 64 ≤ input.length then .error .inputTooLong else compressStages P input name s

/-- What `decompress` gives its caller (R207, R210): name and data, the byte counts of its report,
and the block as the procedure leaves it. -/
structure Decompressed where
  name     : List Byte
  data     : List Byte
  inBytes  : Nat
  outBytes : Nat
  block    : State
deriving DecidableEq, Repr

/-- The last command of `decompress`: FLT(5) from UEND is FormatError(stream truncated) (R207). -/
def issueEnd (s : State) : Except HostError State :=
  match issue .uend s with
  | .ok (_, t) => .ok t
  | .error (.commandFailed _ (.flt .formatTruncated)) => .error .streamTruncated
  | .error e => .error e

/-- Procedure `decompress(F)` (R207), from any state of the block. The host feeds every byte; it may
stop at DONE, which changes nothing in the block (44_bit_unpacker.md R184; log 13). -/
def decompress (P : HdrParams) (file : List Byte) (s : State) : Except HostError Decompressed := do
  let h ← readHeader P file
  let loads : List Instr := h.freqs.zipIdx.map fun p => .ldf (BitVec.ofNat 8 p.2) p.1
  let s1 ← issueAll ([.clr] ++ loads ++ [.bld, .asg, .uex h.size]) s
  let s2 ← issueAll ((file.drop P.hlen).map .upb) s1
  let s3 ← issueEnd s2
  let data ← takeOutput s3
  .ok { name := h.name, data := data, inBytes := file.length, outBytes := s3.outcnt.toNat, block := s3 }

end Sys2Proof.Machine
end

