-- ==== Sys2Proof/Safety.lean ====
section
/-! DEFINITION. What a safe run of the block is, in the terms that statements use: the shape of a
built tree (10_state.md R28, R29; 41_tree_builder.md R126), the path to a leaf (42_code_assigner.md
R142), the bit stream a packer has produced (43_bit_packer.md R164), the symbols a bit-string spells
(44_bit_unpacker.md R180), and the invariant of every state a run reaches. None of it is used by the
machine. -/

namespace Sys2Proof.Machine

/-! ## The host's next input -/

/-- `s` with `x` as the oldest input that the host has given. Every state whose INBOX is not empty is
of this form. -/
def State.given (s : State) (x : HostInput) : State := { s with inbox := x :: s.inbox }

/-- What the words with opcode `op` spell: one whose fields pass `ok` decodes to the command `i` of its
fields; any other decodes to none and raises IllegalOperand outside phase ERROR (30_encoding.md R82,
R84, R86). -/
def Spells (op : Byte) (ok : Byte → Word64 → Bool) (i : Byte → Word64 → Instr) : Prop :=
  ∀ w : CommandWord, wordOp w = op →
    (ok (wordA w) (wordD w) = true → decode w = .ok (i (wordA w) (wordD w))) ∧
    (ok (wordA w) (wordD w) = false →
      decode w = .error .illegalOperand ∧
      ∀ s : State, s.phase ≠ .error →
        step (s.given (.command w)) = .next (s.raiseFault .illegalOperand (wordInfo w)))

/-! ## Phases -/

/-- The phases after a build, ERROR apart: TREE and later (R31). -/
def Phase.built : Phase → Bool
  | .tree | .codes | .pack | .packed | .unpack | .done => true
  | .empty | .count | .load | .table | .error => false

/-- The phases of the compress path in which every symbol has its code (R31). -/
def Phase.coded : Phase → Bool
  | .codes | .pack | .packed => true
  | .empty | .count | .load | .table | .tree | .unpack | .done | .error => false

/-- The phases before a build (R31). -/
def Phase.unbuilt : Phase → Bool
  | .empty | .count | .load | .table => true
  | .tree | .codes | .pack | .packed | .unpack | .done | .error => false

/-- The phases before the first packed byte, in either direction (R31). -/
def Phase.quiet : Phase → Bool
  | .empty | .count | .load | .table | .tree | .codes => true
  | .pack | .packed | .unpack | .done | .error => false

/-- The columns of the legality table of 30_encoding.md R90, read downwards: the opcodes of the
commands marked `ok` in each phase (UEND in UNPACK, which raises FormatTruncated, among them). -/
def okColumn : Phase → List Byte
  | .empty => [0x01, 0x02, 0x03, 0x04, 0x10, 0x11, 0x12, 0x13]
  | .count => [0x01, 0x02, 0x04, 0x10, 0x11, 0x12, 0x13]
  | .load => [0x01, 0x03, 0x10, 0x12, 0x13]
  | .table => [0x01, 0x04, 0x10, 0x11, 0x12, 0x13]
  | .tree => [0x01, 0x05, 0x08, 0x10, 0x11, 0x12, 0x13]
  | .codes => [0x01, 0x06, 0x07, 0x08, 0x10, 0x11, 0x12, 0x13]
  | .pack => [0x01, 0x06, 0x07, 0x10, 0x11, 0x12, 0x13]
  | .packed => [0x01, 0x10, 0x11, 0x12, 0x13]
  | .unpack => [0x01, 0x09, 0x0A, 0x10, 0x11, 0x12, 0x13]
  | .done => [0x01, 0x09, 0x0A, 0x10, 0x11, 0x12, 0x13]
  | .error => [0x01, 0x10]

/-- The arrows of the table of R90: the phases a command may leave behind where the table marks it
`ok` in phase `p` (a LoadOrder or FormatTruncated fault leaves ERROR instead). -/
def arrows : Instr → Phase → List Phase
  | .clr, _ => [.empty]
  | .recb _, _ => [.count]
  | .ldf _ _, .empty => [.load]
  | .ldf _ _, _ => [.load, .table]
  | .bld, _ => [.tree]
  | .asg, _ => [.codes]
  | .pkb _, _ => [.pack]
  | .pkf, _ => [.packed]
  | .uex _, _ => [.unpack, .done]
  | .upb _, .unpack => [.unpack, .done]
  | .upb _, p => [p]
  | .uend, p => [p]
  | .rdr _, p => [p]
  | .rdf _, p => [p]
  | .rdl _, p => [p]
  | .rdc _ _, p => [p]

/-- The fault that a command word raises in a state, by the conditions and the priority of
60_exceptions.md R240 and R242, read off the word's fields, the opcode table and the columns of R90. -/
def faultOf (s : State) (w : CommandWord) : Option FaultCode :=
  if s.phase = .error then none
  else if opcodeTable.all (fun r => wordOp w != wordOp r.pattern) then some .illegalCommand
  else if legalSpelling w = false then some .illegalOperand
  else if wordOp w ∉ okColumn s.phase then some .phaseViolation
  else if wordOp w = 0x03 ∧ (wordA w).toNat ≠ s.ldx.toNat then some .loadOrder
  else if wordOp w = 0x0A ∧ s.phase = .unpack then some .formatTruncated
  else none

/-! ## The tree -/

/-- The index of the leaf of a symbol (R28). -/
def leafIndex (a : Byte) : NodeIndex := a.setWidth 9

/-- The node memory holds a tree as BLD leaves it: the 256 leaves in cells 0 to 255, internal nodes
in cells 256 to 510 with children of lower index, and every cell but the root the child of exactly
one node, on exactly one side (R28, R29, R126). -/
structure WellBuilt (m : NodeMemory) : Prop where
  leaves : ∀ a : Byte, ∃ w, readNode m (leafIndex a) = .ok (.leaf a w)
  internals : ∀ n : NodeIndex, 256 ≤ n → n ≤ 510 →
    ∃ l r w, readNode m n = .ok (.internal l r w) ∧ l < n ∧ r < n
  oneParent : ∀ c : NodeIndex, c < 510 → ∃! e : NodeIndex × Bool, childOf m e.1 e.2 = .ok c

/-- The node that a path of edge labels leads to, the edge at `n` first (R142). -/
def followPath (m : NodeMemory) : NodeIndex → BitString → Except Fault NodeIndex
  | n, [] => .ok n
  | n, b :: bs =>
    match childOf m n b with
    | .error f => .error f
    | .ok c => followPath m c bs

/-- The weight of the node in cell `n`, as a number (R124). -/
def weightAt (m : NodeMemory) (n : NodeIndex) : Option Nat :=
  match readNode m n with
  | .ok x => some x.weight.toNat
  | .error _ => none

/-! ## The build, as the rule gives it -/

/-- Node `a` comes before node `b`: its key (weight, node index) is smaller (R122). -/
def KeyBefore (m : NodeMemory) (a b : NodeIndex) : Prop :=
  ∃ wa wb, weightAt m a = some wa ∧ weightAt m b = some wb ∧ (wa < wb ∨ wa = wb ∧ a < b)

/-- `n` is the node of least key in the set `W` (R120). -/
def LeastIn (m : NodeMemory) (W : Finset NodeIndex) (n : NodeIndex) : Prop :=
  n ∈ W ∧ ∀ x ∈ W, x ≠ n → KeyBefore m n x

/-- The node memory with the 256 leaves of the frequencies `fs`, and no other node (R120). -/
def leafMemory (fs : List Word64) : NodeMemory :=
  tableOf 511 fun n => (fs[n]?).map fun f => .leaf (BitVec.ofNat 8 n) (f.setWidth 72)

/-- The pseudocode of R120 as a relation: after `k` merges from the frequencies `fs` the working set
is `W` and the node memory is `m`. The set is a set of node indices and a key is looked up in the
node memory, as the rule writes it; the sum of two weights is exact (R124). -/
inductive Merged (fs : List Word64) : Nat → Finset NodeIndex → NodeMemory → Prop where
  | start : Merged fs 0 (Finset.univ.filter fun n => n < 256) (leafMemory fs)
  | merge {k : Nat} {W : Finset NodeIndex} {m : NodeMemory} {s l : NodeIndex} {ws wl : Nat} {w : Weight} :
      Merged fs k W m → k < 255 → LeastIn m W s → LeastIn m (W.erase s) l →
      weightAt m s = some ws → weightAt m l = some wl → w.toNat = ws + wl →
      Merged fs (k + 1) (insert (BitVec.ofNat 9 (256 + k)) ((W.erase s).erase l))
        (writeNode m (256 + k) (.internal s l w))

/-! ## The two streams -/

/-- The bits waiting in the packer's buffer, oldest first: bit CNT-1 of ACC down to bit 0 (R38). -/
def pendingBits (s : State) : BitString :=
  (List.range s.cnt.toNat).map fun k => s.acc.getLsbD (s.cnt.toNat - 1 - k)

/-- All bits the packer has been given: those of the bytes in OUT, then those waiting (R164). -/
def packedBits (s : State) : BitString := s.out.flatMap byteBits ++ pendingBits s

/-- The codes of a list of bytes, one after the other (R164). -/
def codesOf (s : State) (bs : List Byte) : BitString := bs.flatMap fun b => (s.entry b).code

/-- The symbols that a bit-string spells, walked from node `n`, no more than `k` of them, and the
node the walk ends at (R180): 0 is left, 1 is right, a leaf gives its symbol and leads back to the
root, and once `k` symbols have been given the rest of the bits is not looked at. -/
def spelled (m : NodeMemory) : NodeIndex → Nat → BitString → Option (List Byte × NodeIndex)
  | n, _, [] => some ([], n)
  | n, 0, _ :: _ => some ([], n)
  | n, k + 1, b :: bs =>
    match childOf m n b with
    | .error _ => none
    | .ok c =>
      match readNode m c with
      | .error _ => none
      | .ok (.leaf sym _) => (spelled m Config.root k bs).map fun r => (sym :: r.1, r.2)
      | .ok (.internal _ _ _) => spelled m c (k + 1) bs

/-! ## The invariant -/

/-- What holds in every state that a run from reset reaches. -/
structure State.Inv (s : State) : Prop where
  /-- `len` is the length of `code` (R24). -/
  codeLength : ∀ a, (s.entry a).code.length = (s.entry a).len.toNat
  /-- UST is AT_ROOT exactly when TP is 510 (R37). -/
  rootState : s.ust = .atRoot ↔ s.tp = 510
  /-- The bits of ACC above bit CNT-1 are 0 (R38, R162). -/
  bufferBits : s.acc.toNat < 2 ^ s.cnt.toNat
  /-- OUTCNT is the length of OUT modulo 2^64 (R35). -/
  outCount : s.outcnt = BitVec.ofNat 64 s.out.length
  /-- LDX is 0 to 256 (R36). -/
  loadIndex : s.ldx ≤ 256
  /-- FAULT holds a cause exactly in ERROR (R32, R244). -/
  faultPhase : s.fault = .none ↔ s.phase ≠ .error
  /-- FINFO is 0 while no fault has been raised (R32). -/
  noInfo : s.phase ≠ .error → s.finfo = 0
  /-- In EMPTY all frequencies are 0 (R31). -/
  emptyTable : s.phase = .empty → ∀ a, (s.entry a).freq = 0
  /-- LDX is 0 before any load (R36, R101). -/
  notLoading : s.phase = .empty ∨ s.phase = .count → s.ldx = 0
  /-- In LOAD some but not all entries have been loaded, and the others are still 0 (R36). -/
  loading : s.phase = .load →
    1 ≤ s.ldx ∧ s.ldx ≤ 255 ∧ ∀ a : Byte, s.ldx ≤ a.setWidth 9 → (s.entry a).freq = 0
  /-- LDX is 256 once a load has completed (R36). -/
  loaded : s.phase = .table → s.ldx = 256
  /-- Before the first BLD no node cell holds a value (R26, R30). -/
  noTree : s.phase.unbuilt → s.node = tableFill 511 none
  /-- Before ASG every code is empty (R24). -/
  noCodes : s.phase.unbuilt ∨ s.phase = .tree → ∀ a, (s.entry a).code = []
  /-- After BLD the node memory is the tree of the frequencies (R29, R104, R125). -/
  tree : s.phase.built → s.node = buildTree (frequencies s.st)
  /-- After ASG the code of a symbol is the path from the root to its leaf (R142). -/
  codes : s.phase.coded → ∀ a, followPath s.node Config.root (s.entry a).code = .ok (leafIndex a)
  /-- Before the first packed byte nothing has been delivered or counted and the pointer is at the
  root (R31, R34, R35). -/
  quiet : s.phase.quiet → s.out = [] ∧ s.incnt = 0 ∧ s.emit = 0 ∧ s.tp = 510
  /-- Only a pack under way has bits waiting (R161). -/
  noBits : s.phase ≠ .pack → s.phase ≠ .error → s.cnt = 0
  /-- While unpacking fewer than SIZE symbols have been emitted, and the pointer is at an internal
  node (R31, R183). -/
  unpacking : s.phase = .unpack →
    s.emit < s.size ∧ ∃ l r w, readNode s.node s.tp = .ok (.internal l r w)
  /-- In DONE exactly SIZE symbols have been emitted (R31, R186). -/
  complete : s.phase = .done → s.emit = s.size ∧ s.tp = 510
  /-- In an unpack session OUTCNT is EMIT (R35). -/
  unpackCount : s.phase = .unpack ∨ s.phase = .done → s.outcnt = s.emit

end Sys2Proof.Machine
end

