-- ==== Sys2Proof/Certificates/Slice0/Obligations.lean ====
section
/-! DEFINITION. The statements for the provers, each a `def Obligations.<Name> : Prop` made from the
numbered rules of spec/. In a statement about one command the first part (`Spells`) says what every
word with its opcode spells or raises, the second what the command does where its rule runs (with the frame:
the next state is the old one but for the fields written out), the last where it raises
PhaseViolation. -/

open Sys2Proof Sys2Proof.Machine

/-! ## Encoding, and the step -/

/-- R92: the encoding examples, and the illegal words. -/
def Obligations.DecodeSampleWords : Prop :=
  decode 0x01000000000000000000 = .ok .clr ∧
  decode 0x02410000000000000000 = .ok (.recb 0x41) ∧
  decode 0x03610000000000000003 = .ok (.ldf 0x61 3) ∧
  decode 0x04000000000000000000 = .ok .bld ∧
  decode 0x05000000000000000000 = .ok .asg ∧
  decode 0x06620000000000000000 = .ok (.pkb 0x62) ∧
  decode 0x07000000000000000000 = .ok .pkf ∧
  decode 0x080000000000000003E8 = .ok (.uex 1000) ∧
  decode 0x09AD0000000000000000 = .ok (.upb 0xAD) ∧
  decode 0x0A000000000000000000 = .ok .uend ∧
  decode 0x10030000000000000000 = .ok (.rdr 3) ∧
  decode 0x11610000000000000000 = .ok (.rdf 0x61) ∧
  decode 0x12FF0000000000000000 = .ok (.rdl 0xFF) ∧
  decode 0x13610000000000000002 = .ok (.rdc 0x61 2) ∧
  decode 0x00000000000000000000 = .error .illegalCommand ∧
  decode 0x04000000000000000001 = .error .illegalOperand ∧
  decode 0x100B0000000000000000 = .error .illegalOperand ∧
  decode 0x13610000000000000004 = .error .illegalOperand ∧
  decode 0x0B000000000000000000 = .error .illegalCommand

/-- Decoding the word of a well-formed command gives the command back, every operand included. -/
def Obligations.DecodeOfEncode : Prop :=
  ∀ i : Instr, i.wellFormed → decode (encode i) = .ok i

/-- A word has one spelling per command: a word that decodes is the encoding of what it decodes to,
which is well-formed. -/
def Obligations.EncodeOfDecode : Prop :=
  ∀ (w : CommandWord) (i : Instr), decode w = .ok i → i.wellFormed ∧ encode i = w

/-- R84: a word is a legal spelling exactly when it matches a row of the opcode table (it never
matches two), with RDR's check `a ≤ 10` besides, and then it decodes; a word whose `op` is in the map
but which is no legal spelling raises IllegalOperand (outside phase ERROR). -/
def Obligations.LegalSpellingsDecode : Prop :=
  (∀ w : CommandWord, (∃ i, decode w = .ok i) ↔ legalSpelling w) ∧
  (∀ w : CommandWord, (opcodeTable.filter (·.matches w)).length ≤ 1) ∧
  ∀ (s : State) (w : CommandWord), s.phase ≠ .error →
    opcodeTable.any (fun r => wordOp w == wordOp r.pattern) → legalSpelling w = false →
    step (s.given (.command w)) = .next (s.raiseFault .illegalOperand (wordInfo w))

/-- R85: the reserved opcodes raise IllegalCommand (outside phase ERROR). -/
def Obligations.ReservedOpcodesAreIllegal : Prop :=
  ∀ (s : State) (w : CommandWord), s.phase ≠ .error →
    (wordOp w = 0 ∨ (0x0B ≤ wordOp w ∧ wordOp w ≤ 0x0F) ∨ 0x14 ≤ wordOp w) →
    step (s.given (.command w)) = .next (s.raiseFault .illegalCommand (wordInfo w))

/-- A step on a word that decodes takes the word from INBOX and runs the decoded command. -/
def Obligations.StepRunsDecodedCommand : Prop :=
  ∀ (s : State) (w : CommandWord) (i : Instr), decode w = .ok i →
    step (s.given (.command w)) = exec i s

/-- With no input the block waits and nothing changes (the model's choice, log 3); a reset request
gives the reset state, with the later inputs kept (log 4). -/
def Obligations.StepWaitsOrResets : Prop :=
  (∀ s : State, s.inbox = [] → step s = .next s) ∧
  ∀ s : State, step (s.given .reset) = .next { State.reset with inbox := s.inbox }

/-! ## Reset, faults and the ERROR phase -/

/-- R44: the state after reset, and after CLR. -/
def Obligations.ResetState : Prop :=
  (∀ a, (State.reset.entry a).freq = 0 ∧ (State.reset.entry a).code = [] ∧ (State.reset.entry a).len = 0) ∧
  (∀ n : NodeIndex, n < 511 → readNode State.reset.node n = .error .nodeWithoutValue) ∧
  State.reset.phase = .empty ∧ State.reset.fault.value = 0 ∧ State.reset.finfo = 0 ∧
  State.reset.size = 0 ∧ State.reset.incnt = 0 ∧ State.reset.outcnt = 0 ∧ State.reset.emit = 0 ∧
  State.reset.ldx = 0 ∧ State.reset.tp = 510 ∧ State.reset.ust = .atRoot ∧ State.reset.acc = 0 ∧
  State.reset.cnt = 0 ∧ State.reset.out = [] ∧
  ∀ s : State, exec .clr s = .next { State.reset with inbox := s.inbox, rsp := some .ack }

/-- R244: fault entry writes FAULT, FINFO, PHASE and the response, and nothing else. -/
def Obligations.FaultEntry : Prop :=
  ∀ (s : State) (c : FaultCode) (info : BitVec 16),
    s.raiseFault c info =
      { s with fault := c, finfo := info, phase := .error, rsp := some (.flt c) }

/-- R240, R242: a word raises exactly the fault that the conditions and their priority name, with its
own `{op, a}` in FINFO, and no other word raises one. -/
def Obligations.FaultsByPriority : Prop :=
  ∀ (s : State) (w : CommandWord),
    (∀ c, faultOf s w = some c →
      step (s.given (.command w)) = .next (s.raiseFault c (wordInfo w))) ∧
    (faultOf s w = none → ∀ t, step (s.given (.command w)) = .next t → ∀ c, t.rsp ≠ some (.flt c))

/-- R245: in phase ERROR a CLR with `a = 0` and `d = 0` and an RDR with `a ≤ 10` and `d = 0` execute;
every other word is refused with REF and the value of FAULT, with no state change. -/
def Obligations.ErrorPhaseRefuses : Prop :=
  ∀ (s : State) (w : CommandWord), s.phase = .error →
    (wordOp w = 0x01 ∧ wordA w = 0 ∧ wordD w = 0 →
      step (s.given (.command w)) = .next { State.reset with inbox := s.inbox, rsp := some .ack }) ∧
    (wordOp w = 0x10 ∧ wordA w ≤ 10 ∧ wordD w = 0 →
      ∃ v, statusRegister s (wordA w) = some v ∧
        step (s.given (.command w)) = .next { s with rsp := some (.val v) }) ∧
    (¬ (wordOp w = 0x01 ∧ wordA w = 0 ∧ wordD w = 0) →
      ¬ (wordOp w = 0x10 ∧ wordA w ≤ 10 ∧ wordD w = 0) →
      step (s.given (.command w)) = .next { s with rsp := some (.ref s.fault) })

/-- R245, R247: once in ERROR, a step leaves PHASE, FAULT and FINFO as they are, unless it takes a
CLR or a reset, which give the reset state. -/
def Obligations.ErrorIsSticky : Prop :=
  ∀ s t : State, s.phase = .error → step s = .next t →
    (t.phase = .error ∧ t.fault = s.fault ∧ t.finfo = s.finfo ∧ t = { s with inbox := t.inbox, rsp := t.rsp }) ∨
    t = { State.reset with inbox := t.inbox, rsp := t.rsp }

/-- R90: where the legality table says `PV`, a command raises PhaseViolation. -/
def Obligations.PhaseViolationsFollowTable : Prop :=
  ∀ (i : Instr) (s : State), i.wellFormed → s.phase ≠ .error → i.opcode ∉ okColumn s.phase →
    exec i s = .next (s.raiseFault .phaseViolation (i.opcode ++ i.fieldA))

/-- R90: where the table says `ok`, the next phase is the one of the table's arrow, or ERROR by the
command's own LoadOrder or FormatTruncated fault. Under the invariant: only a state that no run
reaches has PHASE EMPTY and LDX 255, from where one LDF would complete the load. -/
def Obligations.PhasesFollowArrows : Prop :=
  ∀ (i : Instr) (s t : State), s.Inv → i.wellFormed → s.phase ≠ .error → i.opcode ∈ okColumn s.phase →
    exec i s = .next t →
    t.phase ∈ arrows i s.phase ∨
      (t.phase = .error ∧ (t.fault = .loadOrder ∧ i.opcode = 0x03 ∨ t.fault = .formatTruncated ∧ i = .uend))

/-- R88: every command word is answered, and the answer's two fields are a code and a value: 0 with
0, 1 with the value, 2 with the cause code, 3 with the value of FAULT. -/
def Obligations.EveryCommandIsAnswered : Prop :=
  (∀ (s t : State) (w : CommandWord), step (s.given (.command w)) = .next t →
    ∃ r, t.rsp = some r ∧
      (r = .ack ∨ (∃ v, r = .val v) ∨ (r = .flt t.fault ∧ t.phase = .error ∧ s.phase ≠ .error) ∨
        (r = .ref s.fault ∧ s.phase = .error))) ∧
  (Response.ack.code = 0 ∧ Response.ack.res = 0) ∧
  (∀ v, (Response.val v).code = 1 ∧ (Response.val v).res = v) ∧
  (∀ c, (Response.flt c).code = 2 ∧ (Response.flt c).res = c.value.setWidth 64) ∧
  ∀ c, (Response.ref c).code = 3 ∧ (Response.ref c).res = c.value.setWidth 64

/-! ## Session and status commands -/

/-- R220: CLR, legal in every phase, gives the reset state. -/
def Obligations.ClrGivesResetState : Prop :=
  Spells 0x01 (fun a d => a == 0 && d == 0) (fun _ _ => .clr) ∧
  ∀ s : State, exec .clr s = .next { State.reset with inbox := s.inbox, rsp := some .ack }

/-- R222: RDR, legal in every phase, answers the selected register and writes nothing. -/
def Obligations.RdrReadsStatus : Prop :=
  Spells 0x10 (fun a d => decide (a ≤ 10) && d == 0) (fun a _ => .rdr a) ∧
  ∀ (s : State) (a : Byte) (v : Word64),
    [s.phase.value.setWidth 64, s.fault.value.setWidth 64, s.finfo.setWidth 64, s.size, s.incnt, s.outcnt,
      s.emit, s.ldx.setWidth 64, s.tp.setWidth 64, s.ust.value.setWidth 64,
      (s.cnt.setWidth 64) * 256 + s.acc.setWidth 64][a.toNat]? = some v →
    exec (.rdr a) s = .next { s with rsp := some (.val v) }

/-- R31, R240, R37: the numbers of the phases, of the cause codes and of the unpacker's states. -/
def Obligations.StatusNumbers : Prop :=
  [Phase.empty, .count, .load, .table, .tree, .codes, .pack, .packed, .unpack, .done, .error].map Phase.value =
    [0, 1, 2, 3, 4, 5, 6, 7, 8, 9, 15] ∧
  [FaultCode.none, .illegalCommand, .illegalOperand, .phaseViolation, .loadOrder, .formatTruncated].map
    FaultCode.value = [0, 1, 2, 3, 4, 5] ∧
  [Ust.atRoot, .descending].map Ust.value = [0, 1]

/-! ## Symbol Table commands -/

/-- R100, R103: REC adds one to ST[a].freq and to SIZE, both stopping at 2^64-1. -/
def Obligations.RecCountsByte : Prop :=
  Spells 0x02 (fun _ d => d == 0) (fun a _ => .recb a) ∧
  (∀ (s : State) (a : Byte), s.phase = .empty ∨ s.phase = .count →
    ∃ t, exec (.recb a) s = .next t ∧
      (t.entry a).freq.toNat = min ((s.entry a).freq.toNat + 1) (2 ^ 64 - 1) ∧
      (t.entry a).code = (s.entry a).code ∧ (t.entry a).len = (s.entry a).len ∧
      (∀ b, b ≠ a → t.entry b = s.entry b) ∧
      t.size.toNat = min (s.size.toNat + 1) (2 ^ 64 - 1) ∧
      t = { s with st := t.st, size := t.size, phase := .count, rsp := some .ack }) ∧
  ∀ (s : State) (a : Byte), s.phase ≠ .empty → s.phase ≠ .count → s.phase ≠ .error →
    exec (.recb a) s = .next (s.raiseFault .phaseViolation (0x02#8 ++ a))

/-- R101: LDF writes the count of the next symbol in order, and raises LoadOrder for any other. -/
def Obligations.LdfLoadsInOrder : Prop :=
  Spells 0x03 (fun _ _ => true) (fun a d => .ldf a d) ∧
  (∀ (s : State) (a : Byte) (d : Word64), s.phase = .empty ∨ s.phase = .load → a.toNat = s.ldx.toNat →
    ∃ t, exec (.ldf a d) s = .next t ∧
      t.entry a = { s.entry a with freq := d } ∧ (∀ b, b ≠ a → t.entry b = s.entry b) ∧
      t.ldx.toNat = s.ldx.toNat + 1 ∧
      t = { s with
        st := t.st, ldx := t.ldx, phase := if t.ldx = 256 then .table else .load, rsp := some .ack }) ∧
  (∀ (s : State) (a : Byte) (d : Word64), s.phase = .empty ∨ s.phase = .load → a.toNat ≠ s.ldx.toNat →
    exec (.ldf a d) s = .next (s.raiseFault .loadOrder (0x03#8 ++ a))) ∧
  ∀ (s : State) (a : Byte) (d : Word64), s.phase ≠ .empty → s.phase ≠ .load → s.phase ≠ .error →
    exec (.ldf a d) s = .next (s.raiseFault .phaseViolation (0x03#8 ++ a))

/-- R102: RDF answers ST[a].freq in every phase but LOAD and ERROR, and writes nothing; after reset
that is 0 for every symbol. -/
def Obligations.RdfReadsFrequency : Prop :=
  Spells 0x11 (fun _ d => d == 0) (fun a _ => .rdf a) ∧
  (∀ (s : State) (a : Byte), s.phase ≠ .load → s.phase ≠ .error →
    exec (.rdf a) s = .next { s with rsp := some (.val (s.entry a).freq) }) ∧
  (∀ a : Byte, exec (.rdf a) State.reset = .next { State.reset with rsp := some (.val 0) }) ∧
  (∀ (s : State) (a : Byte), s.phase = .load →
    exec (.rdf a) s = .next (s.raiseFault .phaseViolation (0x11#8 ++ a))) ∧
  ∀ (s : State) (a : Byte), s.phase = .error →
    exec (.rdf a) s = .next { s with rsp := some (.ref s.fault) }

/-! ## Tree Builder -/

/-- R120: BLD completes in EMPTY, COUNT and TABLE; it writes NODE and PHASE and nothing else, and what
it writes to NODE is what 255 merges of the rule's loop make from the frequencies, W being {510}. -/
def Obligations.BldBuildsTree : Prop :=
  Spells 0x04 (fun a d => a == 0 && d == 0) (fun _ _ => .bld) ∧
  (∀ s : State, s.phase = .empty ∨ s.phase = .count ∨ s.phase = .table →
    ∃ t, exec .bld s = .next t ∧ Merged (frequencies s.st) 255 {510} t.node ∧
      t = { s with node := t.node, phase := .tree, rsp := some .ack }) ∧
  ∀ s : State, s.phase ≠ .empty → s.phase ≠ .count → s.phase ≠ .table → s.phase ≠ .error →
    exec .bld s = .next (s.raiseFault .phaseViolation 0x0400)

/-- The loop of R120 has one result: by R122 the order of keys is total, so a build has no freedom. -/
def Obligations.MergesAreDeterministic : Prop :=
  ∀ (fs : List Word64) (k : Nat) (W W' : Finset NodeIndex) (m m' : NodeMemory), fs.length = 256 →
    Merged fs k W m → Merged fs k W' m' → W = W' ∧ m = m'

/-- R28, R29, R126 (c) and (d): the built memory is a tree of 256 leaves and 255 internal nodes. -/
def Obligations.BuiltTreeIsWellFormed : Prop :=
  ∀ fs : List Word64, fs.length = 256 → WellBuilt (buildTree fs)

/-- R124: a leaf's weight is its frequency, an internal node's the exact sum of its children's, and
the root's the sum of all 256 frequencies. -/
def Obligations.WeightsAreExactSums : Prop :=
  ∀ fs : List Word64, fs.length = 256 →
    (∀ (a : Byte) (f : Word64), fs[a.toNat]? = some f →
      weightAt (buildTree fs) (leafIndex a) = some f.toNat) ∧
    (∀ (n l r : NodeIndex) (w : Weight), readNode (buildTree fs) n = .ok (.internal l r w) →
      ∃ wl wr, weightAt (buildTree fs) l = some wl ∧ weightAt (buildTree fs) r = some wr ∧
        w.toNat = wl + wr) ∧
    weightAt (buildTree fs) Config.root = some (fs.map BitVec.toNat).sum

/-- R123: at every internal node the key of `left` is below the key of `right`. -/
def Obligations.LeftChildHasSmallerKey : Prop :=
  ∀ (fs : List Word64) (n l r : NodeIndex) (w : Weight), fs.length = 256 →
    readNode (buildTree fs) n = .ok (.internal l r w) → KeyBefore (buildTree fs) l r

/-- R126 (a): merge weights never decrease. -/
def Obligations.MergeWeightsNeverDecrease : Prop :=
  ∀ (fs : List Word64) (k : Nat), fs.length = 256 → k < 254 →
    ∃ v w, weightAt (buildTree fs) (BitVec.ofNat 9 (256 + k)) = some v ∧
      weightAt (buildTree fs) (BitVec.ofNat 9 (256 + k + 1)) = some w ∧ v ≤ w

/-- R127: with all frequencies equal to `f` the tree is perfect: node 256 + j has the children 2j and
2j + 1 and the weight 2f, 4f, ... up to 256 f, and the path to leaf `i` spells the 8 bits of `i`. -/
def Obligations.EqualFrequenciesGivePerfectTree : Prop :=
  ∀ f : Word64,
    (∀ j : Nat, j < 255 →
      ∃ w, readNode (buildTree (List.replicate 256 f)) (BitVec.ofNat 9 (256 + j)) =
          .ok (.internal (BitVec.ofNat 9 (2 * j)) (BitVec.ofNat 9 (2 * j + 1)) w) ∧
        w.toNat = f.toNat * 2 ^ (8 - Nat.log2 (255 - j))) ∧
    ∀ a : Byte, followPath (buildTree (List.replicate 256 f)) Config.root (byteBits a) = .ok (leafIndex a)

/-- R128: with one non-zero frequency `f`, of symbol `x`, the root is Internal(left = 509, right = x,
weight = f) and node 509 has weight 0; so `x` gets the code "1" and every other symbol a code that
starts with 0. -/
def Obligations.SingleSymbolGetsCodeOne : Prop :=
  ∀ (x : Byte) (f : Word64), f ≠ 0 →
    readNode (buildTree ((List.replicate 256 0).set x.toNat f)) Config.root =
        .ok (.internal 509 (leafIndex x) (f.setWidth 72)) ∧
    weightAt (buildTree ((List.replicate 256 0).set x.toNat f)) 509 = some 0 ∧
    ∀ s : State, s.phase = .tree → s.node = buildTree ((List.replicate 256 0).set x.toNat f) →
      ∃ t, exec .asg s = .next t ∧
        (t.entry x).code = [true] ∧ (t.entry x).len = 1 ∧ ∀ b, b ≠ x → (t.entry b).code.head? = some false

/-- R125: in two sessions that hold the same 256 frequencies, whatever else they hold, BLD and then ASG
complete, with identical node memories after BLD and identical codes after ASG. -/
def Obligations.SameFrequenciesSameCodes : Prop :=
  ∀ s s' : State, frequencies s.st = frequencies s'.st →
    s.phase = .empty ∨ s.phase = .count ∨ s.phase = .table →
    s'.phase = .empty ∨ s'.phase = .count ∨ s'.phase = .table →
    ∃ t t' u u', exec .bld s = .next t ∧ exec .bld s' = .next t' ∧ exec .asg t = .next u ∧
      exec .asg t' = .next u' ∧ t.node = t'.node ∧ u.node = u'.node ∧ u.st = u'.st

/-! ## Code Assigner -/

/-- R140, R142: ASG completes in TREE on every built tree; it writes the 256 codes and lengths and
PHASE and nothing else, and the code of a symbol is the path from the root to its leaf. -/
def Obligations.AsgAssignsPaths : Prop :=
  Spells 0x05 (fun a d => a == 0 && d == 0) (fun _ _ => .asg) ∧
  (∀ s : State, s.phase = .tree → WellBuilt s.node →
    ∃ t, exec .asg s = .next t ∧
      (∀ a, followPath s.node Config.root (t.entry a).code = .ok (leafIndex a) ∧
        (t.entry a).len.toNat = (t.entry a).code.length ∧ (t.entry a).freq = (s.entry a).freq) ∧
      t = { s with st := t.st, phase := .codes, rsp := some .ack }) ∧
  ∀ s : State, s.phase ≠ .tree → s.phase ≠ .error →
    exec .asg s = .next (s.raiseFault .phaseViolation 0x0500)

/-- R144 (a): after ASG every length is 1 to 255. -/
def Obligations.CodeLengthsInRange : Prop :=
  ∀ s t : State, s.phase = .tree → WellBuilt s.node → exec .asg s = .next t →
    ∀ a, 1 ≤ (t.entry a).len.toNat ∧ (t.entry a).len.toNat ≤ 255 ∧
      (t.entry a).code.length = (t.entry a).len.toNat

/-- R144 (b): after ASG no symbol's code is a prefix of another symbol's code. -/
def Obligations.CodesArePrefixFree : Prop :=
  ∀ s t : State, s.phase = .tree → WellBuilt s.node → exec .asg s = .next t →
    ∀ a b, a ≠ b → ¬ (t.entry a).code <+: (t.entry b).code

/-- R144 (c): after ASG the code is complete: the sum of 2^(-len) is 1 (times 2^255 here), and every
infinite bit sequence has exactly one code as a prefix. -/
def Obligations.CodeIsComplete : Prop :=
  ∀ s t : State, s.phase = .tree → WellBuilt s.node → exec .asg s = .next t →
    (allSymbols.map fun a => 2 ^ (255 - (t.entry a).len.toNat)).sum = 2 ^ 255 ∧
    ∀ f : Nat → Bool, ∃! a, (t.entry a).code = (List.range (t.entry a).len.toNat).map f

/-- R144 (d): where the tree is that of the frequencies, ASG completes and a symbol of greater frequency
never gets a longer code. -/
def Obligations.GreaterFrequencyHasNoLongerCode : Prop :=
  ∀ s : State, s.phase = .tree → s.node = buildTree (frequencies s.st) →
    ∃ t, exec .asg s = .next t ∧
      ∀ a b, (s.entry a).freq.toNat < (s.entry b).freq.toNat → (t.entry b).len.toNat ≤ (t.entry a).len.toNat

/-- R143: RDL answers ST[a].len in every phase but ERROR, and writes nothing. Before ASG that is 0;
after ASG it is 1 to 255 (both under the invariant). -/
def Obligations.RdlReadsLength : Prop :=
  Spells 0x12 (fun _ d => d == 0) (fun a _ => .rdl a) ∧
  (∀ (s : State) (a : Byte), s.phase ≠ .error →
    exec (.rdl a) s = .next { s with rsp := some (.val ((s.entry a).len.setWidth 64)) }) ∧
  (∀ (s : State) (a : Byte), s.Inv → s.phase.unbuilt ∨ s.phase = .tree →
    exec (.rdl a) s = .next { s with rsp := some (.val 0) }) ∧
  (∀ (s : State) (a : Byte), s.Inv → s.phase.coded →
    ∃ v, exec (.rdl a) s = .next { s with rsp := some (.val v) } ∧ 1 ≤ v.toNat ∧ v.toNat ≤ 255) ∧
  ∀ (s : State) (a : Byte), s.phase = .error →
    exec (.rdl a) s = .next { s with rsp := some (.ref s.fault) }

/-- R145: RDC answers the chosen 64 bits of the code's value in every phase but ERROR, and writes
nothing; `v` is the sum over `i` of `c[i] * 2^(L-1-i)` (R10). Before ASG every chunk is 0 (under the
invariant). -/
def Obligations.RdcReadsChunk : Prop :=
  Spells 0x13 (fun _ d => decide (d ≤ 3)) (fun a d => .rdc a d) ∧
  (∀ (s : State) (a : Byte) (d : Word64), d ≤ 3 → s.phase ≠ .error → (s.entry a).code.length ≤ 255 →
    ∃ v, exec (.rdc a d) s = .next { s with rsp := some (.val v) } ∧
      v.toNat = (((List.range (s.entry a).code.length).map fun i =>
        ((s.entry a).code.getD i false).toNat * 2 ^ ((s.entry a).code.length - 1 - i)).sum
          / 2 ^ (64 * d.toNat)) % 2 ^ 64) ∧
  (∀ (s : State) (a : Byte) (d : Word64), s.Inv → s.phase.unbuilt ∨ s.phase = .tree → d ≤ 3 →
    exec (.rdc a d) s = .next { s with rsp := some (.val 0) }) ∧
  ∀ (s : State) (a : Byte) (d : Word64), s.phase = .error →
    exec (.rdc a d) s = .next { s with rsp := some (.ref s.fault) }

/-! ## Bit Packer -/

/-- R160, R162: PKB completes in CODES and PACK; the code's bits go to the end of the stream of bits
given so far, as many bytes are delivered as have become complete, and nothing else but INCNT and
PHASE changes. -/
def Obligations.PkbAppendsCode : Prop :=
  Spells 0x06 (fun _ d => d == 0) (fun a _ => .pkb a) ∧
  (∀ (s : State) (a : Byte), s.phase = .codes ∨ s.phase = .pack →
    (s.entry a).code.length = (s.entry a).len.toNat → s.acc.toNat < 2 ^ s.cnt.toNat →
    ∃ t bytes, exec (.pkb a) s = .next t ∧
      packedBits t = packedBits s ++ (s.entry a).code ∧ t.acc.toNat < 2 ^ t.cnt.toNat ∧
      bytes.length ≤ 32 ∧
      t = { s with
        out := s.out ++ bytes, outcnt := s.outcnt + BitVec.ofNat 64 bytes.length, acc := t.acc,
        cnt := t.cnt, incnt := s.incnt + 1, phase := .pack, rsp := some .ack }) ∧
  ∀ (s : State) (a : Byte), s.phase ≠ .codes → s.phase ≠ .pack → s.phase ≠ .error →
    exec (.pkb a) s = .next (s.raiseFault .phaseViolation (0x06#8 ++ a))

/-- R161: PKF completes in CODES and PACK; a partial byte is padded on the right with zeros and
emitted, an empty buffer emits nothing. -/
def Obligations.PkfFlushes : Prop :=
  Spells 0x07 (fun a d => a == 0 && d == 0) (fun _ _ => .pkf) ∧
  (∀ s : State, s.phase = .codes ∨ s.phase = .pack → s.cnt = 0 →
    exec .pkf s = .next { s with phase := .packed, rsp := some .ack }) ∧
  (∀ s : State, s.phase = .codes ∨ s.phase = .pack → s.cnt ≠ 0 →
    exec .pkf s = .next { s with
      out := s.out ++ [BitVec.ofNat 8 (s.acc.toNat * 2 ^ (8 - s.cnt.toNat))], outcnt := s.outcnt + 1,
      acc := 0, cnt := 0, phase := .packed, rsp := some .ack }) ∧
  ∀ s : State, s.phase ≠ .codes → s.phase ≠ .pack → s.phase ≠ .error →
    exec .pkf s = .next (s.raiseFault .phaseViolation 0x0700)

/-- R164: what the pack path delivers. From CODES, packing `bs` gives the codes' bits, in the bytes of OUT
and in the buffer; flushing gives the bytes of those bits and up to 7 zero bits of padding, with OUTCNT
and INCNT counting. -/
def Obligations.PackPathDelivers : Prop :=
  ∀ (s : State) (bs : List Byte), s.Inv → s.phase = .codes →
    ∃ u t, issueAll (bs.map .pkb) s = .ok u ∧ packedBits u = codesOf s bs ∧
      u.acc.toNat < 2 ^ u.cnt.toNat ∧ issueAll [.pkf] u = .ok t ∧
      t.out.flatMap byteBits =
        codesOf s bs ++ List.replicate ((8 - (codesOf s bs).length % 8) % 8) false ∧
      t.outcnt = BitVec.ofNat 64 (((codesOf s bs).length + 7) / 8) ∧
      t.incnt = BitVec.ofNat 64 bs.length ∧ t.phase = .packed

/-! ## Bit Unpacker -/

/-- R181: UEX completes in TREE and CODES. -/
def Obligations.UexStartsUnpacking : Prop :=
  Spells 0x08 (fun a _ => a == 0) (fun _ d => .uex d) ∧
  (∀ (s : State) (d : Word64), s.phase = .tree ∨ s.phase = .codes →
    exec (.uex d) s = .next { s with
      size := d, emit := 0, tp := 510, ust := .atRoot, phase := if d = 0 then .done else .unpack,
      rsp := some .ack }) ∧
  ∀ (s : State) (d : Word64), s.phase ≠ .tree → s.phase ≠ .codes → s.phase ≠ .error →
    exec (.uex d) s = .next (s.raiseFault .phaseViolation 0x0800)

/-- R184, R183: UPB completes in UNPACK on every built tree with the pointer at an internal node: it
emits the symbols that the byte's bits spell, at most SIZE - EMIT of them, and moves TP, UST, EMIT,
INCNT and PHASE; in DONE it changes nothing. -/
def Obligations.UpbEmitsSpelledSymbols : Prop :=
  Spells 0x09 (fun _ d => d == 0) (fun a _ => .upb a) ∧
  (∀ (s : State) (a : Byte), s.phase = .done → exec (.upb a) s = .next { s with rsp := some .ack }) ∧
  (∀ (s : State) (a : Byte), s.phase = .unpack → WellBuilt s.node → 256 ≤ s.tp → s.tp ≤ 510 →
    (s.ust = .atRoot ↔ s.tp = 510) →
    ∃ t syms n, exec (.upb a) s = .next t ∧
      spelled s.node s.tp (s.size - s.emit).toNat (byteBits a) = some (syms, n) ∧ syms.length ≤ 8 ∧
      t = { s with
        out := s.out ++ syms, outcnt := s.outcnt + BitVec.ofNat 64 syms.length,
        emit := s.emit + BitVec.ofNat 64 syms.length, tp := n,
        ust := if n = 510 then .atRoot else .descending, incnt := s.incnt + 1,
        phase := if s.emit + BitVec.ofNat 64 syms.length = s.size then .done else .unpack,
        rsp := some .ack }) ∧
  ∀ (s : State) (a : Byte), s.phase ≠ .unpack → s.phase ≠ .done → s.phase ≠ .error →
    exec (.upb a) s = .next (s.raiseFault .phaseViolation (0x09#8 ++ a))

/-- R185: UEND raises FormatTruncated in UNPACK and changes nothing in DONE. -/
def Obligations.UendReportsTruncation : Prop :=
  Spells 0x0A (fun a d => a == 0 && d == 0) (fun _ _ => .uend) ∧
  (∀ s : State, s.phase = .done → exec .uend s = .next { s with rsp := some .ack }) ∧
  (∀ s : State, s.phase = .unpack → exec .uend s = .next (s.raiseFault .formatTruncated 0x0A00)) ∧
  ∀ s : State, s.phase ≠ .unpack → s.phase ≠ .done → s.phase ≠ .error →
    exec .uend s = .next (s.raiseFault .phaseViolation 0x0A00)

/-- R187: the round trip. Bytes packed by one session are recovered by another that holds the same
frequencies: every command is answered without a fault, UEND with ACK, and OUT is the bytes. -/
def Obligations.RoundTripRecoversBytes : Prop :=
  ∀ (s s' : State) (bs : List Byte), s.Inv → s.phase = .codes → s'.Inv →
    s'.phase = .tree ∨ s'.phase = .codes → frequencies s'.st = frequencies s.st → bs.length < 2 ^ 64 →
    ∃ t u v, issueAll (pseudoPack bs) s = .ok t ∧
      issueAll (.uex (BitVec.ofNat 64 bs.length) :: t.out.map .upb) s' = .ok u ∧ u.phase = .done ∧
      issueAll [.uend] u = .ok v ∧ v.rsp = some .ack ∧ v.out = bs ∧ v.phase = .done

/-- R189: truncation is always caught. If at least one byte is cut from the end of the packed stream
of at least one byte of data, the session is still in UNPACK when the bytes run out, and UEND raises
FormatTruncated. -/
def Obligations.TruncationIsCaught : Prop :=
  ∀ (s s' t : State) (bs : List Byte) (k : Nat), s.Inv → s.phase = .codes → s'.Inv →
    s'.phase = .tree ∨ s'.phase = .codes → frequencies s'.st = frequencies s.st →
    0 < bs.length → bs.length < 2 ^ 64 → issueAll (pseudoPack bs) s = .ok t → k < t.out.length →
    ∃ u, issueAll (.uex (BitVec.ofNat 64 bs.length) :: (t.out.take k).map .upb) s' = .ok u ∧
      u.phase = .unpack ∧ u.emit.toNat < bs.length ∧
      exec .uend u = .next (u.raiseFault .formatTruncated 0x0A00)

/-! ## The whole machine -/

/-- The invariant holds after reset. -/
def Obligations.ResetMeetsInvariant : Prop := State.reset.Inv

/-- Every step keeps the invariant. -/
def Obligations.StepKeepsInvariant : Prop :=
  ∀ s t : State, s.Inv → step s = .next t → t.Inv

/-- R26: under the invariant no step stops: no node cell without a value is ever read, and every
command word in every such state has an outcome. -/
def Obligations.InvariantNeverStops : Prop :=
  ∀ s : State, s.Inv → ∃ t, step s = .next t

/-- R104: once BLD has run no step changes a frequency, except by CLR or reset. -/
def Obligations.FrequenciesFixedAfterBuild : Prop :=
  ∀ s t : State, s.phase.built → step s = .next t →
    frequencies t.st = frequencies s.st ∨ t = { State.reset with inbox := t.inbox, rsp := t.rsp }

/-- R29: no step changes NODE, except BLD (which leaves PHASE at TREE) and CLR or reset; in the phases
after a build only CLR or reset does. -/
def Obligations.TreeIsNeverMutated : Prop :=
  ∀ s t : State, step s = .next t → t.node ≠ s.node →
    (s.phase.unbuilt ∧ t.phase = .tree) ∨ t = { State.reset with inbox := t.inbox, rsp := t.rsp }

/-- R66: the four read commands change nothing but the response, in whatever phase and whatever the
answer, unless the answer is a fault. -/
def Obligations.ReadsChangeNothing : Prop :=
  ∀ (i : Instr) (s t : State),
    (∃ a, i = .rdr a) ∨ (∃ a, i = .rdf a) ∨ (∃ a, i = .rdl a) ∨ (∃ a d, i = .rdc a d) →
    exec i s = .next t → t = { s with rsp := t.rsp } ∨ ∃ c info, t = s.raiseFault c info

/-- R40, R70: bytes are only ever appended to OUT and OUTCNT counts them, except by CLR or reset. -/
def Obligations.OutputOnlyGrows : Prop :=
  ∀ s t : State, step s = .next t →
    (∃ bytes, t.out = s.out ++ bytes ∧ t.outcnt = s.outcnt + BitVec.ofNat 64 bytes.length) ∨
    t = { State.reset with inbox := t.inbox, rsp := t.rsp }

/-- R246: a session's output is valid only if the session's last phase is PACKED or DONE. It is then all
that OUT holds there, which begins with what the session had delivered before. Once a session has been in
ERROR, whatever inputs follow, it has no valid output. -/
def Obligations.OutputValidOnlyWhenFinished : Prop :=
  (∀ (s : State) (bytes : List Byte), sessionOutput s = some bytes →
    ∃ t, sessionLast s = .next t ∧ (t.phase = .packed ∨ t.phase = .done) ∧ t.out = bytes ∧ s.out <+: bytes) ∧
  ∀ (s t : State) (n : Nat), runSession n s = .next t → t.phase = .error → sessionOutput s = none

/-- R221 (a session's output is valid exactly when its last phase is PACKED or DONE) with R187 and R189,
for sessions driven by `step`: a session that packs and flushes has a valid output; from it a session
with the same frequencies has the bytes as its valid output; and from the output cut short it has none. -/
def Obligations.WholeStreamsGiveValidOutput : Prop :=
  ∀ (s s' : State) (bs : List Byte), s.Inv → s.phase = .codes → s'.Inv →
    s'.phase = .tree ∨ s'.phase = .codes → frequencies s'.st = frequencies s.st → bs.length < 2 ^ 64 →
    ∃ packed, sessionOutput { s with inbox := inputsOf (pseudoPack bs) } = some packed ∧
      sessionOutput { s' with inbox := inputsOf (pseudoUnpack (BitVec.ofNat 64 bs.length) packed) } = some bs ∧
      ∀ k, k < packed.length →
        sessionOutput
          { s' with inbox := inputsOf (pseudoUnpack (BitVec.ofNat 64 bs.length) (packed.take k)) } = none

/-- Where the machine stops, each in a state that the invariant rules out (log 5, 6, 7): a code
shorter than its length, a node that does not exist, has no value or is no internal node, and a path
longer than the code storage. -/
def Obligations.StopsOutsideInvariant : Prop :=
  (∀ (s : State) (a : Byte), s.phase = .codes ∨ s.phase = .pack →
    (s.entry a).code.length < (s.entry a).len.toNat → exec (.pkb a) s = .fault .codeBitMissing) ∧
  (∀ (s : State) (a : Byte), s.phase = .unpack → s.emit ≠ s.size → s.tp = 511 →
    exec (.upb a) s = .fault .nodeDoesNotExist) ∧
  (∀ (s : State) (a sym : Byte) (w : Weight), s.phase = .unpack → s.emit ≠ s.size →
    readNode s.node s.tp = .ok (.leaf sym w) → exec (.upb a) s = .fault .nodeNotInternal) ∧
  (∀ s : State, s.phase = .tree → readNode s.node 510 = .error .nodeWithoutValue →
    exec .asg s = .fault .nodeWithoutValue) ∧
  ∀ (s : State) (r : NodeIndex) (w : Weight), s.phase = .tree →
    readNode s.node 510 = .ok (.internal 510 r w) → exec .asg s = .fault .codeTooLong

/-! ## Container Format and host procedures -/

/-- R202: a written header has HLEN bytes with the fields at their offsets (R201); a name that is too
long or has a 0x00 in it is refused. -/
def Obligations.HeaderLayout : Prop :=
  (∀ (P : HdrParams) (h : Header), P.n2 < h.name.length ∨ 0 ∈ h.name →
    writeHeader P h = .error .nameInvalid) ∧
  ∀ (P : HdrParams) (h : Header), headerValid P h →
    ∃ bs, writeHeader P h = .ok bs ∧ bs.length = P.hlen ∧ fieldAt bs 0 P.n1 = P.sig ∧
      fieldAt bs P.n1 P.n2 = h.name ++ List.replicate (P.n2 - h.name.length) 0 ∧
      leValue (fieldAt bs (P.n1 + P.n2) 8) = h.size.toNat ∧
      ∀ (i : Nat) (f : Word64), h.freqs[i]? = some f →
        leValue (fieldAt bs (P.n1 + P.n2 + 8 + 8 * i) 8) = f.toNat

/-- R203: what reading a header gives, the two errors among it. -/
def Obligations.ReadHeaderParses : Prop :=
  ∀ (P : HdrParams) (bs : List Byte),
    (bs.length < P.hlen → readHeader P bs = .error .headerTruncated) ∧
    (P.hlen ≤ bs.length → bs.take P.n1 ≠ P.sig → readHeader P bs = .error .noSignature) ∧
    (P.hlen ≤ bs.length → bs.take P.n1 = P.sig →
      ∃ h, readHeader P bs = .ok h ∧
        h.name <+: fieldAt bs P.n1 P.n2 ∧ 0 ∉ h.name ∧
        (h.name.length < P.n2 → (fieldAt bs P.n1 P.n2)[h.name.length]? = some 0) ∧
        h.size.toNat = leValue (fieldAt bs (P.n1 + P.n2) 8) ∧ h.freqs.length = 256 ∧
        ∀ (i : Nat) (f : Word64), h.freqs[i]? = some f →
          f.toNat = leValue (fieldAt bs (P.n1 + P.n2 + 8 + 8 * i) 8))

/-- R205: header self-consistency, also with the packed bytes behind the header. -/
def Obligations.HeaderRoundTrip : Prop :=
  ∀ (P : HdrParams) (h : Header) (rest : List Byte), headerValid P h →
    ∃ bs, writeHeader P h = .ok bs ∧ readHeader P (bs ++ rest) = .ok h ∧ isCompressed P (bs ++ rest)

/-- R208: the end-to-end round trip, for every input, name and instance of the header parameters, from
any two states of the block. -/
def Obligations.DecompressInvertsCompress : Prop :=
  ∀ (P : HdrParams) (input name : List Byte) (s s' : State), input.length < 2 ^ 64 →
    name.length ≤ P.n2 → name.contains 0 = false →
    ∃ c d, compress P input name s = .ok c ∧ decompress P c.file s' = .ok d ∧
      d.name = name ∧ d.data = input

/-- R210: the equality check is equality. -/
def Obligations.EqualBytesIsEquality : Prop :=
  ∀ A B : List Byte, equalBytes A B = true ↔ A = B
end

