-- ==== Sys2Proof/Laws/State.lean ====
section
/-! SUPPORT. One lemma per field per named update of State, each true by rfl: a proof about a field
after an update cites these through simp and never unfolds the update. -/

namespace Sys2Proof.Machine

variable (s : State)

/-! ## `State.answer` -/

@[simp] theorem answer_st (r : Response) : (s.answer r).st = s.st := rfl
@[simp] theorem answer_node (r : Response) : (s.answer r).node = s.node := rfl
@[simp] theorem answer_phase (r : Response) : (s.answer r).phase = s.phase := rfl
@[simp] theorem answer_fault (r : Response) : (s.answer r).fault = s.fault := rfl
@[simp] theorem answer_finfo (r : Response) : (s.answer r).finfo = s.finfo := rfl
@[simp] theorem answer_size (r : Response) : (s.answer r).size = s.size := rfl
@[simp] theorem answer_incnt (r : Response) : (s.answer r).incnt = s.incnt := rfl
@[simp] theorem answer_outcnt (r : Response) : (s.answer r).outcnt = s.outcnt := rfl
@[simp] theorem answer_emit (r : Response) : (s.answer r).emit = s.emit := rfl
@[simp] theorem answer_ldx (r : Response) : (s.answer r).ldx = s.ldx := rfl
@[simp] theorem answer_tp (r : Response) : (s.answer r).tp = s.tp := rfl
@[simp] theorem answer_ust (r : Response) : (s.answer r).ust = s.ust := rfl
@[simp] theorem answer_acc (r : Response) : (s.answer r).acc = s.acc := rfl
@[simp] theorem answer_cnt (r : Response) : (s.answer r).cnt = s.cnt := rfl
@[simp] theorem answer_out (r : Response) : (s.answer r).out = s.out := rfl
@[simp] theorem answer_inbox (r : Response) : (s.answer r).inbox = s.inbox := rfl
@[simp] theorem answer_rsp (r : Response) : (s.answer r).rsp = some r := rfl

/-! ## `State.emitByte` -/

@[simp] theorem emitByte_st (b : Byte) : (s.emitByte b).st = s.st := rfl
@[simp] theorem emitByte_node (b : Byte) : (s.emitByte b).node = s.node := rfl
@[simp] theorem emitByte_phase (b : Byte) : (s.emitByte b).phase = s.phase := rfl
@[simp] theorem emitByte_fault (b : Byte) : (s.emitByte b).fault = s.fault := rfl
@[simp] theorem emitByte_finfo (b : Byte) : (s.emitByte b).finfo = s.finfo := rfl
@[simp] theorem emitByte_size (b : Byte) : (s.emitByte b).size = s.size := rfl
@[simp] theorem emitByte_incnt (b : Byte) : (s.emitByte b).incnt = s.incnt := rfl
@[simp] theorem emitByte_outcnt (b : Byte) : (s.emitByte b).outcnt = s.outcnt + 1 := rfl
@[simp] theorem emitByte_emit (b : Byte) : (s.emitByte b).emit = s.emit := rfl
@[simp] theorem emitByte_ldx (b : Byte) : (s.emitByte b).ldx = s.ldx := rfl
@[simp] theorem emitByte_tp (b : Byte) : (s.emitByte b).tp = s.tp := rfl
@[simp] theorem emitByte_ust (b : Byte) : (s.emitByte b).ust = s.ust := rfl
@[simp] theorem emitByte_acc (b : Byte) : (s.emitByte b).acc = s.acc := rfl
@[simp] theorem emitByte_cnt (b : Byte) : (s.emitByte b).cnt = s.cnt := rfl
@[simp] theorem emitByte_out (b : Byte) : (s.emitByte b).out = s.out ++ [b] := rfl
@[simp] theorem emitByte_inbox (b : Byte) : (s.emitByte b).inbox = s.inbox := rfl
@[simp] theorem emitByte_rsp (b : Byte) : (s.emitByte b).rsp = s.rsp := rfl

/-! ## `State.raiseFault` -/

@[simp] theorem raiseFault_st (c : FaultCode) (info : BitVec 16) : (s.raiseFault c info).st = s.st := rfl
@[simp] theorem raiseFault_node (c : FaultCode) (info : BitVec 16) : (s.raiseFault c info).node = s.node := rfl
@[simp] theorem raiseFault_phase (c : FaultCode) (info : BitVec 16) : (s.raiseFault c info).phase = .error := rfl
@[simp] theorem raiseFault_fault (c : FaultCode) (info : BitVec 16) : (s.raiseFault c info).fault = c := rfl
@[simp] theorem raiseFault_finfo (c : FaultCode) (info : BitVec 16) : (s.raiseFault c info).finfo = info := rfl
@[simp] theorem raiseFault_size (c : FaultCode) (info : BitVec 16) : (s.raiseFault c info).size = s.size := rfl
@[simp] theorem raiseFault_incnt (c : FaultCode) (info : BitVec 16) : (s.raiseFault c info).incnt = s.incnt := rfl
@[simp] theorem raiseFault_outcnt (c : FaultCode) (info : BitVec 16) : (s.raiseFault c info).outcnt = s.outcnt := rfl
@[simp] theorem raiseFault_emit (c : FaultCode) (info : BitVec 16) : (s.raiseFault c info).emit = s.emit := rfl
@[simp] theorem raiseFault_ldx (c : FaultCode) (info : BitVec 16) : (s.raiseFault c info).ldx = s.ldx := rfl
@[simp] theorem raiseFault_tp (c : FaultCode) (info : BitVec 16) : (s.raiseFault c info).tp = s.tp := rfl
@[simp] theorem raiseFault_ust (c : FaultCode) (info : BitVec 16) : (s.raiseFault c info).ust = s.ust := rfl
@[simp] theorem raiseFault_acc (c : FaultCode) (info : BitVec 16) : (s.raiseFault c info).acc = s.acc := rfl
@[simp] theorem raiseFault_cnt (c : FaultCode) (info : BitVec 16) : (s.raiseFault c info).cnt = s.cnt := rfl
@[simp] theorem raiseFault_out (c : FaultCode) (info : BitVec 16) : (s.raiseFault c info).out = s.out := rfl
@[simp] theorem raiseFault_inbox (c : FaultCode) (info : BitVec 16) : (s.raiseFault c info).inbox = s.inbox := rfl
@[simp] theorem raiseFault_rsp (c : FaultCode) (info : BitVec 16) : (s.raiseFault c info).rsp = some (.flt c) := rfl

/-! ## `State.refuse` -/

@[simp] theorem refuse_st : (s.refuse).st = s.st := rfl
@[simp] theorem refuse_node : (s.refuse).node = s.node := rfl
@[simp] theorem refuse_phase : (s.refuse).phase = s.phase := rfl
@[simp] theorem refuse_fault : (s.refuse).fault = s.fault := rfl
@[simp] theorem refuse_finfo : (s.refuse).finfo = s.finfo := rfl
@[simp] theorem refuse_size : (s.refuse).size = s.size := rfl
@[simp] theorem refuse_incnt : (s.refuse).incnt = s.incnt := rfl
@[simp] theorem refuse_outcnt : (s.refuse).outcnt = s.outcnt := rfl
@[simp] theorem refuse_emit : (s.refuse).emit = s.emit := rfl
@[simp] theorem refuse_ldx : (s.refuse).ldx = s.ldx := rfl
@[simp] theorem refuse_tp : (s.refuse).tp = s.tp := rfl
@[simp] theorem refuse_ust : (s.refuse).ust = s.ust := rfl
@[simp] theorem refuse_acc : (s.refuse).acc = s.acc := rfl
@[simp] theorem refuse_cnt : (s.refuse).cnt = s.cnt := rfl
@[simp] theorem refuse_out : (s.refuse).out = s.out := rfl
@[simp] theorem refuse_inbox : (s.refuse).inbox = s.inbox := rfl
@[simp] theorem refuse_rsp : (s.refuse).rsp = some (.ref s.fault) := rfl

/-! ## `State.setEntry` -/

@[simp] theorem setEntry_st (a : Byte) (e : SymbolEntry) : (s.setEntry a e).st = tableSet s.st (symbolIndex a) e := rfl
@[simp] theorem setEntry_node (a : Byte) (e : SymbolEntry) : (s.setEntry a e).node = s.node := rfl
@[simp] theorem setEntry_phase (a : Byte) (e : SymbolEntry) : (s.setEntry a e).phase = s.phase := rfl
@[simp] theorem setEntry_fault (a : Byte) (e : SymbolEntry) : (s.setEntry a e).fault = s.fault := rfl
@[simp] theorem setEntry_finfo (a : Byte) (e : SymbolEntry) : (s.setEntry a e).finfo = s.finfo := rfl
@[simp] theorem setEntry_size (a : Byte) (e : SymbolEntry) : (s.setEntry a e).size = s.size := rfl
@[simp] theorem setEntry_incnt (a : Byte) (e : SymbolEntry) : (s.setEntry a e).incnt = s.incnt := rfl
@[simp] theorem setEntry_outcnt (a : Byte) (e : SymbolEntry) : (s.setEntry a e).outcnt = s.outcnt := rfl
@[simp] theorem setEntry_emit (a : Byte) (e : SymbolEntry) : (s.setEntry a e).emit = s.emit := rfl
@[simp] theorem setEntry_ldx (a : Byte) (e : SymbolEntry) : (s.setEntry a e).ldx = s.ldx := rfl
@[simp] theorem setEntry_tp (a : Byte) (e : SymbolEntry) : (s.setEntry a e).tp = s.tp := rfl
@[simp] theorem setEntry_ust (a : Byte) (e : SymbolEntry) : (s.setEntry a e).ust = s.ust := rfl
@[simp] theorem setEntry_acc (a : Byte) (e : SymbolEntry) : (s.setEntry a e).acc = s.acc := rfl
@[simp] theorem setEntry_cnt (a : Byte) (e : SymbolEntry) : (s.setEntry a e).cnt = s.cnt := rfl
@[simp] theorem setEntry_out (a : Byte) (e : SymbolEntry) : (s.setEntry a e).out = s.out := rfl
@[simp] theorem setEntry_inbox (a : Byte) (e : SymbolEntry) : (s.setEntry a e).inbox = s.inbox := rfl
@[simp] theorem setEntry_rsp (a : Byte) (e : SymbolEntry) : (s.setEntry a e).rsp = s.rsp := rfl

/-! ## `State.given` -/

@[simp] theorem given_st (x : HostInput) : (s.given x).st = s.st := rfl
@[simp] theorem given_node (x : HostInput) : (s.given x).node = s.node := rfl
@[simp] theorem given_phase (x : HostInput) : (s.given x).phase = s.phase := rfl
@[simp] theorem given_fault (x : HostInput) : (s.given x).fault = s.fault := rfl
@[simp] theorem given_finfo (x : HostInput) : (s.given x).finfo = s.finfo := rfl
@[simp] theorem given_size (x : HostInput) : (s.given x).size = s.size := rfl
@[simp] theorem given_incnt (x : HostInput) : (s.given x).incnt = s.incnt := rfl
@[simp] theorem given_outcnt (x : HostInput) : (s.given x).outcnt = s.outcnt := rfl
@[simp] theorem given_emit (x : HostInput) : (s.given x).emit = s.emit := rfl
@[simp] theorem given_ldx (x : HostInput) : (s.given x).ldx = s.ldx := rfl
@[simp] theorem given_tp (x : HostInput) : (s.given x).tp = s.tp := rfl
@[simp] theorem given_ust (x : HostInput) : (s.given x).ust = s.ust := rfl
@[simp] theorem given_acc (x : HostInput) : (s.given x).acc = s.acc := rfl
@[simp] theorem given_cnt (x : HostInput) : (s.given x).cnt = s.cnt := rfl
@[simp] theorem given_out (x : HostInput) : (s.given x).out = s.out := rfl
@[simp] theorem given_inbox (x : HostInput) : (s.given x).inbox = x :: s.inbox := rfl
@[simp] theorem given_rsp (x : HostInput) : (s.given x).rsp = s.rsp := rfl

/-! ## Reset -/

theorem clear_eq : s.clear = { State.reset with inbox := s.inbox, rsp := s.rsp } := rfl

theorem takeReset_eq : s.takeReset = { State.reset with inbox := s.inbox } := rfl

end Sys2Proof.Machine
end

