-- ==== Sys2Proof/Laws/Table.lean ====
section
/-! SUPPORT. Reads and writes of tables, of the Symbol Table and of the node memory: a read after a
write to the same cell gives the value written, and a write leaves every other cell alone. -/

namespace Sys2Proof.Machine

/-! ## Tables -/

section Tables
variable {α : Type} {n : Nat}

@[simp] theorem tableGet_tableSet (t : Table α n) (i j : Fin n) (x : α) :
    tableGet (tableSet t i x) j = if i = j then x else tableGet t j := by
  simp [tableGet, tableSet, List.getElem_set, Fin.ext_iff]

@[simp] theorem tableGet_tableFill (x : α) (i : Fin n) : tableGet (tableFill n x) i = x := by
  simp [tableGet, tableFill]

@[simp] theorem tableGet_tableOf (f : Nat → α) (i : Fin n) : tableGet (tableOf n f) i = f i.val := by
  simp [tableGet, tableOf]

theorem table_ext {t u : Table α n} (h : ∀ i, tableGet t i = tableGet u i) : t = u := by
  obtain ⟨a, ha⟩ := t
  obtain ⟨b, hb⟩ := u
  have : a = b := by
    apply List.ext_getElem (by omega)
    intro i h1 h2
    exact h ⟨i, by omega⟩
  subst this
  rfl

end Tables

/-! ## The Symbol Table -/

theorem symbolIndex_inj {a b : Byte} : symbolIndex a = symbolIndex b ↔ a = b := by
  simp [symbolIndex, Fin.ext_iff, BitVec.toNat_inj]

@[simp] theorem entry_setEntry (s : State) (a b : Byte) (e : SymbolEntry) :
    (s.setEntry a e).entry b = if b = a then e else s.entry b := by
  simp [State.entry, State.setEntry, symbolIndex_inj, eq_comm]

/-- Two Symbol Tables with the same entries are equal. -/
theorem st_ext {t u : SymbolTable} (h : ∀ a : Byte, tableGet t (symbolIndex a) = tableGet u (symbolIndex a)) :
    t = u := by
  apply table_ext
  intro i
  have := h (BitVec.ofNat 8 i.val)
  have hi : symbolIndex (BitVec.ofNat 8 i.val) = i := by
    apply Fin.ext
    simp [symbolIndex]
  rwa [hi] at this

theorem frequencies_length (st : SymbolTable) : (frequencies st).length = 256 := by
  simp [frequencies, st.size_eq]

/-- The frequency list at a symbol is the entry's frequency. -/
theorem frequencies_get (st : SymbolTable) (a : Byte) :
    (frequencies st)[a.toNat]? = some (tableGet st (symbolIndex a)).freq := by
  have h : a.toNat < st.cells.length := by rw [st.size_eq]; exact a.isLt
  simp [frequencies, tableGet, symbolIndex, h]

/-- Two tables have the same frequency lists exactly when every symbol has the same frequency. -/
theorem frequencies_eq_iff {t u : SymbolTable} :
    frequencies t = frequencies u ↔
      ∀ a, (tableGet t (symbolIndex a)).freq = (tableGet u (symbolIndex a)).freq := by
  constructor
  · intro h a
    have := frequencies_get t a
    rw [h, frequencies_get] at this
    exact (Option.some.inj this).symm
  · intro h
    apply List.ext_getElem?
    intro i
    by_cases hi : i < 256
    · have e : (BitVec.ofNat 8 i).toNat = i := by simp; omega
      have h1 := frequencies_get t (BitVec.ofNat 8 i)
      have h2 := frequencies_get u (BitVec.ofNat 8 i)
      rw [e] at h1 h2
      rw [h1, h2, h]
    · rw [List.getElem?_eq_none, List.getElem?_eq_none] <;> rw [frequencies_length] <;> omega

/-! ## The node memory -/

/-- The node memory holds `x` in cell `n`. -/
theorem readNode_ok_iff {m : NodeMemory} {n : NodeIndex} {x : Node} :
    readNode m n = .ok x ↔ ∃ h : n.toNat < 511, tableGet m ⟨n.toNat, h⟩ = some x := by
  unfold readNode
  split
  · next h =>
    split
    · next y hy => simp [h, hy]
    · next hy => simp [h, hy]
  · next h => simp [h]

/-- A write of a node cell is read back, and every other cell reads as before. -/
theorem readNode_writeNode {m : NodeMemory} {k : Nat} {n : NodeIndex} {x : Node} (hk : k < 511) :
    readNode (writeNode m k x) n = if n.toNat = k then .ok x else readNode m n := by
  unfold readNode writeNode
  simp only [hk, dite_true, tableGet_tableSet, Fin.ext_iff]
  by_cases h : n.toNat = k
  · subst h
    simp [hk]
  · have h' : ¬ k = n.toNat := fun e => h e.symm
    simp [h, h']

/-- Two node memories that read the same in every cell are equal. -/
theorem node_ext {m m' : NodeMemory} (h : ∀ n : NodeIndex, n.toNat < 511 → readNode m n = readNode m' n) :
    m = m' := by
  apply table_ext
  intro i
  have hlt : (BitVec.ofNat 9 i.val).toNat = i.val := by
    have := i.isLt
    simp
    omega
  have := h (BitVec.ofNat 9 i.val) (by rw [hlt]; exact i.isLt)
  have hi : (⟨(BitVec.ofNat 9 i.val).toNat, by rw [hlt]; exact i.isLt⟩ : Fin 511) = i := Fin.ext hlt
  have hd : (BitVec.ofNat 9 i.val).toNat < 511 := by rw [hlt]; exact i.isLt
  unfold readNode at this
  rw [dif_pos hd, dif_pos hd, hi] at this
  generalize tableGet m i = x at this ⊢
  generalize tableGet m' i = y at this ⊢
  cases x <;> cases y <;> simp_all

end Sys2Proof.Machine
end

