-- ==== Sys2Proof/Laws/Ops.lean ====
section
/-! SUPPORT. What the shared operations and the step can do, said once: the checks before a command's
rule, the outcome of a rule, and the cases of one step. Proofs cite these and do not unfold
`guarded` or `step`. -/

namespace Sys2Proof.Machine

/-! ## The checks before a command's rule (30_encoding.md R86) -/

theorem admission_of_legal {i : Instr} {p : Phase} (hp : p ≠ .error) (hw : i.wellFormed = true)
    (hl : legalIn i p = true) : admission i p = .runs := by
  simp [admission, hp, hw, hl]

theorem admission_of_illegal {i : Instr} {p : Phase} (hp : p ≠ .error) (hw : i.wellFormed = true)
    (hl : legalIn i p = false) : admission i p = .raises .phaseViolation := by
  simp [admission, hp, hw, hl]

theorem admission_error {i : Instr} : admission i .error = if runsInError i then .runs else .refused := by
  simp [admission]

/-- Outside ERROR a well-formed command that the phase table allows runs its rule. -/
theorem guarded_legal {i : Instr} {body : State → Result} {s : State} (hp : s.phase ≠ .error)
    (hw : i.wellFormed = true) (hl : legalIn i s.phase = true) : guarded i body s = body s := by
  simp [guarded, admission_of_legal hp hw hl]

/-- Outside ERROR a well-formed command that the phase table does not allow raises PhaseViolation. -/
theorem guarded_illegal {i : Instr} {body : State → Result} {s : State} (hp : s.phase ≠ .error)
    (hw : i.wellFormed = true) (hl : legalIn i s.phase = false) :
    guarded i body s = .next (s.raiseFault .phaseViolation (finfoOf i)) := by
  simp [guarded, admission_of_illegal hp hw hl]

/-- In ERROR a command other than CLR and RDR is refused. -/
theorem guarded_error {i : Instr} {body : State → Result} {s : State} (hp : s.phase = .error)
    (hr : runsInError i = false) : guarded i body s = .next s.refuse := by
  simp [guarded, hp, admission_error, hr]

/-- In ERROR CLR and RDR run their rule. -/
theorem guarded_error_runs {i : Instr} {body : State → Result} {s : State} (hp : s.phase = .error)
    (hr : runsInError i = true) : guarded i body s = body s := by
  simp [guarded, hp, admission_error, hr]

/-- A command that answers a next state has run its rule where the checks let it, or has been refused
in ERROR, or has raised IllegalOperand or PhaseViolation. -/
theorem guarded_next_cases {i : Instr} {body : State → Result} {s t : State}
    (h : guarded i body s = .next t) :
    (admission i s.phase = .runs ∧ body s = .next t) ∨ (s.phase = .error ∧ t = s.refuse) ∨
      (s.phase ≠ .error ∧ ∃ c, c ≠ .none ∧ t = s.raiseFault c (finfoOf i)) := by
  unfold guarded at h
  split at h
  · next ha => exact .inl ⟨ha, h⟩
  · next ha =>
    refine .inr (.inl ⟨?_, by injection h with h; exact h.symm⟩)
    by_contra hp
    simp only [admission, hp, if_false] at ha
    split at ha <;> (try split at ha) <;> cases ha
  · next c ha =>
    have hc : s.phase ≠ .error ∧ c ≠ .none := by
      constructor
      · intro hp
        rw [hp, admission_error] at ha
        split at ha <;> cases ha
      · rintro rfl
        unfold admission at ha
        repeat' split at ha
        all_goals cases ha
    exact .inr (.inr ⟨hc.1, c, hc.2, by injection h with h; exact h.symm⟩)

/-- Where a command's rule runs outside ERROR, its operands are in range and the table allows it. -/
theorem admission_runs_iff {i : Instr} {p : Phase} :
    admission i p = .runs ↔
      (p = .error ∧ runsInError i = true) ∨ (p ≠ .error ∧ i.wellFormed = true ∧ legalIn i p = true) := by
  by_cases hp : p = .error
  · subst hp
    simp [admission_error]
  · cases hw : i.wellFormed <;> cases hl : legalIn i p <;> simp [admission, hp, hw, hl]

/-! ## The outcome of a rule -/

@[simp] theorem finish_next_iff {r : Except Fault State} {t : State} : finish r = .next t ↔ r = .ok t := by
  cases r <;> simp [finish]

@[simp] theorem finish_fault_iff {r : Except Fault State} {f : Fault} : finish r = .fault f ↔ r = .error f := by
  cases r <;> simp [finish]

theorem map_ok_iff {α β ε : Type} {r : Except ε α} {f : α → β} {y : β} :
    r.map f = .ok y ↔ ∃ x, r = .ok x ∧ f x = y := by
  cases r <;> simp [Except.map]

/-! ## The step -/

@[simp] theorem step_command (s : State) (w : CommandWord) :
    step (s.given (.command w)) =
      match decode w with
      | .ok i => exec i s
      | .error e => .next (rejectWord e w s) := rfl

@[simp] theorem step_resetInput (s : State) : step (s.given .reset) = .next s.takeReset := rfl

/-- What one step can do: wait, take a reset, run a decoded command, or reject a word. -/
theorem step_cases {s t : State} (h : step s = .next t) :
    (s.inbox = [] ∧ t = s) ∨
      ∃ s1 x, s = s1.given x ∧
        ((x = .reset ∧ t = s1.takeReset) ∨
          ∃ w, x = .command w ∧
            ((∃ i, decode w = .ok i ∧ exec i s1 = .next t) ∨
              ∃ e, decode w = .error e ∧ t = rejectWord e w s1)) := by
  cases hs : s.inbox with
  | nil =>
    refine .inl ⟨rfl, ?_⟩
    simp only [step, fetch, hs] at h
    injection h with h
    exact h.symm
  | cons x rest =>
    have hgiven : s = ({ s with inbox := rest } : State).given x := by
      cases s
      simp only at hs
      subst hs
      rfl
    refine .inr ⟨_, x, hgiven, ?_⟩
    rw [hgiven] at h
    cases x with
    | reset =>
      rw [step_resetInput] at h
      injection h with h
      exact .inl ⟨rfl, h.symm⟩
    | command w =>
      rw [step_command] at h
      refine .inr ⟨w, rfl, ?_⟩
      cases hd : decode w with
      | ok i => exact .inl ⟨i, rfl, by simpa [hd] using h⟩
      | error e =>
        refine .inr ⟨e, rfl, ?_⟩
        simp only [hd] at h
        injection h with h
        exact h.symm

/-- A rejected word is refused in ERROR and raises a fault elsewhere. -/
theorem rejectWord_cases (e : DecodeError) (w : CommandWord) (s : State) :
    (s.phase = .error ∧ rejectWord e w s = s.refuse) ∨
      (s.phase ≠ .error ∧ ∃ c, c ≠ .none ∧ rejectWord e w s = s.raiseFault c (wordInfo w)) := by
  by_cases hp : s.phase = .error
  · exact .inl ⟨hp, by simp [rejectWord, hp]⟩
  · exact .inr ⟨hp, decodeFault e, by cases e <;> simp [decodeFault], by simp [rejectWord, hp]⟩

end Sys2Proof.Machine
end

