-- ==== Sys2Proof/Laws/Builder.lean ====
section
/-! SUPPORT. What one merge of the Tree Builder does (41_tree_builder.md R120 to R123): the order of
keys, the extraction of the least key, and the effect of `mergeOnce`. -/

namespace Sys2Proof.Machine

/-! ## The order of keys (R122) -/

theorem keyLess_iff {a b : Key} :
    keyLess a b = true ↔
      a.weight.toNat < b.weight.toNat ∨ (a.weight.toNat = b.weight.toNat ∧ a.index.toNat < b.index.toNat) := by
  simp [keyLess, Nat.blt_eq, Nat.beq_eq]

theorem keyLess_false_iff {a b : Key} :
    keyLess a b = false ↔
      b.weight.toNat < a.weight.toNat ∨ (b.weight.toNat = a.weight.toNat ∧ b.index.toNat ≤ a.index.toNat) := by
  rw [← Bool.not_eq_true, keyLess_iff]
  omega

/-- Of two nodes one comes before the other: the order is total on node indices. -/
theorem keyLess_of_not {a b : Key} (h : keyLess a b = false) (hi : a.index ≠ b.index) : keyLess b a = true := by
  rw [keyLess_false_iff] at h
  rw [keyLess_iff]
  have : a.index.toNat ≠ b.index.toNat := fun e => hi (BitVec.eq_of_toNat_eq e)
  omega

theorem keyLess_false_trans {a b c : Key} (h1 : keyLess b a = false) (h2 : keyLess c b = false) :
    keyLess c a = false := by
  rw [keyLess_false_iff] at *
  omega

/-! ## Extraction of the least key -/

/-- `splitLeast` permutes the keys, and no key is less than the one it puts first. -/
theorem splitLeast_spec (k : Key) (ks : List Key) :
    (k :: ks).Perm ((splitLeast k ks).1 :: (splitLeast k ks).2) ∧
      ∀ y ∈ k :: ks, keyLess y (splitLeast k ks).1 = false := by
  induction ks generalizing k with
  | nil =>
    refine ⟨List.Perm.refl _, ?_⟩
    intro y hy
    obtain rfl : y = k := by simpa using hy
    simp only [splitLeast]
    rw [keyLess_false_iff]
    omega
  | cons x xs ih =>
    cases hx : keyLess x k with
    | true =>
      obtain ⟨hp, hm⟩ := ih x
      simp only [splitLeast, hx]
      refine ⟨(hp.cons k).trans (List.Perm.swap _ _ _), ?_⟩
      intro y hy
      rcases List.mem_cons.1 hy with rfl | hy
      · refine keyLess_false_trans (hm x (by simp)) ?_
        rw [keyLess_iff] at hx
        rw [keyLess_false_iff]
        omega
      · exact hm y hy
    | false =>
      obtain ⟨hp, hm⟩ := ih k
      simp only [splitLeast, hx]
      refine ⟨((List.Perm.swap _ _ _).trans (hp.cons x)).trans (List.Perm.swap _ _ _), ?_⟩
      intro y hy
      rcases List.mem_cons.1 hy with rfl | hy
      · exact hm y (by simp)
      · rcases List.mem_cons.1 hy with rfl | hy
        · exact keyLess_false_trans (hm k (by simp)) hx
        · exact hm y (List.mem_cons_of_mem _ hy)

/-- `takeLeast` of a set that is not empty gives a key that no key is less than, and the others. -/
theorem takeLeast_some {w w1 : List Key} {k : Key} (h : takeLeast w = some (k, w1)) :
    w.Perm (k :: w1) ∧ ∀ y ∈ w, keyLess y k = false := by
  cases w with
  | nil => simp [takeLeast] at h
  | cons x xs =>
    have := splitLeast_spec x xs
    simp only [takeLeast, Option.some.injEq] at h
    rwa [h] at this

theorem takeLeast_none {w : List Key} : takeLeast w = none ↔ w = [] := by
  cases w <;> simp [takeLeast]

/-! ## One merge -/

/-- Where the working set has at least two nodes, a merge takes the two of least key, first `s`, then
`l`, and adds the node made of them. -/
theorem mergeOnce_spec {b : Build} (h : 2 ≤ b.work.length) :
    ∃ (s l : Key) (w2 : List Key),
      b.work.Perm (s :: l :: w2) ∧ (∀ y ∈ b.work, keyLess y s = false) ∧ (∀ y ∈ l :: w2, keyLess y l = false) ∧
      mergeOnce b =
        { work  := { weight := s.weight + l.weight, index := BitVec.ofNat 9 b.made } :: w2
          nodes := writeNode b.nodes b.made (.internal s.index l.index (s.weight + l.weight))
          made  := b.made + 1 } := by
  cases h1 : takeLeast b.work with
  | none =>
    rw [takeLeast_none] at h1
    simp [h1] at h
  | some p =>
    obtain ⟨s, w1⟩ := p
    obtain ⟨p1, m1⟩ := takeLeast_some h1
    cases h2 : takeLeast w1 with
    | none =>
      rw [takeLeast_none] at h2
      have := p1.length_eq
      simp [h2] at this
      omega
    | some q =>
      obtain ⟨l, w2⟩ := q
      obtain ⟨p2, m2⟩ := takeLeast_some h2
      refine ⟨s, l, w2, p1.trans (p2.cons s), m1, fun y hy => m2 y (p2.mem_iff.2 hy), ?_⟩
      simp [mergeOnce, h1, h2]

/-- `n + 1` merges are `n` merges and one more. -/
theorem mergeMany_succ (n : Nat) (b : Build) : mergeMany (n + 1) b = mergeOnce (mergeMany n b) := by
  induction n generalizing b with
  | zero => rfl
  | succ n ih =>
    rw [mergeMany, ih (mergeOnce b)]
    rfl

/-! ## What holds at every point of a build -/

/-- An internal node of the build: both children have a lower index, the left one the smaller key, and
the weight is the exact sum of theirs (R123, R124, R126). -/
def MadeNode (m : NodeMemory) (n : NodeIndex) : Prop :=
  ∃ l r w, readNode m n = .ok (.internal l r w) ∧ l < n ∧ r < n ∧ KeyBefore m l r ∧
    ∃ wl wr, weightAt m l = some wl ∧ weightAt m r = some wr ∧ w.toNat = wl + wr

/-- The build after `k` merges from the frequencies `fs`. -/
structure BuildInv (fs : List Word64) (k : Nat) (b : Build) : Prop where
  made : b.made = 256 + k
  count : b.work.length = 256 - k
  nodup : (b.work.map Key.index).Nodup
  bound : ∀ x ∈ b.work, x.index.toNat < 256 + k
  held : ∀ x ∈ b.work, weightAt b.nodes x.index = some x.weight.toNat
  leaves : ∀ a : Byte, ∀ f, fs[a.toNat]? = some f →
    readNode b.nodes (leafIndex a) = .ok (.leaf a (f.setWidth 72))
  inner : ∀ n : NodeIndex, 256 ≤ n.toNat → n.toNat < 256 + k → MadeNode b.nodes n
  blank : ∀ n : NodeIndex, 256 + k ≤ n.toNat → ∀ x, readNode b.nodes n ≠ .ok x
  total : (b.work.map fun x => x.weight.toNat).sum = (fs.map BitVec.toNat).sum
  free : ∀ x ∈ b.work, ∀ e c, childOf b.nodes e c ≠ .ok x.index
  owned : ∀ c : NodeIndex, c.toNat < 256 + k → (∀ x ∈ b.work, x.index ≠ c) →
    ∃! e : NodeIndex × Bool, childOf b.nodes e.1 e.2 = .ok c

end Sys2Proof.Machine
end

