-- ==== Sys2Proof/Laws/BuildInv.lean ====
section
/-! SUPPORT. `BuildInv` holds at the start of a build and every merge keeps it (41_tree_builder.md
R120 to R126). -/

namespace Sys2Proof.Machine

/-! ## Reading the node memory of a merge -/

theorem childOf_ok_iff {m : NodeMemory} {n c : NodeIndex} {b : Bool} :
    childOf m n b = .ok c ↔ ∃ l r w, readNode m n = .ok (.internal l r w) ∧ c = if b then r else l := by
  unfold childOf
  split
  · next f h => simp [h]
  · next h => simp [h]
  · next l r w h =>
    simp only [h, Except.ok.injEq, Node.internal.injEq]
    constructor
    · rintro rfl
      exact ⟨l, r, w, ⟨rfl, rfl, rfl⟩, rfl⟩
    · rintro ⟨_, _, _, ⟨rfl, rfl, rfl⟩, rfl⟩
      rfl

theorem weightAt_some_iff {m : NodeMemory} {n : NodeIndex} {v : Nat} :
    weightAt m n = some v ↔ ∃ x, readNode m n = .ok x ∧ x.weight.toNat = v := by
  unfold weightAt
  split
  · next x h => simp [h]
  · next f h => simp [h]

section Write
variable {m : NodeMemory} {k : Nat} {x : Node}

theorem weightAt_writeNode_ne (hk : k < 511) {n : NodeIndex} (h : n.toNat ≠ k) :
    weightAt (writeNode m k x) n = weightAt m n := by
  simp [weightAt, readNode_writeNode hk, h]

theorem weightAt_writeNode_eq (hk : k < 511) {n : NodeIndex} (h : n.toNat = k) :
    weightAt (writeNode m k x) n = some x.weight.toNat := by
  simp [weightAt, readNode_writeNode hk, h]

theorem childOf_writeNode_ne (hk : k < 511) {n : NodeIndex} (h : n.toNat ≠ k) (b : Bool) :
    childOf (writeNode m k x) n b = childOf m n b := by
  simp [childOf, readNode_writeNode hk, h]

theorem childOf_writeNode_eq (hk : k < 511) {n l r : NodeIndex} {w : Weight} (h : n.toNat = k) (b : Bool) :
    childOf (writeNode m k (.internal l r w)) n b = .ok (if b then r else l) := by
  simp [childOf, readNode_writeNode hk, h]

theorem keyBefore_writeNode (hk : k < 511) {a b : NodeIndex} (ha : a.toNat ≠ k) (hb : b.toNat ≠ k)
    (h : KeyBefore m a b) : KeyBefore (writeNode m k x) a b := by
  obtain ⟨wa, wb, h1, h2, h3⟩ := h
  exact ⟨wa, wb, by rw [weightAt_writeNode_ne hk ha, h1], by rw [weightAt_writeNode_ne hk hb, h2], h3⟩

/-- A node made before cell `k` is written stays as it is. -/
theorem madeNode_writeNode (hk : k < 511) {n : NodeIndex} (hn : n.toNat < k) (h : MadeNode m n) :
    MadeNode (writeNode m k x) n := by
  obtain ⟨l, r, w, h1, hl, hr, hb, wl, wr, hwl, hwr, hw⟩ := h
  have hl' : l.toNat ≠ k := by have : l.toNat < n.toNat := hl; omega
  have hr' : r.toNat ≠ k := by have : r.toNat < n.toNat := hr; omega
  refine ⟨l, r, w, ?_, hl, hr, keyBefore_writeNode hk hl' hr' hb, wl, wr, ?_, ?_, hw⟩
  · rw [readNode_writeNode hk, if_neg (by omega), h1]
  · rw [weightAt_writeNode_ne hk hl', hwl]
  · rw [weightAt_writeNode_ne hk hr', hwr]

end Write

/-! ## The start of a build -/

theorem startBuild_leaf {fs : List Word64} {a : Byte} {f : Word64} (h : fs[a.toNat]? = some f) :
    readNode (startBuild fs).nodes (leafIndex a) = .ok (.leaf a (f.setWidth 72)) := by
  have hlt := a.isLt
  have e : (leafIndex a).toNat = a.toNat := by simp [leafIndex]; omega
  rw [readNode_ok_iff]
  refine ⟨by omega, ?_⟩
  simp [startBuild, e, h, leafOf]

theorem sum_keys (fs : List Word64) (k : Nat) :
    ((fs.zipIdx k).map fun p => (leafKey p.2 p.1).weight.toNat).sum = (fs.map BitVec.toNat).sum := by
  induction fs generalizing k with
  | nil => rfl
  | cons f fs ih =>
    have : (leafKey k f).weight.toNat = f.toNat := by
      have := f.isLt
      simp [leafKey]
      omega
    simp [List.zipIdx_cons, ih, this]

theorem mem_startBuild_work {fs : List Word64} {x : Key} :
    x ∈ (startBuild fs).work ↔ ∃ i f, fs[i]? = some f ∧ x = leafKey i f := by
  simp only [startBuild, List.mem_map, Prod.exists]
  constructor
  · rintro ⟨f, i, hm, rfl⟩
    exact ⟨i, f, by simpa [List.mem_zipIdx_iff_getElem?] using hm, rfl⟩
  · rintro ⟨i, f, hi, rfl⟩
    exact ⟨f, i, by simpa [List.mem_zipIdx_iff_getElem?] using hi, rfl⟩

/-- After the leaves are placed no merge has been made. -/
theorem startBuild_inv {fs : List Word64} (hfs : fs.length = 256) : BuildInv fs 0 (startBuild fs) := by
  have hidx : ∀ x ∈ (startBuild fs).work, ∃ a : Byte, ∃ f, fs[a.toNat]? = some f ∧ x.index = leafIndex a ∧
      x.weight = f.setWidth 72 ∧ x.index.toNat = a.toNat := by
    intro x hx
    obtain ⟨i, f, hi, rfl⟩ := mem_startBuild_work.1 hx
    have hlt : i < 256 := by
      rw [← hfs]
      exact (List.getElem?_eq_some_iff.1 hi).1
    refine ⟨BitVec.ofNat 8 i, f, ?_, ?_, rfl, ?_⟩
    · have : (BitVec.ofNat 8 i).toNat = i := by simp; omega
      rw [this, hi]
    · apply BitVec.eq_of_toNat_eq
      simp [leafKey, leafIndex]
      omega
    · simp [leafKey]
      omega
  have hnone : ∀ n : NodeIndex, 256 ≤ n.toNat → ∀ x, readNode (startBuild fs).nodes n ≠ .ok x := by
    intro n hn x hx
    rw [readNode_ok_iff] at hx
    obtain ⟨h, hx⟩ := hx
    have hnone : fs[n.toNat]? = none := List.getElem?_eq_none (by omega)
    simp [startBuild, hnone] at hx
  have hnochild : ∀ e c d, childOf (startBuild fs).nodes e c ≠ .ok d := by
    intro e c d h
    obtain ⟨l, r, w, hr, -⟩ := childOf_ok_iff.1 h
    by_cases he : 256 ≤ e.toNat
    · exact hnone e he _ hr
    · have e1 : leafIndex (BitVec.ofNat 8 e.toNat) = e := by
        apply BitVec.eq_of_toNat_eq
        simp [leafIndex]
        omega
      have e2 : (BitVec.ofNat 8 e.toNat).toNat = e.toNat := by simp; omega
      have := startBuild_leaf (fs := fs) (a := BitVec.ofNat 8 e.toNat) (f := fs[e.toNat]'(by omega))
        (by rw [e2]; simp)
      rw [e1, hr] at this
      cases this
  constructor
  · rfl
  · simp [startBuild, hfs]
  · have : (startBuild fs).work.map Key.index = (List.range' 0 fs.length).map (BitVec.ofNat 9) := by
      rw [← List.zipIdx_map_snd]
      simp only [startBuild, List.map_map]
      rfl
    rw [this, hfs]
    refine List.Nodup.map_on ?_ (List.nodup_range' ..)
    intro x hx y hy hxy
    rw [List.mem_range'_1] at hx hy
    have := congrArg BitVec.toNat hxy
    simp at this
    omega
  · intro x hx
    obtain ⟨a, f, _, _, _, e⟩ := hidx x hx
    have := a.isLt
    omega
  · intro x hx
    obtain ⟨a, f, hf, hi, hw, _⟩ := hidx x hx
    rw [weightAt_some_iff]
    exact ⟨_, hi ▸ startBuild_leaf hf, by rw [hw]; rfl⟩
  · intro a f hf
    exact startBuild_leaf hf
  · intro n h1 h2
    omega
  · exact hnone
  · simp only [startBuild, List.map_map]
    exact sum_keys fs 0
  · intro x _ e c
    exact hnochild e c _
  · intro c hc hx
    exfalso
    refine hx (leafKey c.toNat (fs[c.toNat]'(by omega))) ?_ ?_
    · exact mem_startBuild_work.2 ⟨c.toNat, _, by simp, rfl⟩
    · simp [leafKey]

/-! ## One merge -/

theorem freq_sum_lt {fs : List Word64} (hfs : fs.length = 256) : (fs.map BitVec.toNat).sum < 2 ^ 72 := by
  have : ∀ l : List Word64, (l.map BitVec.toNat).sum ≤ l.length * (2 ^ 64 - 1) := by
    intro l
    induction l with
    | nil => simp
    | cons f l ih =>
      have := f.isLt
      simp only [List.map_cons, List.sum_cons, List.length_cons]
      omega
  have := this fs
  rw [hfs] at this
  omega

/-- Every merge keeps `BuildInv`. -/
theorem mergeOnce_inv {fs : List Word64} {k : Nat} {b : Build} (hfs : fs.length = 256) (hk : k < 255)
    (h : BuildInv fs k b) : BuildInv fs (k + 1) (mergeOnce b) := by
  obtain ⟨s, l, w2, hperm, hs, hl, heq⟩ := mergeOnce_spec (b := b) (by rw [h.count]; omega)
  have hmade := h.made
  have hK : b.made < 511 := by omega
  have hsW : s ∈ b.work := hperm.mem_iff.2 (by simp)
  have hlW : l ∈ b.work := hperm.mem_iff.2 (by simp)
  have hwW : ∀ x ∈ w2, x ∈ b.work := fun x hx => hperm.mem_iff.2 (by simp [hx])
  have hnd : ((s :: l :: w2).map Key.index).Nodup := (hperm.map Key.index).nodup_iff.1 h.nodup
  simp only [List.map_cons, List.nodup_cons, List.mem_cons, List.mem_map, not_or, not_exists, not_and] at hnd
  obtain ⟨⟨hsl, hs2⟩, hl2, hnd2⟩ := hnd
  have hsb := h.bound s hsW
  have hlb := h.bound l hlW
  have hnew : (BitVec.ofNat 9 b.made : NodeIndex).toNat = b.made := by simp; omega
  have htot : s.weight.toNat + (l.weight.toNat + (w2.map fun x => x.weight.toNat).sum) =
      (fs.map BitVec.toNat).sum := by
    rw [← h.total, (hperm.map fun x => x.weight.toNat).sum_eq]
    simp
  have hsum : (s.weight + l.weight).toNat = s.weight.toNat + l.weight.toNat := by
    have := freq_sum_lt hfs
    rw [BitVec.toNat_add, Nat.mod_eq_of_lt]
    omega
  have hbefore : KeyBefore b.nodes s.index l.index := by
    refine ⟨_, _, h.held s hsW, h.held l hlW, ?_⟩
    have := hs l hlW
    have := keyLess_of_not this (fun e => hsl e.symm)
    rw [keyLess_iff] at this
    exact this
  -- no node of the build is a child of the new one's cell, which was empty
  have hold : ∀ e c d, childOf b.nodes e c = .ok d → e.toNat ≠ b.made ∧ d.toNat < b.made := by
    intro e c d hc
    obtain ⟨l', r', w', hr, hd⟩ := childOf_ok_iff.1 hc
    have h1 : e.toNat < 256 + k := by
      by_contra hge
      exact h.blank e (by omega) _ hr
    have h2 : 256 ≤ e.toNat := by
      by_contra hlt
      have e1 : leafIndex (BitVec.ofNat 8 e.toNat) = e := by
        apply BitVec.eq_of_toNat_eq
        simp [leafIndex]
        omega
      have e2 : (BitVec.ofNat 8 e.toNat).toNat = e.toNat := by simp; omega
      have := h.leaves (BitVec.ofNat 8 e.toNat) (fs[e.toNat]'(by omega)) (by rw [e2]; simp)
      rw [e1, hr] at this
      cases this
    obtain ⟨l'', r'', w'', hr', hl', hr'', -⟩ := h.inner e h2 h1
    rw [hr] at hr'
    cases hr'
    have a1 : l'.toNat < e.toNat := hl'
    have a2 : r'.toNat < e.toNat := hr''
    refine ⟨by omega, ?_⟩
    rw [hd]
    split <;> omega
  rw [heq]
  constructor
  · simp only
    omega
  · have := hperm.length_eq
    have := h.count
    simp only [List.length_cons] at *
    omega
  · simp only [List.map_cons, List.nodup_cons, List.mem_map, not_exists, not_and]
    refine ⟨?_, hnd2⟩
    intro x hx he
    have := h.bound x (hwW x hx)
    rw [he, hnew] at this
    omega
  · intro x hx
    rcases List.mem_cons.1 hx with rfl | hx
    · simp only [hnew]
      omega
    · have := h.bound x (hwW x hx)
      omega
  · intro x hx
    rcases List.mem_cons.1 hx with rfl | hx
    · exact weightAt_writeNode_eq hK hnew
    · have := h.bound x (hwW x hx)
      rw [weightAt_writeNode_ne hK (by omega)]
      exact h.held x (hwW x hx)
  · intro a f hf
    have := a.isLt
    have e : (leafIndex a).toNat = a.toNat := by simp [leafIndex]; omega
    rw [readNode_writeNode hK, if_neg (by omega)]
    exact h.leaves a f hf
  · intro n h1 h2
    by_cases hn : n.toNat = b.made
    · refine ⟨s.index, l.index, s.weight + l.weight, ?_, ?_, ?_, ?_, s.weight.toNat, l.weight.toNat, ?_, ?_, hsum⟩
      · rw [readNode_writeNode hK, if_pos hn]
      · show s.index.toNat < n.toNat
        omega
      · show l.index.toNat < n.toNat
        omega
      · exact keyBefore_writeNode hK (by omega) (by omega) hbefore
      · rw [weightAt_writeNode_ne hK (by omega)]
        exact h.held s hsW
      · rw [weightAt_writeNode_ne hK (by omega)]
        exact h.held l hlW
    · exact madeNode_writeNode hK (by omega) (h.inner n h1 (by omega))
  · intro n hn x hx
    rw [readNode_writeNode hK, if_neg (by omega)] at hx
    exact h.blank n (by omega) x hx
  · simp only [List.map_cons, List.sum_cons, hsum]
    omega
  · intro x hx e c hc
    by_cases he : e.toNat = b.made
    · rw [childOf_writeNode_eq hK he] at hc
      injection hc with hc
      rcases List.mem_cons.1 hx with rfl | hx
      · have : (if c = true then l.index else s.index).toNat = b.made := by rw [hc, hnew]
        split at this <;> omega
      · split at hc
        · exact hl2 x hx hc.symm
        · exact hs2 x hx hc.symm
    · rw [childOf_writeNode_ne hK he] at hc
      rcases List.mem_cons.1 hx with rfl | hx
      · have := (hold e c _ hc).2
        simp only [hnew] at this
        omega
      · exact h.free x (hwW x hx) e c hc
  · intro c hc hx
    have hcn : c.toNat ≠ b.made := by
      intro e
      exact hx _ (List.mem_cons_self ..) (BitVec.eq_of_toNat_eq (by rw [hnew, e]))
    have hc2 : ∀ x ∈ w2, x.index ≠ c := fun x hx' => hx x (List.mem_cons_of_mem _ hx')
    by_cases hcs : c = s.index ∨ c = l.index
    · refine ⟨(BitVec.ofNat 9 b.made, decide (c = l.index)), ?_, ?_⟩
      · show childOf _ _ _ = _
        rw [childOf_writeNode_eq hK hnew]
        rcases hcs with rfl | rfl
        · simp [hsl]
        · simp
      · rintro ⟨e, d⟩ hed
        simp only at hed
        by_cases he : e.toNat = b.made
        · rw [childOf_writeNode_eq hK he] at hed
          injection hed with hed
          have he' : e = BitVec.ofNat 9 b.made := BitVec.eq_of_toNat_eq (by rw [hnew, he])
          subst he'
          congr 1
          cases d
          · have : s.index = c := by simpa using hed
            have : ¬ c = l.index := fun e => hsl (e ▸ this)
            simp [this]
          · have : l.index = c := by simpa using hed
            simp [this]
        · rw [childOf_writeNode_ne hK he] at hed
          rcases hcs with rfl | rfl
          · exact absurd hed (h.free s hsW e d)
          · exact absurd hed (h.free l hlW e d)
    · have hcw : ∀ x ∈ b.work, x.index ≠ c := by
        intro x hx' he
        rcases List.mem_cons.1 (hperm.mem_iff.1 hx') with rfl | hx'
        · exact hcs (.inl he.symm)
        · rcases List.mem_cons.1 hx' with rfl | hx'
          · exact hcs (.inr he.symm)
          · exact hc2 x hx' he
      obtain ⟨⟨e, d⟩, he, hu⟩ := h.owned c (by omega) hcw
      simp only at he
      refine ⟨(e, d), ?_, ?_⟩
      · show childOf _ _ _ = _
        rw [childOf_writeNode_ne hK (hold e d c he).1]
        exact he
      · rintro ⟨e', d'⟩ hed
        simp only at hed
        by_cases he' : e'.toNat = b.made
        · rw [childOf_writeNode_eq hK he'] at hed
          injection hed with hed
          exfalso
          apply hcs
          split at hed
          · exact .inr hed.symm
          · exact .inl hed.symm
        · rw [childOf_writeNode_ne hK he'] at hed
          exact hu (e', d') hed

/-- After `k` merges from 256 frequencies. -/
theorem mergeMany_inv {fs : List Word64} (hfs : fs.length = 256) :
    ∀ k, k ≤ 255 → BuildInv fs k (mergeMany k (startBuild fs))
  | 0, _ => startBuild_inv hfs
  | k + 1, hk => by
    rw [mergeMany_succ]
    exact mergeOnce_inv hfs (by omega) (mergeMany_inv hfs k (by omega))

/-- The build complete: W holds the root alone. -/
theorem build_final {fs : List Word64} (hfs : fs.length = 256) :
    ∃ w, (mergeMany 255 (startBuild fs)).work = [{ weight := w, index := Config.root }] ∧
      w.toNat = (fs.map BitVec.toNat).sum := by
  have h := mergeMany_inv hfs 255 (by omega)
  have hc := h.count
  obtain ⟨x, hx⟩ := List.length_eq_one_iff.1 hc
  have hxi : x.index = Config.root := by
    by_contra hne
    have hroot : (Config.root).toNat = 510 := rfl
    have hb := h.bound x (by rw [hx]; simp)
    obtain ⟨⟨e, d⟩, he, -⟩ := h.owned Config.root (by omega) (by
      intro y hy
      rw [hx] at hy
      obtain rfl : y = x := by simpa using hy
      exact hne)
    simp only at he
    obtain ⟨l, r, w, hr, hd⟩ := childOf_ok_iff.1 he
    have h1 : e.toNat < 511 := by
      by_contra hge
      exact h.blank e (by omega) _ hr
    have h2 : 256 ≤ e.toNat := by
      by_contra hlt
      have e1 : leafIndex (BitVec.ofNat 8 e.toNat) = e := by
        apply BitVec.eq_of_toNat_eq
        simp [leafIndex]
        omega
      have e2 : (BitVec.ofNat 8 e.toNat).toNat = e.toNat := by simp; omega
      have := h.leaves (BitVec.ofNat 8 e.toNat) (fs[e.toNat]'(by omega)) (by rw [e2]; simp)
      rw [e1, hr] at this
      cases this
    obtain ⟨l', r', w', hr', hl', hr'', -⟩ := h.inner e h2 (by omega)
    rw [hr] at hr'
    cases hr'
    have a1 : l.toNat < e.toNat := hl'
    have a2 : r.toNat < e.toNat := hr''
    have : (if d = true then r else l).toNat = 510 := by rw [← hd]; rfl
    split at this <;> omega
  refine ⟨x.weight, ?_, ?_⟩
  · rw [hx, ← hxi]
  · have := h.total
    rw [hx] at this
    simpa using this

end Sys2Proof.Machine
end

