-- ==== Sys2Proof/Laws/Decode.lean ====
section
/-! SUPPORT. The fields of a command word: a word is made of its three fields, and the fields of a
word that was made are the ones it was made of (30_encoding.md R81). -/

namespace Sys2Proof

/-- A word as a number (R81). -/
theorem toNat_makeWord (op a : Byte) (d : Word64) :
    (makeWord op a d).toNat = op.toNat * 2 ^ 72 + a.toNat * 2 ^ 64 + d.toNat := by
  have ha := a.isLt
  have hd := d.isLt
  have h : (makeWord op a d).toNat = (op.toNat <<< 8 ||| a.toNat) <<< 64 ||| d.toNat := by
    unfold makeWord
    rw [BitVec.toNat_append, BitVec.toNat_append]
  rw [h, ← Nat.shiftLeft_add_eq_or_of_lt ha, ← Nat.shiftLeft_add_eq_or_of_lt hd, Nat.shiftLeft_eq, Nat.shiftLeft_eq]
  omega

theorem toNat_wordOp (w : CommandWord) : (wordOp w).toNat = w.toNat / 2 ^ 72 := by
  have := w.isLt
  simp only [wordOp, BitVec.extractLsb'_toNat, Nat.shiftRight_eq_div_pow]
  omega

theorem toNat_wordA (w : CommandWord) : (wordA w).toNat = w.toNat / 2 ^ 64 % 2 ^ 8 := by
  simp only [wordA, BitVec.extractLsb'_toNat, Nat.shiftRight_eq_div_pow]

theorem toNat_wordD (w : CommandWord) : (wordD w).toNat = w.toNat % 2 ^ 64 := by
  simp only [wordD, BitVec.extractLsb'_toNat, Nat.shiftRight_eq_div_pow, Nat.pow_zero, Nat.div_one]

@[simp] theorem wordOp_makeWord (op a : Byte) (d : Word64) : wordOp (makeWord op a d) = op := by
  have := a.isLt; have := d.isLt
  apply BitVec.eq_of_toNat_eq
  rw [toNat_wordOp, toNat_makeWord]
  omega

@[simp] theorem wordA_makeWord (op a : Byte) (d : Word64) : wordA (makeWord op a d) = a := by
  have := a.isLt; have := d.isLt
  apply BitVec.eq_of_toNat_eq
  rw [toNat_wordA, toNat_makeWord]
  omega

@[simp] theorem wordD_makeWord (op a : Byte) (d : Word64) : wordD (makeWord op a d) = d := by
  have := d.isLt
  apply BitVec.eq_of_toNat_eq
  rw [toNat_wordD, toNat_makeWord]
  omega

theorem makeWord_fields (w : CommandWord) : makeWord (wordOp w) (wordA w) (wordD w) = w := by
  apply BitVec.eq_of_toNat_eq
  rw [toNat_makeWord, toNat_wordOp, toNat_wordA, toNat_wordD]
  omega

@[simp] theorem wordOp_encode (i : Instr) : wordOp (encode i) = i.opcode := by simp [encode]

@[simp] theorem wordA_encode (i : Instr) : wordA (encode i) = i.fieldA := by simp [encode]

@[simp] theorem wordD_encode (i : Instr) : wordD (encode i) = i.fieldD := by simp [encode]

/-- Two words with the same three fields are equal. -/
theorem word_ext {v w : CommandWord} (ho : wordOp v = wordOp w) (ha : wordA v = wordA w) (hd : wordD v = wordD w) :
    v = w := by
  rw [← makeWord_fields v, ← makeWord_fields w, ho, ha, hd]

end Sys2Proof
end

