-- ==== Sys2Proof/Laws/Host.lean ====
section
/-! SUPPORT. Driving the block one command at a time, and the bytes of the header (45_container.md):
a command whose word decodes to it and which answers without a fault is issued, commands are issued
one after the other, and the little-endian integers read back as they were written. -/

namespace Sys2Proof.Machine

/-! ## Issuing commands -/

/-- A command that answers ACK or VAL is issued, and the block goes on from its next state. -/
theorem issue_next {i : Instr} {s t : State} {r : Response} (hd : decode (encode i) = .ok i)
    (h : exec i s = .next t) (hr : t.rsp = some r) (h1 : ∀ c, r ≠ .flt c) (h2 : ∀ c, r ≠ .ref c) :
    issue i s = .ok (r, t) := by
  have hs : step { s with inbox := .command (encode i) :: s.inbox } = .next t := by
    have h3 := step_command s (encode i)
    rw [hd] at h3
    exact h3.trans h
  unfold issue
  rw [hs]
  cases r with
  | ack => simp only [hr]
  | val v => simp only [hr]
  | flt c => exact absurd rfl (h1 c)
  | ref c => exact absurd rfl (h2 c)

/-- A command that is issued has run. -/
theorem exec_of_issue {i : Instr} {s t : State} {r : Response} (hd : decode (encode i) = .ok i)
    (h : issue i s = .ok (r, t)) : exec i s = .next t := by
  have hs : step { s with inbox := .command (encode i) :: s.inbox } = exec i s := by
    have h3 := step_command s (encode i)
    rw [hd] at h3
    exact h3
  unfold issue at h
  rw [hs] at h
  cases hx : exec i s with
  | next u =>
    simp only [hx] at h
    rcases hr : u.rsp with _ | (_ | _ | _ | _) <;> simp_all
  | fault f => simp [hx] at h
  | refused f => simp [hx] at h

/-- Commands issued to the end begin with the first of them. -/
theorem issueAll_cons_ok {i : Instr} {is : List Instr} {s t : State} (h : issueAll (i :: is) s = .ok t) :
    ∃ r u, issue i s = .ok (r, u) ∧ issueAll is u = .ok t := by
  simp only [issueAll] at h
  cases hi : issue i s with
  | ok x => exact ⟨x.1, x.2, rfl, by simpa only [hi] using h⟩
  | error e => simp [hi] at h

theorem issueAll_cons {i : Instr} {is : List Instr} {s t : State} {r : Response} (h : issue i s = .ok (r, t)) :
    issueAll (i :: is) s = issueAll is t := by
  simp only [issueAll, h]

theorem issueAll_append (is js : List Instr) (s : State) :
    issueAll (is ++ js) s = (issueAll is s).bind (issueAll js) := by
  induction is generalizing s with
  | nil => rfl
  | cons i is ih =>
    simp only [List.cons_append, issueAll]
    cases issue i s with
    | ok x => exact ih _
    | error e => rfl

theorem issueReads_cons {i : Instr} {is : List Instr} {s t : State} {r : Response} (h : issue i s = .ok (r, t)) :
    issueReads (i :: is) s = (issueReads is t).map fun p => (r.res :: p.1, p.2) := by
  simp only [issueReads, h]
  cases issueReads is t <;> rfl

/-! ## Sessions and their output -/

/-- A valid output is OUT in phase PACKED or DONE (R246). -/
theorem validOutput_eq_some {s : State} {bytes : List Byte} :
    s.validOutput = some bytes ↔ (s.phase = .packed ∨ s.phase = .done) ∧ s.out = bytes := by
  unfold State.validOutput
  cases s.phase <;> simp [Phase.outputValid]

theorem validOutput_eq_none {s : State} :
    s.validOutput = none ↔ s.phase ≠ .packed ∧ s.phase ≠ .done := by
  unfold State.validOutput
  cases s.phase <;> simp [Phase.outputValid]

/-- What the host takes is a valid output. -/
theorem takeOutput_ok_iff {s : State} {bytes : List Byte} :
    takeOutput s = .ok bytes ↔ s.validOutput = some bytes := by
  unfold takeOutput
  cases s.validOutput <;> simp

theorem endsSession_command {w : CommandWord} {i : Instr} (h : decode w = .ok i) :
    endsSession (.command w) = decide (i = .clr) := by
  simp only [endsSession, h]

theorem endsSession_reject {w : CommandWord} {e : DecodeError} (h : decode w = .error e) :
    endsSession (.command w) = false := by
  simp only [endsSession, h]

/-- A session with no input waiting stays where it is. -/
theorem runSession_nil {s : State} (h : s.inbox = []) (n : Nat) : runSession n s = .next s := by
  cases n <;> simp [runSession, h]

/-- An input that ends the session is not taken by it. -/
theorem runSession_ends {s : State} {x : HostInput} (h : endsSession x = true) (n : Nat) :
    runSession n (s.given x) = .next (s.given x) := by
  cases n <;> simp [runSession, State.given, h]

/-- Any other input is taken by one step. -/
theorem runSession_given {s t : State} {x : HostInput} (h : endsSession x = false)
    (ht : step (s.given x) = .next t) (n : Nat) : runSession (n + 1) (s.given x) = runSession n t := by
  simp [runSession, State.given, h] at ht ⊢
  rw [ht]

/-! ## The header -/

@[simp] theorem le64_length (v : Word64) : (le64 v).length = 8 := by simp [le64]

/-- A 64-bit integer read back from its 8 bytes (R202, R203). -/
theorem leValue_le64 (v : Word64) : leValue (le64 v) = v.toNat := by
  have := v.isLt
  simp only [le64, List.range_succ, List.range_zero, List.nil_append, List.cons_append, List.map_cons,
    List.map_nil, leValue, List.foldr_cons, List.foldr_nil, BitVec.extractLsb'_toNat,
    Nat.shiftRight_eq_div_pow]
  omega

/-- The field at an offset, of bytes that begin with that many others. -/
theorem fieldAt_append (before field after : List Byte) :
    fieldAt (before ++ field ++ after) before.length field.length = field := by
  simp [fieldAt, List.append_assoc]

end Sys2Proof.Machine
end

