-- ==== Sys2Proof/Laws/Packer.lean ====
section
/-! SUPPORT. What the packer's operations do to the stream of bits (43_bit_packer.md R160 to R164):
appending a bit puts it at the end of the stream, delivers the bytes that become complete, and
changes nothing else. -/

namespace Sys2Proof.Machine

theorem bitVec3_cases (c : BitVec 3) : c = 0 ∨ c = 1 ∨ c = 2 ∨ c = 3 ∨ c = 4 ∨ c = 5 ∨ c = 6 ∨ c = 7 := by
  revert c
  decide

/-! ## Bits and values -/

/-- The value of a bit-string is below two to its length. -/
theorem bitsVal_lt (c : BitString) : bitsVal c < 2 ^ c.length := by
  have key : ∀ (c : BitString) (v k : Nat), v < 2 ^ k →
      c.foldl (fun v b => 2 * v + b.toNat) v < 2 ^ (k + c.length) := by
    intro c
    induction c with
    | nil => exact fun v k h => h
    | cons b c ih =>
      intro v k h
      rw [List.foldl_cons, List.length_cons, ← Nat.add_assoc, Nat.add_right_comm]
      apply ih
      have : b.toNat ≤ 1 := by cases b <;> decide
      rw [Nat.pow_succ]
      omega
  simpa [bitsVal] using key c 0 0 (by decide)

/-- Dropping the first bit of a bit-string takes its weight off the value (00_scope.md R10). -/
theorem bitsVal_cons (b : Bool) (c : BitString) : bitsVal (b :: c) = b.toNat * 2 ^ c.length + bitsVal c := by
  have key : ∀ (c : BitString) (v : Nat),
      c.foldl (fun v b => 2 * v + b.toNat) v = v * 2 ^ c.length + bitsVal c := by
    intro c
    induction c with
    | nil => simp [bitsVal]
    | cons b c ih =>
      intro v
      unfold bitsVal
      rw [List.foldl_cons, List.foldl_cons, ih, ih, List.length_cons]
      ring
  have := key c b.toNat
  simpa [bitsVal] using this

/-- The values of a byte's bits, first bit most significant, are the byte. -/
theorem bitsVal_byteBits (a : Byte) : bitsVal (byteBits a) = a.toNat := by
  have h : ∀ n : Fin 256, bitsVal (byteBits (BitVec.ofFin n)) = n.val := by decide +kernel
  exact h a.toFin

@[simp] theorem byteBits_length (a : Byte) : (byteBits a).length = 8 := rfl

@[simp] theorem flatMap_byteBits_length (bs : List Byte) : (bs.flatMap byteBits).length = 8 * bs.length := by
  induction bs with
  | nil => rfl
  | cons b bs ih =>
    simp only [List.flatMap_cons, List.length_append, byteBits_length, ih, List.length_cons]
    omega

theorem byteBits_inj {a b : Byte} (h : byteBits a = byteBits b) : a = b := by
  apply BitVec.eq_of_toNat_eq
  rw [← bitsVal_byteBits, ← bitsVal_byteBits, h]

/-- The bits of a list of bytes determine the bytes. -/
theorem flatMap_byteBits_inj {as bs : List Byte} (h : as.flatMap byteBits = bs.flatMap byteBits) : as = bs := by
  induction as generalizing bs with
  | nil =>
    have := congrArg List.length h
    simp only [flatMap_byteBits_length, List.length_nil] at this
    exact (List.length_eq_zero_iff.1 (by omega)).symm
  | cons a as ih =>
    cases bs with
    | nil =>
      have := congrArg List.length h
      simp only [flatMap_byteBits_length, List.length_nil, List.length_cons] at this
      omega
    | cons b bs =>
      simp only [List.flatMap_cons] at h
      obtain ⟨h1, h2⟩ := List.append_inj h rfl
      rw [byteBits_inj h1, ih h2]

@[simp] theorem pendingBits_length (s : State) : (pendingBits s).length = s.cnt.toNat := by
  simp [pendingBits]

theorem packedBits_length (s : State) : (packedBits s).length = 8 * s.out.length + s.cnt.toNat := by
  rw [packedBits, List.length_append, flatMap_byteBits_length, pendingBits_length]

/-! ## Appending bits (R162) -/

theorem appendBit_eighth {s : State} (b : Bool) (h : s.cnt = 7) :
    appendBit s b =
      { s.emitByte ((s.acc <<< 1) ||| (if b then 1 else 0)) with acc := 0, cnt := 0 } := by
  unfold appendBit
  exact if_pos h

theorem appendBit_earlier {s : State} (b : Bool) (h : s.cnt ≠ 7) :
    appendBit s b = { s with acc := (s.acc <<< 1) ||| (if b then 1 else 0), cnt := s.cnt + 1 } := by
  unfold appendBit
  exact if_neg h

/-- `append_bit` changes ACC, CNT, OUT and OUTCNT, and delivers at most one byte. -/
theorem appendBit_frame (s : State) (b : Bool) :
    ∃ bytes : List Byte, appendBit s b =
      { s with
        out := s.out ++ bytes, outcnt := s.outcnt + BitVec.ofNat 64 bytes.length,
        acc := (appendBit s b).acc, cnt := (appendBit s b).cnt } := by
  by_cases h : s.cnt = 7
  · exact ⟨[(s.acc <<< 1) ||| (if b then 1 else 0)], by simp [appendBit_eighth b h, State.emitByte]⟩
  · exact ⟨[], by simp [appendBit_earlier b h]⟩

/-- `append_bit` puts its bit at the end of the stream, and keeps the bits of ACC above CNT-1 zero. -/
theorem appendBit_packedBits (s : State) (b : Bool) (h : s.acc.toNat < 2 ^ s.cnt.toNat) :
    packedBits (appendBit s b) = packedBits s ++ [b] ∧
      (appendBit s b).acc.toNat < 2 ^ (appendBit s b).cnt.toNat := by
  have key : ∀ (c : BitVec 3), c ≠ 7 → ∀ x : BitVec 8, x.toNat < 2 ^ c.toNat → ∀ b : Bool,
      ((x <<< 1) ||| (if b then 1 else 0) : BitVec 8).toNat < 2 ^ (c + 1).toNat := by
    decide +kernel
  by_cases h7 : s.cnt = 7
  · rw [appendBit_eighth b h7]
    refine ⟨?_, by simp⟩
    unfold packedBits
    have hp : ∀ t : State, t.cnt = 0 → pendingBits t = [] := by
      intro t ht
      simp [pendingBits, ht]
    rw [hp _ rfl]
    simp only [State.emitByte, List.flatMap_append, List.append_nil, List.append_assoc,
      List.append_cancel_left_eq]
    cases b <;> simp [pendingBits, h7, byteBits, List.range_succ]
  · rw [appendBit_earlier b h7]
    refine ⟨?_, key s.cnt h7 s.acc h b⟩
    unfold packedBits
    simp only [List.append_assoc, List.append_cancel_left_eq]
    unfold pendingBits
    rcases bitVec3_cases s.cnt with e | e | e | e | e | e | e | e <;> first | exact absurd e h7 | skip
    all_goals cases b <;> simp [e, List.range_succ]

/-- Appending bits, whatever the buffer holds: ACC, CNT, OUT and OUTCNT, and nothing else. -/
theorem appendBits_frame (s : State) (c : BitString) :
    ∃ bytes : List Byte, appendBits s c =
      { s with
        out := s.out ++ bytes, outcnt := s.outcnt + BitVec.ofNat 64 bytes.length,
        acc := (appendBits s c).acc, cnt := (appendBits s c).cnt } := by
  induction c generalizing s with
  | nil => exact ⟨[], by simp [appendBits]⟩
  | cons b c ih =>
    obtain ⟨bytes1, h1⟩ := appendBit_frame s b
    obtain ⟨bytes2, h2⟩ := ih (appendBit s b)
    have he : appendBits s (b :: c) = appendBits (appendBit s b) c := rfl
    refine ⟨bytes1 ++ bytes2, ?_⟩
    rw [he, h2]
    generalize (appendBits (appendBit s b) c).acc = x
    generalize (appendBits (appendBit s b) c).cnt = y
    rw [h1]
    simp [BitVec.ofNat_add, BitVec.add_assoc]

/-- Appending a bit-string puts it at the end of the stream, delivers the bytes that become complete,
and changes nothing but ACC, CNT, OUT and OUTCNT. -/
theorem appendBits_spec (s : State) (c : BitString) (h : s.acc.toNat < 2 ^ s.cnt.toNat) :
    ∃ bytes : List Byte,
      appendBits s c =
        { s with
          out := s.out ++ bytes, outcnt := s.outcnt + BitVec.ofNat 64 bytes.length,
          acc := (appendBits s c).acc, cnt := (appendBits s c).cnt } ∧
      packedBits (appendBits s c) = packedBits s ++ c ∧
      (appendBits s c).acc.toNat < 2 ^ (appendBits s c).cnt.toNat := by
  induction c generalizing s with
  | nil => exact ⟨[], by simp [appendBits], by simp [appendBits], h⟩
  | cons b c ih =>
    obtain ⟨bytes1, h1⟩ := appendBit_frame s b
    obtain ⟨h2, h3⟩ := appendBit_packedBits s b h
    obtain ⟨bytes2, h4, h5, h6⟩ := ih (appendBit s b) h3
    have he : appendBits s (b :: c) = appendBits (appendBit s b) c := rfl
    refine ⟨bytes1 ++ bytes2, ?_, ?_, ?_⟩
    · rw [he, h4]
      generalize (appendBits (appendBit s b) c).acc = x
      generalize (appendBits (appendBit s b) c).cnt = y
      rw [h1]
      simp [BitVec.ofNat_add, BitVec.add_assoc]
    · rw [he, h5, h2]
      simp
    · rw [he]
      exact h6

/-- The bytes that appending `c` delivers: as many as become complete. -/
theorem appendBits_count (s : State) (c : BitString) (h : s.acc.toNat < 2 ^ s.cnt.toNat) :
    8 * (appendBits s c).out.length + (appendBits s c).cnt.toNat = 8 * s.out.length + s.cnt.toNat + c.length := by
  obtain ⟨bytes, -, h2, -⟩ := appendBits_spec s c h
  have := congrArg List.length h2
  rw [packedBits_length, List.length_append, packedBits_length] at this
  exact this

/-! ## The flush (R161) -/

/-- The flushed byte is the waiting bits and then zeros. -/
theorem paddedByte_bits (s : State) (hc : s.cnt ≠ 0) :
    byteBits (paddedByte s.acc s.cnt) = pendingBits s ++ List.replicate (8 - s.cnt.toNat) false := by
  unfold pendingBits paddedByte
  rcases bitVec3_cases s.cnt with e | e | e | e | e | e | e | e <;> first | exact absurd e hc | skip
  all_goals simp [e, byteBits, List.range_succ, List.replicate]

end Sys2Proof.Machine
end

