-- ==== Sys2Proof/Laws/Paths.lean ====
section
/-! SUPPORT. Paths in a built tree (10_state.md R29; 42_code_assigner.md R142): they go down, they are
the only ones to where they lead, and every node has one from the root. -/

namespace Sys2Proof.Machine

theorem leafIndex_toNat (a : Byte) : (leafIndex a).toNat = a.toNat := by
  have := a.isLt
  simp [leafIndex]
  omega

theorem leafIndex_inj {a b : Byte} (h : leafIndex a = leafIndex b) : a = b := by
  apply BitVec.eq_of_toNat_eq
  rw [← leafIndex_toNat, ← leafIndex_toNat, h]

/-- A cell below 256 is a leaf's. -/
theorem exists_leafIndex {n : NodeIndex} (h : n.toNat < 256) : ∃ a, n = leafIndex a := by
  refine ⟨BitVec.ofNat 8 n.toNat, BitVec.eq_of_toNat_eq ?_⟩
  rw [leafIndex_toNat]
  simp
  omega

/-! ## Edges -/

section Built
variable {m : NodeMemory} (hm : WellBuilt m)
include hm

/-- The children of a node have a lower index, and only cells 256 to 510 have any. -/
theorem child_lt {n c : NodeIndex} {b : Bool} (h : childOf m n b = .ok c) :
    c.toNat < n.toNat ∧ 256 ≤ n.toNat ∧ n.toNat ≤ 510 := by
  obtain ⟨l, r, w, hr, hc⟩ := childOf_ok_iff.1 h
  have h1 : n.toNat < 511 := (readNode_ok_iff.1 hr).1
  have h2 : 256 ≤ n.toNat := by
    by_contra hlt
    obtain ⟨a, rfl⟩ := exists_leafIndex (n := n) (by omega)
    obtain ⟨w', hw'⟩ := hm.leaves a
    rw [hr] at hw'
    cases hw'
  obtain ⟨l', r', w', hr', hl, hr''⟩ := hm.internals n h2 (by show n.toNat ≤ 510; omega)
  rw [hr] at hr'
  cases hr'
  have a1 : l.toNat < n.toNat := hl
  have a2 : r.toNat < n.toNat := hr''
  refine ⟨?_, h2, by omega⟩
  rw [hc]
  split <;> omega

/-- A node of cells 256 to 510 has a child on either side. -/
theorem child_exists {n : NodeIndex} (h1 : 256 ≤ n.toNat) (h2 : n.toNat ≤ 510) (b : Bool) :
    ∃ c, childOf m n b = .ok c := by
  obtain ⟨l, r, w, hr, -⟩ := hm.internals n h1 h2
  exact ⟨if b then r else l, childOf_ok_iff.2 ⟨l, r, w, hr, rfl⟩⟩

/-- An edge is determined by where it leads. -/
theorem edge_unique {n n' c : NodeIndex} {b b' : Bool} (h : childOf m n b = .ok c)
    (h' : childOf m n' b' = .ok c) : n = n' ∧ b = b' := by
  have hlt := child_lt hm h
  obtain ⟨e, -, hu⟩ := hm.oneParent c (by show c.toNat < 510; omega)
  have h1 := hu (n, b) h
  have h2 := hu (n', b') h'
  rw [← h2] at h1
  exact ⟨congrArg Prod.fst h1, congrArg Prod.snd h1⟩

/-- A leaf has no child. -/
theorem leaf_no_child (a : Byte) (b : Bool) (c : NodeIndex) : childOf m (leafIndex a) b ≠ .ok c := by
  intro h
  have := (child_lt hm h).2.1
  have := a.isLt
  rw [leafIndex_toNat] at *
  omega

end Built

/-! ## Paths -/

theorem followPath_append {m : NodeMemory} {n : NodeIndex} {c d : BitString} {x : NodeIndex} :
    followPath m n (c ++ d) = .ok x ↔ ∃ y, followPath m n c = .ok y ∧ followPath m y d = .ok x := by
  induction c generalizing n with
  | nil => simp [followPath]
  | cons b c ih =>
    simp only [List.cons_append, followPath]
    split
    · simp
    · exact ih

theorem followPath_cons {m : NodeMemory} {n : NodeIndex} {b : Bool} {d : BitString} {x : NodeIndex} :
    followPath m n (b :: d) = .ok x ↔ ∃ y, childOf m n b = .ok y ∧ followPath m y d = .ok x := by
  simp only [followPath]
  split <;> simp_all

section Built
variable {m : NodeMemory} (hm : WellBuilt m)
include hm

/-- A path goes down, by at least one index an edge, and all its edges start at cells 256 to 510. -/
theorem path_descends {n x : NodeIndex} {c : BitString} (h : followPath m n c = .ok x) :
    x.toNat + c.length ≤ n.toNat ∧ (c ≠ [] → 256 ≤ n.toNat ∧ n.toNat ≤ 510 ∧ c.length + 255 ≤ n.toNat) := by
  induction c generalizing n with
  | nil =>
    cases h
    simp
  | cons b c ih =>
    obtain ⟨y, hy, hp⟩ := followPath_cons.1 h
    obtain ⟨h1, h2⟩ := ih hp
    have hlt := child_lt hm hy
    simp only [List.length_cons]
    refine ⟨by omega, fun _ => ⟨hlt.2.1, hlt.2.2, ?_⟩⟩
    by_cases hc : c = []
    · subst hc
      simp only [List.length_nil]
      omega
    · have := h2 hc
      omega

/-- Of two paths to one node, one is the end of the other. -/
theorem path_suffix {n n' x : NodeIndex} {c c' : BitString} (h : followPath m n c = .ok x)
    (h' : followPath m n' c' = .ok x) :
    (∃ e, c' = e ++ c ∧ followPath m n' e = .ok n) ∨ (∃ e, c = e ++ c' ∧ followPath m n e = .ok n') := by
  induction c using List.reverseRecOn generalizing x c' with
  | nil =>
    cases h
    exact .inl ⟨c', by simp, h'⟩
  | append_singleton c b ih =>
    rcases List.eq_nil_or_concat' c' with rfl | ⟨d, b', rfl⟩
    · cases h'
      exact .inr ⟨c ++ [b], by simp, h⟩
    · obtain ⟨y, hy, hc⟩ := followPath_append.1 h
      obtain ⟨y', hy', hc'⟩ := followPath_append.1 h'
      obtain ⟨z, hz, hzx⟩ := followPath_cons.1 hc
      obtain ⟨z', hz', hzx'⟩ := followPath_cons.1 hc'
      cases hzx
      cases hzx'
      obtain ⟨rfl, rfl⟩ := edge_unique hm hz hz'
      rcases ih hy hy' with ⟨e, rfl, he⟩ | ⟨e, rfl, he⟩
      · exact .inl ⟨e, by simp, he⟩
      · exact .inr ⟨e, by simp, he⟩

/-- From one node there is at most one path to another. -/
theorem path_unique {n x : NodeIndex} {c c' : BitString} (h : followPath m n c = .ok x)
    (h' : followPath m n c' = .ok x) : c = c' := by
  rcases path_suffix hm h h' with ⟨e, rfl, he⟩ | ⟨e, rfl, he⟩ <;>
    · have := (path_descends hm he).1
      have : e = [] := List.length_eq_zero_iff.1 (by omega)
      simp [this]

/-- A node below the left child is not below the right one. -/
theorem sides_disjoint {n l r x : NodeIndex} {c c' : BitString} (hl : childOf m n false = .ok l)
    (hr : childOf m n true = .ok r) (h : followPath m l c = .ok x) (h' : followPath m r c' = .ok x) : False := by
  have p : followPath m n (false :: c) = .ok x := followPath_cons.2 ⟨l, hl, h⟩
  have q : followPath m n (true :: c') = .ok x := followPath_cons.2 ⟨r, hr, h'⟩
  cases path_unique hm p q

/-- Every node has a path from the root. -/
theorem path_from_root (x : NodeIndex) (hx : x.toNat ≤ 510) : ∃ c, followPath m Config.root c = .ok x := by
  generalize hd : 510 - x.toNat = d
  induction d using Nat.strongRecOn generalizing x with
  | _ d ih =>
    by_cases he : x.toNat = 510
    · refine ⟨[], ?_⟩
      have : x = Config.root := BitVec.eq_of_toNat_eq he
      rw [this]
      rfl
    · obtain ⟨⟨n, b⟩, hnb, -⟩ := hm.oneParent x (by show x.toNat < 510; omega)
      have hlt := child_lt hm hnb
      obtain ⟨c, hc⟩ := ih (510 - n.toNat) (by simp only at *; omega) n (by simp only at *; omega) rfl
      exact ⟨c ++ [b], followPath_append.2 ⟨n, hc, followPath_cons.2 ⟨x, hnb, rfl⟩⟩⟩

end Built

/-! ## The walk of ASG -/

/-- The entry of a symbol once its code has been written (R142). -/
def codedEntry (e : SymbolEntry) (code : BitString) : SymbolEntry :=
  { e with code := code, len := BitVec.ofNat 8 code.length }

theorem writeCode_entry (st : SymbolTable) (sym a : Byte) (code : BitString) :
    tableGet (writeCode st sym code) (symbolIndex a) =
      if a = sym then codedEntry (tableGet st (symbolIndex a)) code else tableGet st (symbolIndex a) := by
  unfold writeCode codedEntry
  rw [tableGet_tableSet]
  by_cases h : a = sym
  · subst h
    simp
  · have : ¬ symbolIndex sym = symbolIndex a := fun e => h (symbolIndex_inj.1 e).symm
    simp [h, this]

/-- Whatever the tree, where the walk completes it has kept every frequency. -/
theorem walk_frequencies {m : NodeMemory} :
    ∀ (depth : Nat) (n : NodeIndex) (path : BitString) (st st' : SymbolTable),
      walk m depth n path st = .ok st' → frequencies st' = frequencies st
  | 0, _, _, _, _, h => by cases h
  | depth + 1, n, path, st, st', h => by
    unfold walk at h
    split at h
    · cases h
    · injection h with h
      subst h
      rw [frequencies_eq_iff]
      intro a
      rw [writeCode_entry]
      split <;> rfl
    · split at h
      · cases h
      · next h1 => rw [walk_frequencies depth _ _ _ _ h, walk_frequencies depth _ _ _ _ h1]

/-- The walk from node `n` gives every symbol below `n` the path to it, after the path so far, and
leaves every other entry alone. -/
theorem walk_spec {m : NodeMemory} (hm : WellBuilt m) (n : NodeIndex) :
    ∀ (depth : Nat) (path : BitString) (st : SymbolTable), n.toNat ≤ 510 → 1 ≤ depth →
      (256 ≤ n.toNat → n.toNat ≤ depth + 254) →
      ∃ st', walk m depth n path st = .ok st' ∧ ∀ a : Byte,
        (∀ c, followPath m n c = .ok (leafIndex a) →
          tableGet st' (symbolIndex a) = codedEntry (tableGet st (symbolIndex a)) (path ++ c)) ∧
        ((∀ c, followPath m n c ≠ .ok (leafIndex a)) →
          tableGet st' (symbolIndex a) = tableGet st (symbolIndex a)) := by
  generalize hN : n.toNat = N
  induction N using Nat.strongRecOn generalizing n with
  | _ N ih =>
    intro depth path st hn hd hdeep
    obtain ⟨depth, rfl⟩ : ∃ d, depth = d + 1 := ⟨depth - 1, by omega⟩
    by_cases hleaf : n.toNat < 256
    · obtain ⟨s, rfl⟩ := exists_leafIndex hleaf
      obtain ⟨w, hw⟩ := hm.leaves s
      refine ⟨writeCode st s path, by simp [walk, hw], ?_⟩
      intro a
      rw [writeCode_entry]
      constructor
      · intro c hc
        have hnil : c = [] := by
          by_contra hne
          have := ((path_descends hm hc).2 hne).1
          omega
        subst hnil
        have : s = a := by
          simp only [followPath, Except.ok.injEq] at hc
          exact leafIndex_inj hc
        simp [this]
      · intro hc
        have : ¬ a = s := by
          rintro rfl
          exact hc [] rfl
        simp [this]
    · obtain ⟨l, r, w, hr, hl', hr'⟩ := hm.internals n (by show 256 ≤ n.toNat; omega) (by show n.toNat ≤ 510; omega)
      have hl1 : l.toNat < n.toNat := hl'
      have hr1 : r.toNat < n.toNat := hr'
      have cl : childOf m n false = .ok l := childOf_ok_iff.2 ⟨l, r, w, hr, rfl⟩
      have cr : childOf m n true = .ok r := childOf_ok_iff.2 ⟨l, r, w, hr, rfl⟩
      obtain ⟨st1, h1, s1⟩ := ih l.toNat (by omega) l rfl depth (path ++ [false]) st (by omega) (by omega)
        (by omega)
      obtain ⟨st2, h2, s2⟩ := ih r.toNat (by omega) r rfl depth (path ++ [true]) st1 (by omega) (by omega)
        (by omega)
      refine ⟨st2, by simp [walk, hr, h1, h2], ?_⟩
      intro a
      have keep : ∀ code, codedEntry (tableGet st1 (symbolIndex a)) code =
          codedEntry (tableGet st (symbolIndex a)) code := by
        intro code
        by_cases hex : ∃ c, followPath m l c = .ok (leafIndex a)
        · obtain ⟨c, hc⟩ := hex
          rw [(s1 a).1 c hc]
          rfl
        · rw [(s1 a).2 fun c hc => hex ⟨c, hc⟩]
      constructor
      · intro c hc
        cases c with
        | nil =>
          simp only [followPath, Except.ok.injEq] at hc
          have := a.isLt
          rw [hc, leafIndex_toNat] at hleaf
          omega
        | cons b c =>
          obtain ⟨y, hy, hyc⟩ := followPath_cons.1 hc
          cases b with
          | false =>
            rw [cl] at hy
            cases hy
            rw [(s2 a).2 fun d hd => sides_disjoint hm cl cr hyc hd, (s1 a).1 c hyc]
            simp
          | true =>
            rw [cr] at hy
            cases hy
            rw [(s2 a).1 c hyc, keep]
            simp
      · intro hno
        rw [(s2 a).2 fun c hc => hno (true :: c) (followPath_cons.2 ⟨r, cr, hc⟩),
          (s1 a).2 fun c hc => hno (false :: c) (followPath_cons.2 ⟨l, cl, hc⟩)]

/-- On a built tree the assignment completes, and gives every symbol the path from the root. -/
theorem assignCodes_spec {m : NodeMemory} (hm : WellBuilt m) (st : SymbolTable) :
    ∃ st', assignCodes m st = .ok st' ∧ ∀ a : Byte, ∃ c, followPath m Config.root c = .ok (leafIndex a) ∧
      c.length ≤ 255 ∧ c ≠ [] ∧
      tableGet st' (symbolIndex a) = codedEntry (tableGet st (symbolIndex a)) c := by
  have hroot : (Config.root).toNat = 510 := rfl
  obtain ⟨st', h, hs⟩ := walk_spec hm Config.root 256 [] st (by omega) (by omega) (by omega)
  refine ⟨st', h, fun a => ?_⟩
  have ha := a.isLt
  have hal := leafIndex_toNat a
  obtain ⟨c, hc⟩ := path_from_root hm (leafIndex a) (by omega)
  have hne : c ≠ [] := by
    rintro rfl
    simp only [followPath, Except.ok.injEq] at hc
    rw [← hc] at hal
    omega
  refine ⟨c, hc, ?_, hne, by simpa using (hs a).1 c hc⟩
  have := ((path_descends hm hc).2 hne).2.2
  omega

end Sys2Proof.Machine
end

