-- ==== Sys2Proof/Laws/PerInstr.lean ====
section
/-! SUPPORT. The family `EncodedFields`, one lemma per constructor of `Instr`: the three fields of a
command's word are its opcode and its operands (30_encoding.md R81, R82). -/

namespace Sys2Proof.Laws.EncodedFields

/-- The slices of R81 of the encoded word are the fields the encoder put there. -/
def Statement (i : Instr) : Prop :=
  wordOp (encode i) = i.opcode ∧ wordA (encode i) = i.fieldA ∧ wordD (encode i) = i.fieldD

theorem all (i : Instr) : Statement i := ⟨wordOp_encode i, wordA_encode i, wordD_encode i⟩

theorem clr : Statement .clr := all _
theorem recb (a : Byte) : Statement (.recb a) := all _
theorem ldf (a : Byte) (d : Word64) : Statement (.ldf a d) := all _
theorem bld : Statement .bld := all _
theorem asg : Statement .asg := all _
theorem pkb (a : Byte) : Statement (.pkb a) := all _
theorem pkf : Statement .pkf := all _
theorem uex (d : Word64) : Statement (.uex d) := all _
theorem upb (a : Byte) : Statement (.upb a) := all _
theorem uend : Statement .uend := all _
theorem rdr (a : Byte) : Statement (.rdr a) := all _
theorem rdf (a : Byte) : Statement (.rdf a) := all _
theorem rdl (a : Byte) : Statement (.rdl a) := all _
theorem rdc (a : Byte) (d : Word64) : Statement (.rdc a d) := all _

end Sys2Proof.Laws.EncodedFields
end

