-- ==== Sys2Proof/Laws/Session.lean ====
section
/-! SUPPORT. A command does not depend on the inputs that wait behind it, so a session driven by `step`
(60_exceptions.md R246) reaches the state that issuing its commands one by one reaches. -/

namespace Sys2Proof.Machine

/-! ## The inputs waiting behind a command -/

/-- The outcome with other inputs waiting. -/
def mapNext (f : State → State) : Result → Result
  | .next t => .next (f t)
  | .fault e => .fault e
  | .refused r => .refused r

/-- `s` with the inputs `l` waiting. -/
def State.withInbox (s : State) (l : List HostInput) : State := { s with inbox := l }

theorem guarded_inbox {i : Instr} {body : State → Result} {s : State} (l : List HostInput)
    (h : body (s.withInbox l) = mapNext (·.withInbox l) (body s)) :
    guarded i body (s.withInbox l) = mapNext (·.withInbox l) (guarded i body s) := by
  unfold guarded
  show (match admission i s.phase with | .runs => _ | .refused => _ | .raises c => _) = _
  cases admission i s.phase with
  | runs => exact h
  | refused => rfl
  | raises c => rfl

theorem appendBits_inbox (c : BitString) (s : State) (l : List HostInput) :
    appendBits (s.withInbox l) c = (appendBits s c).withInbox l := by
  induction c generalizing s with
  | nil => rfl
  | cons b c ih =>
    have h : appendBit (s.withInbox l) b = (appendBit s b).withInbox l := by
      show (if s.cnt = 7 then _ else _) = _
      unfold appendBit
      split <;> rfl
    show appendBits (appendBit (s.withInbox l) b) c = _
    rw [h, ih]; rfl

theorem unpackBits_inbox (c : BitString) (s : State) (l : List HostInput) :
    unpackBits c (s.withInbox l) = (unpackBits c s).map (·.withInbox l) := by
  induction c generalizing s with
  | nil => rfl
  | cons b c ih =>
    have h : unpackBit (s.withInbox l) b = (unpackBit s b).map (·.withInbox l) := by
      unfold unpackBit
      simp only [State.withInbox]
      cases childOf s.node s.tp b with
      | error f => rfl
      | ok n =>
        simp only [arriveAt]
        rcases readNode s.node n with f | (⟨sym, w⟩ | ⟨x, y, w⟩) <;> rfl
    show (if s.emit = s.size then _ else _) = _
    simp only [unpackBits, h]
    split
    · rfl
    · cases unpackBit s b with
      | error f => rfl
      | ok t => exact ih t

/-- A command runs alike whatever inputs wait behind it, and leaves them waiting. -/
theorem exec_inbox (i : Instr) (s : State) (l : List HostInput) :
    exec i (s.withInbox l) = mapNext (·.withInbox l) (exec i s) := by
  cases i with
  | clr =>
    simp only [exec, execClr]
    apply guarded_inbox
    rfl
  | recb a =>
    simp only [exec, execRec]
    apply guarded_inbox
    rfl
  | ldf a d =>
    simp only [exec, execLdf]
    apply guarded_inbox
    show (if a.setWidth 9 ≠ s.ldx then _ else _) = _
    split <;> rfl
  | bld =>
    simp only [exec, execBld]
    apply guarded_inbox
    simp only [State.withInbox, mapNext, State.answer]
  | asg =>
    simp only [exec, execAsg]
    apply guarded_inbox
    show finish ((assignCodes s.node s.st).map _) = mapNext _ (finish ((assignCodes s.node s.st).map _))
    cases assignCodes s.node s.st <;> rfl
  | pkb a =>
    simp only [exec, execPkb]
    apply guarded_inbox
    show finish ((codeBits (s.entry a)).map _) = mapNext _ (finish ((codeBits (s.entry a)).map _))
    cases codeBits (s.entry a) with
    | error f => rfl
    | ok c =>
      simp only [Except.map, finish, mapNext, appendBits_inbox]
      rfl
  | pkf =>
    simp only [exec, execPkf]
    apply guarded_inbox
    have h : flushBits (s.withInbox l) = (flushBits s).withInbox l := by
      show (if s.cnt = 0 then _ else _) = _
      unfold flushBits
      split <;> rfl
    simp only [h]
    rfl
  | uex d =>
    simp only [exec, execUex]
    apply guarded_inbox
    rfl
  | upb a =>
    simp only [exec, execUpb]
    apply guarded_inbox
    show (if s.phase = .done then _ else _) = _
    split
    · rfl
    · have h := unpackBits_inbox (byteBits a) { s with incnt := s.incnt + 1 } l
      show finish ((unpackBits (byteBits a) (State.withInbox { s with incnt := s.incnt + 1 } l)).map _) = _
      rw [h]
      cases unpackBits (byteBits a) { s with incnt := s.incnt + 1 } with
      | error f => rfl
      | ok t =>
        simp only [Except.map, finish, mapNext]
        have h2 : endByte (t.withInbox l) = (endByte t).withInbox l := by
          show (if t.emit = t.size then _ else _) = _
          unfold endByte
          split <;> rfl
        rw [h2]
        rfl
  | uend =>
    simp only [exec, execUend]
    apply guarded_inbox
    show (if s.phase = .unpack then _ else _) = _
    split <;> rfl
  | rdr a =>
    simp only [exec, execRdr]
    apply guarded_inbox
    show (match statusRegister s a with | some v => _ | none => _) = _
    cases statusRegister s a <;> rfl
  | rdf a =>
    simp only [exec, execRdf]
    apply guarded_inbox
    rfl
  | rdl a =>
    simp only [exec, execRdl]
    apply guarded_inbox
    rfl
  | rdc a d =>
    simp only [exec, execRdc]
    apply guarded_inbox
    rfl

/-! ## A session and its commands -/

/-- Where commands are issued without a fault, a session with their words waiting goes through the same
states and is then where the last of them leaves it, with the inputs behind them still waiting. -/
theorem sessionLast_issueAll {is : List Instr} {s t : State} (rest : List HostInput)
    (hd : ∀ i ∈ is, decode (encode i) = .ok i) (hc : .clr ∉ is) (h : issueAll is s = .ok t) :
    sessionLast (s.withInbox (inputsOf is ++ rest)) = sessionLast (t.withInbox rest) := by
  induction is generalizing s with
  | nil =>
    simp only [issueAll, Except.ok.injEq] at h
    rw [h]
    rfl
  | cons i is ih =>
    have hi := hd i (by simp)
    obtain ⟨r, u, h1, h2⟩ := issueAll_cons_ok h
    have he : endsSession (.command (encode i)) = false := by
      rw [endsSession_command hi, decide_eq_false_iff_not]
      exact fun h => hc (by simp [h])
    have hs : step ((s.withInbox (inputsOf is ++ rest)).given (.command (encode i))) =
        .next (u.withInbox (inputsOf is ++ rest)) := by
      rw [step_command, hi]
      exact (exec_inbox i s _).trans (by rw [exec_of_issue hi h1]; rfl)
    exact (runSession_given he hs _).trans
      (ih (fun j hj => hd j (by simp [hj])) (fun hm => hc (by simp [hm])) h2)

end Sys2Proof.Machine
end

