-- ==== Sys2Proof/Laws/Unpacker.lean ====
section
/-! SUPPORT. What the unpacker's loop does to a built tree (44_bit_unpacker.md R183, R184), and the
laws of `spelled`: how it goes through one bit-string after another, through the codes of symbols, and
through a stream that has been cut. -/

namespace Sys2Proof.Machine

/-! ## The laws of `spelled` -/

@[simp] theorem spelled_nil (m : NodeMemory) (n : NodeIndex) (k : Nat) : spelled m n k [] = some ([], n) := by
  cases k <;> rfl

@[simp] theorem spelled_zero (m : NodeMemory) (n : NodeIndex) (c : BitString) :
    spelled m n 0 c = some ([], n) := by
  cases c <;> rfl

/-- A bit that leads to a leaf gives the leaf's symbol. -/
theorem spelled_leaf {m : NodeMemory} {n x : NodeIndex} {b : Bool} {a : Byte} {w : Weight} (k : Nat)
    (bs : BitString) (hc : childOf m n b = .ok x) (hr : readNode m x = .ok (.leaf a w)) :
    spelled m n (k + 1) (b :: bs) = (spelled m Config.root k bs).map fun r => (a :: r.1, r.2) := by
  simp [spelled, hc, hr]

/-- A bit that leads to an internal node gives no symbol. -/
theorem spelled_internal {m : NodeMemory} {n x : NodeIndex} {b : Bool} {l r : NodeIndex} {w : Weight} (k : Nat)
    (bs : BitString) (hc : childOf m n b = .ok x) (hr : readNode m x = .ok (.internal l r w)) :
    spelled m n (k + 1) (b :: bs) = spelled m x (k + 1) bs := by
  simp [spelled, hc, hr]

/-- No more symbols are spelled than are asked for, and none without a bit. -/
theorem spelled_length {m : NodeMemory} {n n' : NodeIndex} {k : Nat} {c : BitString} {syms : List Byte}
    (h : spelled m n k c = some (syms, n')) : syms.length ≤ k ∧ syms.length ≤ c.length := by
  induction c generalizing n k syms with
  | nil =>
    rw [spelled_nil] at h
    cases h
    simp
  | cons b bs ih =>
    cases k with
    | zero =>
      rw [spelled_zero] at h
      cases h
      simp
    | succ k =>
      simp only [spelled] at h
      split at h
      · cases h
      · split at h
        · cases h
        · obtain ⟨r, hr, he⟩ := Option.map_eq_some_iff.1 h
          cases he
          have := ih hr
          simp only [List.length_cons]
          omega
        · have := ih h
          simp only [List.length_cons]
          omega

/-- One bit-string after another. -/
theorem spelled_append (m : NodeMemory) (n : NodeIndex) (k : Nat) (c d : BitString) :
    spelled m n k (c ++ d) =
      (spelled m n k c).bind fun r =>
        (spelled m r.2 (k - r.1.length) d).map fun q => (r.1 ++ q.1, q.2) := by
  induction c generalizing n k with
  | nil => cases h : spelled m n k d <;> simp [h]
  | cons b bs ih =>
    cases k with
    | zero => simp
    | succ k =>
      simp only [List.cons_append, spelled]
      split
      · rfl
      · split
        · rfl
        · rw [ih]
          cases h1 : spelled m Config.root k bs with
          | none => rfl
          | some r =>
            simp only [Option.bind_some, Option.map_some, List.length_cons, Nat.add_sub_add_right]
            cases h2 : spelled m r.2 (k - r.1.length) d <;> simp
        · exact ih _ _

/-- The loop breaks once EMIT equals SIZE (R186). -/
theorem unpackBits_done {s : State} {b : Bool} {bs : BitString} (h : s.emit = s.size) :
    unpackBits (b :: bs) s = .ok s := by
  unfold unpackBits
  exact if_pos h

/-- Otherwise a bit is taken. -/
theorem unpackBits_take {s s1 : State} {b : Bool} {bs : BitString} (h : s.emit ≠ s.size)
    (hb : unpackBit s b = .ok s1) : unpackBits (b :: bs) s = unpackBits bs s1 := by
  rw [unpackBits, if_neg h, hb]

/-- Whatever the tree, where the loop completes it has moved OUT, OUTCNT, EMIT, TP and UST, and nothing
else. -/
theorem unpackBits_frame {bs : BitString} {s t : State} (h : unpackBits bs s = .ok t) :
    ∃ bytes : List Byte, t =
      { s with
        out := s.out ++ bytes, outcnt := s.outcnt + BitVec.ofNat 64 bytes.length, emit := t.emit, tp := t.tp,
        ust := t.ust } := by
  induction bs generalizing s with
  | nil =>
    cases h
    exact ⟨[], by simp⟩
  | cons b bs ih =>
    unfold unpackBits at h
    split at h
    · cases h
      exact ⟨[], by simp⟩
    · split at h
      · cases h
      · next s1 h1 =>
        obtain ⟨bytes, h2⟩ := ih h
        have h3 : ∃ first : List Byte, s1 =
            { s with
              out := s.out ++ first, outcnt := s.outcnt + BitVec.ofNat 64 first.length, emit := s1.emit,
              tp := s1.tp, ust := s1.ust } := by
          unfold unpackBit arriveAt at h1
          split at h1
          · cases h1
          · split at h1 <;> cases h1
            · exact ⟨[_], rfl⟩
            · exact ⟨[], by simp⟩
        obtain ⟨first, h3⟩ := h3
        refine ⟨first ++ bytes, ?_⟩
        rw [h2]
        generalize t.emit = x
        generalize t.tp = y
        generalize t.ust = z
        rw [h3]
        simp [BitVec.ofNat_add, BitVec.add_assoc]

/-- The last lines of UPB write PHASE and nothing else. -/
theorem endByte_eq (s : State) :
    endByte s = { s with phase := if s.emit = s.size then .done else s.phase } := by
  unfold endByte
  split <;> rfl

/-- A bit that leads to a leaf emits its symbol and leads back to the root. -/
theorem unpackBit_leaf {s : State} {b : Bool} {x : NodeIndex} {a : Byte} {w : Weight}
    (hc : childOf s.node s.tp b = .ok x) (hr : readNode s.node x = .ok (.leaf a w)) :
    unpackBit s b = .ok
      { s with
        out := s.out ++ [a], outcnt := s.outcnt + 1, emit := s.emit + 1, tp := Config.root, ust := .atRoot } := by
  simp only [unpackBit, hc, arriveAt, hr, State.emitByte]

/-- A bit that leads to an internal node moves the pointer there. -/
theorem unpackBit_internal {s : State} {b : Bool} {x l r : NodeIndex} {w : Weight}
    (hc : childOf s.node s.tp b = .ok x) (hr : readNode s.node x = .ok (.internal l r w)) :
    unpackBit s b = .ok { s with tp := x, ust := .descending } := by
  simp only [unpackBit, hc, arriveAt, hr]

section Built
variable {m : NodeMemory} (hm : WellBuilt m)
include hm

/-- A cell of a built tree that is not a leaf's is internal. -/
theorem read_cases (n : NodeIndex) (hn : n.toNat ≤ 510) :
    (∃ a w, n = leafIndex a ∧ readNode m n = .ok (.leaf a w)) ∨
      (256 ≤ n.toNat ∧ ∃ l r w, readNode m n = .ok (.internal l r w)) := by
  by_cases h : n.toNat < 256
  · obtain ⟨a, rfl⟩ := exists_leafIndex h
    obtain ⟨w, hw⟩ := hm.leaves a
    exact .inl ⟨a, w, rfl, hw⟩
  · obtain ⟨l, r, w, hr, -⟩ := hm.internals n (by show 256 ≤ n.toNat; omega) (by show n.toNat ≤ 510; omega)
    exact .inr ⟨by omega, l, r, w, hr⟩

/-- A path to a leaf spells the leaf's symbol and leads back to the root. -/
theorem spelled_path {n : NodeIndex} {c : BitString} {a : Byte} (k : Nat)
    (h : followPath m n c = .ok (leafIndex a)) (hn : 256 ≤ n.toNat) :
    spelled m n (k + 1) c = some ([a], Config.root) := by
  have ha := a.isLt
  have hal := leafIndex_toNat a
  induction c generalizing n with
  | nil =>
    simp only [followPath, Except.ok.injEq] at h
    rw [h, hal] at hn
    omega
  | cons b bs ih =>
    obtain ⟨x, hx, hp⟩ := followPath_cons.1 h
    have hlt := child_lt hm hx
    rcases read_cases hm x (by omega) with ⟨a', w, rfl, hr⟩ | ⟨hx1, l, r, w, hr⟩
    · have hnil : bs = [] := by
        by_contra hne
        have := ((path_descends hm hp).2 hne).1
        have := a'.isLt
        rw [leafIndex_toNat] at *
        omega
      subst hnil
      simp only [followPath, Except.ok.injEq] at hp
      cases leafIndex_inj hp
      rw [spelled_leaf k [] hx hr]
      simp
    · rw [spelled_internal k bs hx hr]
      exact ih hp hx1

/-- A path cut before its leaf spells nothing and leads to an internal node. -/
theorem spelled_cut {n : NodeIndex} {c d : BitString} {a : Byte} (k : Nat)
    (h : followPath m n (c ++ d) = .ok (leafIndex a)) (hd : d ≠ []) :
    ∃ n', spelled m n (k + 1) c = some ([], n') := by
  induction c generalizing n with
  | nil => exact ⟨n, by simp⟩
  | cons b bs ih =>
    obtain ⟨x, hx, hp⟩ := followPath_cons.1 h
    have hlt := child_lt hm hx
    rcases read_cases hm x (by omega) with ⟨a', w, rfl, hr⟩ | ⟨hx1, l, r, w, hr⟩
    · have := ((path_descends hm hp).2 (by simp [hd])).1
      have := a'.isLt
      rw [leafIndex_toNat] at *
      omega
    · rw [spelled_internal k bs hx hr]
      exact ih hp

/-- The codes of a list of symbols spell the symbols. -/
theorem spelled_codes {code : Byte → BitString}
    (hcode : ∀ a, followPath m Config.root (code a) = .ok (leafIndex a)) (bs : List Byte) (k : Nat) :
    spelled m Config.root (bs.length + k) (bs.flatMap code) = some (bs, Config.root) := by
  induction bs with
  | nil => simp
  | cons b bs ih =>
    rw [List.flatMap_cons, spelled_append, List.length_cons, Nat.add_right_comm,
      spelled_path hm _ (hcode b) (by decide)]
    simpa using ih

/-- A stream of codes that has been cut spells fewer symbols, whichever way it was cut. -/
theorem spelled_codes_cut {code : Byte → BitString}
    (hcode : ∀ a, followPath m Config.root (code a) = .ok (leafIndex a)) (bs : List Byte) (k : Nat)
    (c d : BitString) (hcd : c ++ d = bs.flatMap code) (hd : d ≠ []) :
    ∃ syms n, spelled m Config.root (bs.length + k) c = some (syms, n) ∧ syms.length < bs.length := by
  induction bs generalizing c with
  | nil =>
    simp only [List.flatMap_nil, List.append_eq_nil_iff] at hcd
    exact absurd hcd.2 hd
  | cons b bs ih =>
    rw [List.flatMap_cons] at hcd
    have hk : (b :: bs).length + k = bs.length + k + 1 := by
      rw [List.length_cons]
      omega
    rcases List.append_eq_append_iff.1 hcd with ⟨e, he1, he2⟩ | ⟨e, he1, he2⟩
    · by_cases hne : e = []
      · subst hne
        rw [List.append_nil] at he1
        refine ⟨[b], Config.root, ?_, ?_⟩
        · rw [hk, ← he1, spelled_path hm _ (hcode b) (by decide)]
        · have : bs ≠ [] := by
            rintro rfl
            simp only [List.nil_append, List.flatMap_nil] at he2
            exact hd he2
          have := List.length_pos_of_ne_nil this
          simp only [List.length_cons, List.length_nil]
          omega
      · obtain ⟨n, hn⟩ := spelled_cut (d := e) hm (bs.length + k) (by rw [← he1]; exact hcode b) hne
        exact ⟨[], n, by rw [hk]; exact hn, by simp⟩
    · obtain ⟨syms, n, hs, hlt⟩ := ih e he2.symm
      refine ⟨b :: syms, n, ?_, by simpa using hlt⟩
      rw [he1, spelled_append, hk, spelled_path hm _ (hcode b) (by decide)]
      simpa using hs

/-! ## The unpacker's loop -/

/-- The loop of UPB on a built tree, with the pointer at an internal node: it completes, emits the
symbols that the bits spell, and moves the pointer to where they lead; nothing else changes. -/
theorem unpackBits_spec (bits : BitString) (s : State) (hs : s.node = m) (h1 : 256 ≤ s.tp.toNat)
    (h2 : s.tp.toNat ≤ 510) (hu : s.ust = .atRoot ↔ s.tp = 510) :
    ∃ syms n, spelled m s.tp (s.size - s.emit).toNat bits = some (syms, n) ∧ 256 ≤ n.toNat ∧ n.toNat ≤ 510 ∧
      unpackBits bits s = .ok
        { s with
          out := s.out ++ syms, outcnt := s.outcnt + BitVec.ofNat 64 syms.length,
          emit := s.emit + BitVec.ofNat 64 syms.length, tp := n,
          ust := if n = 510 then .atRoot else .descending } := by
  have stay : ∀ s : State, (s.ust = .atRoot ↔ s.tp = 510) →
      (if s.tp = 510 then Ust.atRoot else Ust.descending) = s.ust := by
    intro s hu
    cases he : s.ust <;> simp_all
  induction bits generalizing s with
  | nil => exact ⟨[], s.tp, by simp, h1, h2, by rw [stay s hu]; simp [unpackBits]⟩
  | cons b bs ih =>
    by_cases hdone : s.emit = s.size
    · exact ⟨[], s.tp, by simp [hdone], h1, h2, by
        rw [unpackBits_done hdone, stay s hu]
        simp⟩
    · obtain ⟨x, hx⟩ := child_exists hm h1 h2 b
      have hlt := child_lt hm hx
      have hxs : childOf s.node s.tp b = .ok x := by rw [hs]; exact hx
      obtain ⟨k, hk⟩ : ∃ k, (s.size - s.emit).toNat = k + 1 := by
        refine ⟨(s.size - s.emit).toNat - 1, ?_⟩
        have : (s.size - s.emit).toNat ≠ 0 := by
          intro h0
          apply hdone
          bv_omega
        omega
      rcases read_cases hm x (by omega) with ⟨a, w, rfl, hr⟩ | ⟨hx1, l, r, w, hr⟩
      · have hrs : readNode s.node (leafIndex a) = .ok (.leaf a w) := by rw [hs]; exact hr
        obtain ⟨syms, n, hsp, hn1, hn2, hun⟩ := ih
          { s with out := s.out ++ [a], outcnt := s.outcnt + 1, emit := s.emit + 1, tp := Config.root, ust := .atRoot }
          hs (by show 256 ≤ 510; omega) (by show 510 ≤ 510; omega) ⟨fun _ => rfl, fun _ => rfl⟩
        have hk' : (s.size - (s.emit + 1)).toNat = k := by bv_omega
        simp only [hk'] at hsp
        refine ⟨a :: syms, n, ?_, hn1, hn2, ?_⟩
        · rw [hk, spelled_leaf k bs hx hr, hsp]
          rfl
        · rw [unpackBits_take hdone (unpackBit_leaf hxs hrs), hun]
          simp only [Except.ok.injEq, List.append_assoc, List.singleton_append, List.length_cons]
          have e : ∀ v : Word64, v + 1 + BitVec.ofNat 64 syms.length = v + BitVec.ofNat 64 (syms.length + 1) := by
            intro v
            rw [BitVec.ofNat_add, BitVec.add_assoc, BitVec.add_comm 1]
            rfl
          rw [e, e]
      · have hrs : readNode s.node x = .ok (.internal l r w) := by rw [hs]; exact hr
        have hne : x ≠ 510 := by
          rintro rfl
          have : (510 : NodeIndex).toNat = 510 := rfl
          omega
        obtain ⟨syms, n, hsp, hn1, hn2, hun⟩ := ih { s with tp := x, ust := .descending } hs hx1 (by
          show x.toNat ≤ 510
          omega) ⟨fun h => (by cases h), fun h => absurd h hne⟩
        refine ⟨syms, n, ?_, hn1, hn2, ?_⟩
        · rw [hk, spelled_internal k bs hx hr, ← hk]
          exact hsp
        · rw [unpackBits_take hdone (unpackBit_internal hxs hrs), hun]

end Built

end Sys2Proof.Machine
end

