-- ==== Sys2Proof/Tests/Slice0.lean ====
section
/-! SUPPORT. The model's own tests. Expected values come from the spec: the words from the encodings
of 30_encoding.md R81 to R92, the results from 95_test_vectors.md (the vector is named at each test).
Each test is one step on a small state. The second half gives, for every statement with hypotheses, a
state and operands that meet them all. -/

namespace Sys2Proof.Tests

open Sys2Proof.Machine

-- One theorem after the other: many kernel checks waiting for one another would each hold a thread.
set_option Elab.async false

/-! ## Helpers -/

/-- The next state of an outcome, if there is one. -/
def after (r : Result) : Option State :=
  match r with
  | .next t => some t
  | .fault _ => none
  | .refused _ => none

/-- The state after reset in another phase. -/
def inPhase (p : Phase) : State := { State.reset with phase := p }

/-- The three codes of the spec's example (42_code_assigner.md R140), in phase CODES. -/
def codesOfExample : State :=
  { ((State.reset.setEntry 0x61 ⟨3, [false], 1⟩).setEntry 0x62 ⟨1, [true, false, true], 3⟩).setEntry 0x6E
      ⟨2, [true, true], 2⟩ with phase := .codes }

/-- The top of the tree of V12, closed with the leaf of symbol 0 where the zero symbols hang. -/
def exampleTree : NodeMemory :=
  writeNode (writeNode (writeNode (writeNode (writeNode (writeNode (writeNode (tableFill 511 none)
    0 (.leaf 0 0)) 0x61 (.leaf 0x61 3)) 0x62 (.leaf 0x62 1)) 0x6E (.leaf 0x6E 2))
    508 (.internal 0 0x62 1)) 509 (.internal 508 0x6E 3)) 510 (.internal 0x61 509 6)

/-! ## Well-formedness: one ill-formed term for each check -/

theorem test_wellFormed_rdr_refuses : (Instr.rdr 11).wellFormed = false := by decide
theorem test_wellFormed_rdr_admits : (Instr.rdr 10).wellFormed = true := by decide
theorem test_wellFormed_rdc_refuses : (Instr.rdc 0 4).wellFormed = false := by decide
theorem test_wellFormed_rdc_admits : (Instr.rdc 0xFF 3).wellFormed = true := by decide

/-! ## Decoding: every constructor, by a word written out from R82, R83, and R92 -/

theorem test_decode_clr : decodeTableWord 80 0x01000000000000000000 = some .clr := by decide +kernel
theorem test_decode_recb : decodeTableWord 80 0x02410000000000000000 = some (.recb 0x41) := by decide +kernel
theorem test_decode_ldf : decodeTableWord 80 0x03610000000000000003 = some (.ldf 0x61 3) := by decide +kernel
theorem test_decode_bld : decodeTableWord 80 0x04000000000000000000 = some .bld := by decide +kernel
theorem test_decode_asg : decodeTableWord 80 0x05000000000000000000 = some .asg := by decide +kernel
theorem test_decode_pkb : decodeTableWord 80 0x06620000000000000000 = some (.pkb 0x62) := by decide +kernel
theorem test_decode_pkf : decodeTableWord 80 0x07000000000000000000 = some .pkf := by decide +kernel
theorem test_decode_uex : decodeTableWord 80 0x080000000000000003E8 = some (.uex 1000) := by decide +kernel
theorem test_decode_upb : decodeTableWord 80 0x09AD0000000000000000 = some (.upb 0xAD) := by decide +kernel
theorem test_decode_uend : decodeTableWord 80 0x0A000000000000000000 = some .uend := by decide +kernel
theorem test_decode_rdr : decodeTableWord 80 0x100A0000000000000000 = some (.rdr 10) := by decide +kernel
theorem test_decode_rdf : decodeTableWord 80 0x11610000000000000000 = some (.rdf 0x61) := by decide +kernel
theorem test_decode_rdl : decodeTableWord 80 0x12FF0000000000000000 = some (.rdl 0xFF) := by decide +kernel
theorem test_decode_rdc : decodeTableWord 80 0x13FF0000000000000003 = some (.rdc 0xFF 3) := by decide +kernel

/-- R92, V1: illegal words, by name. -/
theorem test_decode_refuses :
    decode 0x00000000000000000000 = .error .illegalCommand ∧
    decode 0x0C000000000000000000 = .error .illegalCommand ∧
    decode 0xFF000000000000000000 = .error .illegalCommand ∧
    decode 0x08010000000000000000 = .error .illegalOperand ∧
    decode 0x100B0000000000000000 = .error .illegalOperand ∧
    decode 0x13610000000000000004 = .error .illegalOperand :=
  ⟨rfl, rfl, rfl, rfl, rfl, rfl⟩

/-- A word of more than 80 bits is no command (R80). -/
theorem test_decode_too_long : decodeTableWord 88 (2 ^ 80 + 0x01000000000000000000) = none := by decide +kernel

/-- The word that the encoder makes is the one of R92. -/
theorem test_encode : encode (.rdc 0x61 2) = 0x13610000000000000002 ∧ encode (.upb 0xAD) = 0x09AD0000000000000000 := by
  decide +kernel

/-- The host's next word is the one that step runs: RDR 8 after reset answers 510 (V50). -/
theorem test_step_runs_word :
    (after (step (State.reset.withFetchWord 80 0x10080000000000000000))).map (·.rsp) = some (some (.val 510)) := by
  decide +kernel

/-! ## One step of each command -/

/-- V51: CLR leaves phase PACKED for the reset state. -/
theorem test_clr : after (execClr { inPhase .packed with outcnt := 7, out := [1] }) =
    some { State.reset with rsp := some .ack } := by decide +kernel

/-- P5: CLR leaves phase ERROR. -/
theorem test_clr_error : (after (execClr { inPhase .error with fault := .loadOrder, finfo := 0x0301 })).map
    (fun t => (t.phase, t.fault, t.finfo)) = some (.empty, .none, 0) := by decide +kernel

/-- V2: the first REC 0x41. -/
theorem test_rec : (after (execRec 0x41 State.reset)).map
    (fun t => ((t.entry 0x41).freq, (t.entry 0x42).freq, t.size, t.phase)) = some (1, 0, 1, .count) := by
  decide +kernel

/-- V3: saturation. -/
theorem test_rec_saturates :
    (after (execRec 7 { (inPhase .count).setEntry 7 ⟨BitVec.allOnes 64, [], 0⟩ with size := BitVec.allOnes 64 })).map
      (fun t => ((t.entry 7).freq, t.size, t.rsp)) =
    some (BitVec.allOnes 64, BitVec.allOnes 64, some .ack) := by decide +kernel

/-- V6: the last LDF completes the table. -/
theorem test_ldf_last : (after (execLdf 255 9 { inPhase .load with ldx := 255 })).map
    (fun t => ((t.entry 255).freq, t.ldx, t.phase)) = some (9, 256, .table) := by decide +kernel

/-- V5: out of order. -/
theorem test_ldf_order : (after (execLdf 1 9 State.reset)).map
    (fun t => (t.fault, t.finfo, t.phase, (t.entry 1).freq, t.ldx)) = some (.loadOrder, 0x0301, .error, 0, 0) := by
  decide +kernel

/-- V2: RDF reads a count. -/
theorem test_rdf : (after (execRdf 0x41 ((inPhase .count).setEntry 0x41 ⟨3, [], 0⟩))).map (·.rsp) =
    some (some (.val 3)) := by decide +kernel

/-- V4: RDF in LOAD. -/
theorem test_rdf_load : (after (execRdf 0 (inPhase .load))).map (fun t => (t.rsp, t.finfo)) =
    some (some (.flt .phaseViolation), 0x1100) := by decide +kernel

/-- BLD goes to TREE and keeps the counters (R120). -/
theorem test_bld : (after (execBld { inPhase .table with ldx := 256 })).map (fun t => (t.phase, t.ldx, t.rsp)) =
    some (.tree, 256, some .ack) := by decide +kernel

/-- V12: the last three merges of "banana", tie-break included. -/
theorem test_bld_merges :
    let b := mergeMany 3 (Build.mk [⟨2, 110⟩, ⟨0, 507⟩, ⟨3, 97⟩, ⟨1, 98⟩] (tableFill 511 none) 508)
    (readNode b.nodes 508).toOption = some (.internal 507 98 1) ∧
    (readNode b.nodes 509).toOption = some (.internal 508 110 3) ∧
    (readNode b.nodes 510).toOption = some (.internal 97 509 6) ∧ b.work = [⟨6, 510⟩] := by decide +kernel

/-- R140: the example's codes. -/
theorem test_asg : (after (execAsg { inPhase .tree with node := exampleTree })).map
    (fun t => (t.entry 0x61, t.entry 0x6E, t.entry 0x62, t.phase)) =
    some (⟨0, [false], 1⟩, ⟨0, [true, true], 2⟩, ⟨0, [true, false, true], 3⟩, .codes) := by decide +kernel

/-- V24: ASG from reset. -/
theorem test_asg_phase : (after (execAsg State.reset)).map (fun t => (t.rsp, t.finfo)) =
    some (some (.flt .phaseViolation), 0x0500) := by decide +kernel

/-- P2: RDL 0x62. -/
theorem test_rdl : (after (execRdl 0x62 codesOfExample)).map (·.rsp) = some (some (.val 3)) := by decide +kernel

/-- P2: RDC 0x62, 0; V23: a chunk above 3. -/
theorem test_rdc : (after (execRdc 0x62 0 codesOfExample)).map (·.rsp) = some (some (.val 5)) ∧
    (after (execRdc 0x62 4 codesOfExample)).map (·.rsp) = some (some (.flt .illegalOperand)) := by decide +kernel

/-- A code of 65 bits lies in two chunks (R145). -/
theorem test_rdc_chunks :
    let s := State.reset.setEntry 0 ⟨0, true :: List.replicate 63 false ++ [true], 65⟩
    (after (execRdc 0 0 s)).map (·.rsp) = some (some (.val 1)) ∧
    (after (execRdc 0 1 s)).map (·.rsp) = some (some (.val 1)) := by decide +kernel

/-- V30, first row. -/
theorem test_pkb : (after (execPkb 0x62 codesOfExample)).map (fun t => (t.acc, t.cnt, t.out, t.incnt, t.phase)) =
    some (5, 3, [], 1, .pack) := by decide +kernel

/-- V30, fifth row: a byte is completed inside a code. -/
theorem test_pkb_byte :
    (after (execPkb 0x6E { codesOfExample with phase := .pack, acc := 0x56, cnt := 7, incnt := 4 })).map
      (fun t => (t.acc, t.cnt, t.out, t.incnt, t.outcnt)) = some (1, 1, [0xAD], 5, 1) := by decide +kernel

/-- V30, last row: the flush. -/
theorem test_pkf : (after (execPkf { inPhase .pack with acc := 2, cnt := 2, out := [0xAD], outcnt := 1 })).map
    (fun t => (t.acc, t.cnt, t.out, t.outcnt, t.phase)) = some (0, 0, [0xAD, 0x80], 2, .packed) := by decide +kernel

/-- V32: the flush of an empty buffer. -/
theorem test_pkf_empty : (after (execPkf (inPhase .codes))).map (fun t => (t.out, t.outcnt, t.phase)) =
    some ([], 0, .packed) := by decide +kernel

/-- V47: UEX from TREE. -/
theorem test_uex : (after (execUex 5 (inPhase .tree))).map (fun t => (t.size, t.phase, t.tp)) =
    some (5, .unpack, 510) := by decide +kernel

/-- V41: UEX 0. -/
theorem test_uex_zero : (after (execUex 0 (inPhase .codes))).map (fun t => (t.size, t.phase)) = some (0, .done) := by
  decide +kernel

/-- P3, command 261: four symbols and part of a code. -/
theorem test_upb : (after (execUpb 0xAD { inPhase .unpack with node := exampleTree, size := 6 })).map
    (fun t => (t.out, t.tp, t.ust, t.emit, t.incnt, t.phase)) =
    some ([0x62, 0x61, 0x6E, 0x61], 509, .descending, 4, 1, .unpack) := by decide +kernel

/-- P3, command 262: the padding is not decoded. -/
theorem test_upb_padding :
    (after (execUpb 0x80 { inPhase .unpack with node := exampleTree, size := 6, emit := 4, tp := 509, ust := .descending })).map
      (fun t => (t.out, t.emit, t.tp, t.ust, t.phase)) = some ([0x6E, 0x61], 6, 510, .atRoot, .done) := by
  decide +kernel

/-- V45: UEND in UNPACK; V41: UEND in DONE. -/
theorem test_uend : (after (execUend (inPhase .unpack))).map (fun t => (t.rsp, t.finfo, t.phase)) =
      some (some (.flt .formatTruncated), 0x0A00, .error) ∧
    (after (execUend (inPhase .done))).map (fun t => (t.rsp, t.phase)) = some (some .ack, .done) := by decide +kernel

/-- V30: RDR 10 reads CNT and ACC as one value. -/
theorem test_rdr : (after (execRdr 10 { inPhase .pack with acc := 1, cnt := 1 })).map (·.rsp) =
    some (some (.val 0x101)) := by decide +kernel

/-- V52: in ERROR an RDR executes and its selector check is a refusal. -/
theorem test_rdr_error :
    let s := { inPhase .error with fault := .phaseViolation }
    (after (execRdr 1 s)).map (·.rsp) = some (some (.val 3)) ∧
    (after (execRdr 11 s)).map (·.rsp) = some (some (.ref .phaseViolation)) := by decide +kernel

/-- V60: the first bytes of the header, and V61, V62. -/
theorem test_header :
    let P : HdrParams := ⟨[0x48, 0x55, 0x46, 0x46], 16⟩
    P.hlen = 2076 ∧ isCompressed P [0x48, 0x55, 0x46, 0x46] = true ∧ isCompressed P [0x48, 0x55, 0x46] = false ∧
    (writeHeader P ⟨List.replicate 17 0x61, 6, List.replicate 256 0⟩).toOption = none ∧
    (writeHeader P ⟨[0x62, 0x61], 6, List.replicate 256 0⟩).toOption.map (fun bs => (bs.take 7, fieldAt bs 20 8)) =
      some ([0x48, 0x55, 0x46, 0x46, 0x62, 0x61, 0], [6, 0, 0, 0, 0, 0, 0, 0]) := by decide +kernel

/-- R89, R91: text becomes commands. -/
theorem test_assemble :
    assemble ['U', 'E', 'X', ' ', '1', '0', '0', '0'] = some [.uex 1000] ∧
    assemble ['P', 'A', 'C', 'K', ' ', '0', 'x', '4', '1'] = some [.pkb 0x41, .pkf] := by decide +kernel

/-! ## Witnesses: the states that the statements speak of

`treeOf m` is the state after BLD from reset where BLD has made the node memory `m`, `codedOf m` the state
that ASG gives in it. What is needed of them is proved from Laws/ for any `m`, and used for the tree of
the 256 frequencies 0: evaluating its 255 merges would take far longer. -/

/-- The 256 frequencies 0. -/
def zeroFreqs : List Word64 := List.replicate 256 0

/-- Phase TREE with a node memory. -/
def treeOf (m : NodeMemory) : State := { inPhase .tree with node := m }

theorem treeOf_fields (m : NodeMemory) : (treeOf m).phase = .tree ∧ (treeOf m).node = m := ⟨rfl, rfl⟩

/-- What ASG gives in `treeOf m`. -/
def codedOf (m : NodeMemory) : State := (after (execAsg (treeOf m))).getD (treeOf m)

/-- Unpacking three symbols with a node memory. -/
def unpackOf (m : NodeMemory) : State := { inPhase .unpack with node := m, size := 3 }

theorem zeroFreqs_length : zeroFreqs.length = 256 := List.length_replicate

theorem zeroFrequencies : frequencies State.reset.st = zeroFreqs := by decide +kernel

theorem reset_entry (a : Byte) : State.reset.entry a = SymbolEntry.empty := by simp [State.entry, State.reset]

/-- A build that is complete leaves a tree. -/
theorem wellBuilt_of {b : Build} (h : BuildInv zeroFreqs 255 b) (hw : ∀ x ∈ b.work, x.index.toNat = 510) :
    WellBuilt b.nodes := by
  refine ⟨fun a => ?_, fun n h1 h2 => ?_, fun c hc => ?_⟩
  · exact ⟨_, h.leaves a 0 (List.getElem?_replicate_of_lt a.isLt)⟩
  · have h2' : n.toNat ≤ 510 := h2
    obtain ⟨l, r, w, h3, h4, h5, -⟩ := h.inner n h1 (by omega)
    exact ⟨l, r, w, h3, h4, h5⟩
  · have h1 : c.toNat < 510 := hc
    refine h.owned c (by omega) fun x hx hr => ?_
    have := hw x hx
    rw [hr] at this
    omega

/-- Stated for any frequencies: with concrete ones the kernel would run the 255 merges. -/
theorem buildTree_eq (fs : List Word64) : buildTree fs = (mergeMany 255 (startBuild fs)).nodes := rfl

theorem zero_wellBuilt : WellBuilt (buildTree zeroFreqs) := by
  rw [buildTree_eq]
  refine wellBuilt_of (mergeMany_inv zeroFreqs_length 255 (Nat.le_refl _)) fun x hx => ?_
  obtain ⟨w, hw, -⟩ := build_final zeroFreqs_length
  rw [hw, List.mem_singleton] at hx
  rw [hx]
  rfl

section AnyTree
variable {m : NodeMemory}

theorem root_internal (hm : WellBuilt m) : ∃ l r w, readNode m 510 = .ok (.internal l r w) := by
  obtain ⟨l, r, w, h, -⟩ := hm.internals 510 (by decide) (by decide)
  exact ⟨l, r, w, h⟩

/-- What ASG gives in `treeOf m`. -/
theorem codedOf_spec (hm : WellBuilt m) : exec .asg (treeOf m) = .next (codedOf m) ∧
    (∀ a, ∃ c, followPath m Config.root c = .ok (leafIndex a) ∧ c.length ≤ 255 ∧ c ≠ [] ∧
      (codedOf m).entry a = codedEntry SymbolEntry.empty c) ∧
    codedOf m = { treeOf m with st := (codedOf m).st, phase := .codes, rsp := some .ack } := by
  obtain ⟨st', h, hs⟩ := assignCodes_spec hm State.reset.st
  have he : execAsg (treeOf m) = .next { treeOf m with st := st', phase := .codes, rsp := some .ack } := by
    unfold execAsg
    rw [guarded_legal (fun h => by cases h) rfl rfl, finish_next_iff, map_ok_iff]
    exact ⟨st', h, rfl⟩
  have hc : codedOf m = { treeOf m with st := st', phase := .codes, rsp := some .ack } := by
    unfold codedOf
    rw [he]
    rfl
  refine ⟨by rw [hc]; exact he, fun a => ?_, by rw [hc]⟩
  obtain ⟨c, h1, h2, h3, h4⟩ := hs a
  have h5 := reset_entry a
  unfold State.entry at h5
  rw [h5] at h4
  exact ⟨c, h1, h2, h3, by rw [hc]; exact h4⟩

theorem treeOf_inv (hm : m = buildTree zeroFreqs) : (treeOf m).Inv := by
  refine ⟨fun a => ?_, ⟨fun _ => rfl, fun _ => rfl⟩, Nat.zero_lt_one, rfl, Nat.zero_le _,
    ⟨fun _ h => (by cases h), fun _ => rfl⟩, fun _ => rfl, ?_, ?_, ?_, ?_, ?_, fun _ a => ?_, fun _ => ?_, ?_,
    fun _ => ⟨rfl, rfl, rfl, rfl⟩, fun _ _ => rfl, ?_, ?_, ?_⟩
  · show (State.reset.entry a).code.length = (State.reset.entry a).len.toNat
    rw [reset_entry]
    rfl
  · intro h; cases h
  · rintro (h | h) <;> cases h
  · intro h; cases h
  · intro h; cases h
  · intro h; cases h
  · exact congrArg SymbolEntry.code (reset_entry a)
  · rw [← zeroFrequencies] at hm
    exact hm
  · intro h; cases h
  · intro h; cases h
  · intro h; cases h
  · rintro (h | h) <;> cases h

theorem codedOf_inv (hm : m = buildTree zeroFreqs) (hw : WellBuilt m) : (codedOf m).Inv := by
  obtain ⟨-, hs, he⟩ := codedOf_spec hw
  have hlen : ∀ a, ((codedOf m).entry a).code.length = ((codedOf m).entry a).len.toNat := by
    intro a
    obtain ⟨c, -, h2, -, h4⟩ := hs a
    rw [h4]
    simp [codedEntry]
    omega
  have hpath : ∀ a, followPath m Config.root ((codedOf m).entry a).code = .ok (leafIndex a) := by
    intro a
    obtain ⟨c, h1, -, -, h4⟩ := hs a
    rw [h4]
    exact h1
  have hfreq : frequencies (codedOf m).st = zeroFreqs := by
    rw [← zeroFrequencies, frequencies_eq_iff]
    intro a
    obtain ⟨c, -, -, -, h4⟩ := hs a
    unfold State.entry at h4
    rw [h4]
    exact (congrArg SymbolEntry.freq (reset_entry a)).symm
  generalize (codedOf m).st = st at he hfreq
  rw [he] at hlen hpath ⊢
  refine ⟨hlen, ⟨fun _ => rfl, fun _ => rfl⟩, Nat.zero_lt_one, rfl, Nat.zero_le _,
    ⟨fun _ h => (by cases h), fun _ => rfl⟩, fun _ => rfl, ?_, ?_, ?_, ?_, ?_, ?_, fun _ => ?_, fun _ => hpath,
    fun _ => ⟨rfl, rfl, rfl, rfl⟩, fun _ _ => rfl, ?_, ?_, ?_⟩
  · intro h; cases h
  · rintro (h | h) <;> cases h
  · intro h; cases h
  · intro h; cases h
  · intro h; cases h
  · rintro (h | h) <;> cases h
  · rw [← hfreq] at hm
    exact hm
  · intro h; cases h
  · intro h; cases h
  · rintro (h | h) <;> cases h

end AnyTree

/-! ## Witnesses: one theorem for each statement with hypotheses, named after it -/

theorem witness_DecodeOfEncode : (Instr.rdr 10).wellFormed ∧ (Instr.rdc 0 3).wellFormed ∧ Instr.uend.wellFormed := by
  decide

theorem witness_EncodeOfDecode : decode 0x13FF0000000000000003 = .ok (.rdc 0xFF 3) := rfl

/-- RDR with selector 11, BLD with `d` not 0, and RDC with chunk 4 have a listed `op` and no legal spelling. -/
theorem witness_LegalSpellingsDecode :
    State.reset.phase ≠ .error ∧
    [(0x100B0000000000000000 : CommandWord), 0x04000000000000000001, 0x13610000000000000004].all
      (fun w => opcodeTable.any (fun r => wordOp w == wordOp r.pattern) && !legalSpelling w) = true := by
  decide +kernel

theorem witness_ReservedOpcodesAreIllegal : State.reset.phase ≠ .error ∧
    wordOp 0x00000000000000000000 = 0 ∧
    (0x0B ≤ wordOp 0x0B000000000000000000 ∧ wordOp 0x0B000000000000000000 ≤ 0x0F) ∧
    (0x0B ≤ wordOp 0x0F000000000000000000 ∧ wordOp 0x0F000000000000000000 ≤ 0x0F) ∧
    0x14 ≤ wordOp 0x14000000000000000000 ∧ 0x14 ≤ wordOp 0xFF000000000000000000 := by decide +kernel

theorem witness_StepRunsDecodedCommand : decode 0x080000000000000003E8 = .ok (.uex 1000) := rfl

theorem witness_StepWaitsOrResets : (inPhase .pack).inbox = [] := rfl

/-- Each fault code from its own condition, and a word that raises none: V5, V45, V51, V53. -/
theorem witness_FaultsByPriority :
    faultOf State.reset 0x0B000000000000000000 = some .illegalCommand ∧
    faultOf State.reset 0x01000000000000000001 = some .illegalOperand ∧
    faultOf (inPhase .count) 0x03070000000000000005 = some .phaseViolation ∧
    faultOf State.reset 0x03010000000000000009 = some .loadOrder ∧
    faultOf (inPhase .unpack) 0x0A000000000000000000 = some .formatTruncated ∧
    faultOf State.reset 0x03000000000000000009 = none ∧
    faultOf (inPhase .error) 0x0B000000000000000000 = none ∧
    (after (step ((inPhase .error).given (.command 0x0B000000000000000000)))).isSome := by decide +kernel

/-- The three clauses: CLR, RDR 10 and RDR 11. -/
theorem witness_ErrorPhaseRefuses : (inPhase .error).phase = .error ∧
    (wordOp 0x01000000000000000000 = 0x01 ∧ wordA 0x01000000000000000000 = 0 ∧ wordD 0x01000000000000000000 = 0) ∧
    (wordOp 0x100A0000000000000000 = 0x10 ∧ wordA 0x100A0000000000000000 ≤ 10 ∧ wordD 0x100A0000000000000000 = 0) ∧
    ¬ (wordOp 0x100B0000000000000000 = 0x01 ∧ wordA 0x100B0000000000000000 = 0 ∧ wordD 0x100B0000000000000000 = 0) ∧
    ¬ (wordOp 0x100B0000000000000000 = 0x10 ∧ wordA 0x100B0000000000000000 ≤ 10 ∧
        wordD 0x100B0000000000000000 = 0) := by decide +kernel

/-- A refused BLD, and a CLR. -/
theorem witness_ErrorIsSticky :
    (∃ t, step ((inPhase .error).given (.command 0x04000000000000000000)) = .next t) ∧
    (inPhase .error).phase = .error ∧ ∃ t, step ((inPhase .error).given (.command 0x01000000000000000000)) = .next t :=
  ⟨⟨_, rfl⟩, rfl, ⟨_, rfl⟩⟩

theorem witness_PhaseViolationsFollowTable : Instr.asg.wellFormed ∧ State.reset.phase ≠ .error ∧
    Instr.asg.opcode ∉ okColumn State.reset.phase := by decide +kernel

theorem witness_PhasesFollowArrows : ∃ (i : Instr) (s t : State), s.Inv ∧ i.wellFormed ∧ s.phase ≠ .error ∧
    i.opcode ∈ okColumn s.phase ∧ exec i s = .next t :=
  ⟨.asg, treeOf (buildTree zeroFreqs), codedOf (buildTree zeroFreqs), treeOf_inv (Eq.refl _), rfl,
    fun h => (by cases h), by show (0x05 : Byte) ∈ okColumn .tree; decide, (codedOf_spec zero_wellBuilt).1⟩

theorem witness_EveryCommandIsAnswered :
    ∃ t, step (State.reset.given (.command 0x02410000000000000000)) = .next t := ⟨_, rfl⟩

theorem witness_ClrGivesResetState : wordOp 0x01000000000000000000 = 0x01 := by decide

/-- Every selector of the table, 0 to 10, names a register. -/
theorem witness_RdrReadsStatus : wordOp 0x100A0000000000000000 = 0x10 ∧
    [(0 : Byte), 1, 2, 3, 4, 5, 6, 7, 8, 9, 10].all (fun a => (statusRegister State.reset a).isSome) = true := by
  decide +kernel

theorem witness_RecCountsByte : wordOp 0x02410000000000000000 = 0x02 ∧
    (State.reset.phase = .empty ∨ State.reset.phase = .count) ∧
    ((inPhase .load).phase ≠ .empty ∧ (inPhase .load).phase ≠ .count ∧ (inPhase .load).phase ≠ .error) := by
  decide +kernel

/-- In order at both ends of the table (LDX 0 and 255), out of order, and in a wrong phase. -/
theorem witness_LdfLoadsInOrder : wordOp 0x03000000000000000009 = 0x03 ∧
    (State.reset.phase = .empty ∧ (0 : Byte).toNat = State.reset.ldx.toNat) ∧
    ((inPhase .load).phase = .load ∧ (255 : Byte).toNat = ({ inPhase .load with ldx := 255 } : State).ldx.toNat) ∧
    (State.reset.phase = .empty ∧ (1 : Byte).toNat ≠ State.reset.ldx.toNat) ∧
    ((inPhase .count).phase ≠ .empty ∧ (inPhase .count).phase ≠ .load ∧ (inPhase .count).phase ≠ .error) := by
  decide +kernel

theorem witness_RdfReadsFrequency : wordOp 0x11610000000000000000 = 0x11 ∧
    ((inPhase .done).phase ≠ .load ∧ (inPhase .done).phase ≠ .error) ∧ (inPhase .load).phase = .load ∧
    (inPhase .error).phase = .error := by decide +kernel

theorem witness_BldBuildsTree : wordOp 0x04000000000000000000 = 0x04 ∧
    ((inPhase .table).phase = .empty ∨ (inPhase .table).phase = .count ∨ (inPhase .table).phase = .table) ∧
    ((inPhase .tree).phase ≠ .empty ∧ (inPhase .tree).phase ≠ .count ∧ (inPhase .tree).phase ≠ .table ∧
      (inPhase .tree).phase ≠ .error) := by decide +kernel

theorem witness_MergesAreDeterministic : zeroFreqs.length = 256 ∧
    Merged zeroFreqs 0 (Finset.univ.filter fun n => n < 256) (leafMemory zeroFreqs) :=
  ⟨zeroFreqs_length, .start⟩

theorem witness_BuiltTreeIsWellFormed : zeroFreqs.length = 256 := zeroFreqs_length

theorem witness_WeightsAreExactSums : zeroFreqs.length = 256 ∧ zeroFreqs[(0xFF : Byte).toNat]? = some 0 ∧
    ∃ l r w, readNode (buildTree zeroFreqs) 510 = .ok (.internal l r w) :=
  ⟨zeroFreqs_length, List.getElem?_replicate_of_lt (by decide), root_internal zero_wellBuilt⟩

theorem witness_LeftChildHasSmallerKey : zeroFreqs.length = 256 ∧
    ∃ l r w, readNode (buildTree zeroFreqs) 510 = .ok (.internal l r w) :=
  ⟨zeroFreqs_length, root_internal zero_wellBuilt⟩

theorem witness_MergeWeightsNeverDecrease : zeroFreqs.length = 256 ∧ 0 < 254 ∧ 253 < 254 :=
  ⟨zeroFreqs_length, by decide, by decide⟩

theorem witness_EqualFrequenciesGivePerfectTree : 0 < 255 ∧ 254 < 255 := by decide

theorem witness_SingleSymbolGetsCodeOne : (1000 : Word64) ≠ 0 ∧
    (treeOf (buildTree ((List.replicate 256 0).set (0x41 : Byte).toNat 1000))).phase = .tree ∧
    (treeOf (buildTree ((List.replicate 256 0).set (0x41 : Byte).toNat 1000))).node =
      buildTree ((List.replicate 256 0).set (0x41 : Byte).toNat 1000) :=
  ⟨by decide, treeOf_fields _⟩

theorem witness_SameFrequenciesSameCodes :
    frequencies State.reset.st = frequencies ({ inPhase .table with ldx := 256 } : State).st ∧
    State.reset.phase = .empty ∧ ({ inPhase .table with ldx := 256 } : State).phase = .table := by decide +kernel

/-- The hypotheses of the statements about ASG (AsgAssignsPaths, CodeLengthsInRange, CodesArePrefixFree,
CodeIsComplete), and a phase in which it raises PhaseViolation. -/
theorem witness_asg : wordOp 0x05000000000000000000 = 0x05 ∧ (treeOf (buildTree zeroFreqs)).phase = .tree ∧
    WellBuilt (treeOf (buildTree zeroFreqs)).node ∧
    exec .asg (treeOf (buildTree zeroFreqs)) = .next (codedOf (buildTree zeroFreqs)) ∧
    ((inPhase .codes).phase ≠ .tree ∧ (inPhase .codes).phase ≠ .error) :=
  ⟨by decide, (treeOf_fields _).1, by rw [(treeOf_fields _).2]; exact zero_wellBuilt, (codedOf_spec zero_wellBuilt).1,
    by decide +kernel⟩

theorem witness_CodesArePrefixFree : (0x41 : Byte) ≠ 0x42 := by decide

/-- Symbol 0x41 has frequency 1, all others 0. -/
theorem witness_GreaterFrequencyHasNoLongerCode : ∃ s : State, s.phase = .tree ∧
    s.node = buildTree (frequencies s.st) ∧ (s.entry 0x42).freq.toNat < (s.entry 0x41).freq.toNat := by
  have key : ∀ (st : SymbolTable) (m : NodeMemory), m = buildTree (frequencies st) →
      (tableGet st (symbolIndex 0x42)).freq.toNat < (tableGet st (symbolIndex 0x41)).freq.toNat →
        ∃ s : State, s.phase = .tree ∧ s.node = buildTree (frequencies s.st) ∧
        (s.entry 0x42).freq.toNat < (s.entry 0x41).freq.toNat :=
    fun st m hm h => ⟨{ inPhase .tree with st := st, node := m }, rfl, hm, h⟩
  exact key (State.reset.setEntry 0x41 ⟨1, [], 0⟩).st _ (Eq.refl _) (by decide +kernel)

/-- A word of each opcode but LDF's whose fields are wrong: `a` is 0xFF and `d` is 4. The right ones are
in the theorems of the commands. -/
theorem witness_Spells :
    [(0x01 : Byte), 0x02, 0x04, 0x05, 0x06, 0x07, 0x08, 0x09, 0x0A, 0x10, 0x11, 0x12, 0x13].all (fun op =>
      wordOp (makeWord op 0xFF 4) == op && wordA (makeWord op 0xFF 4) == 0xFF && wordD (makeWord op 0xFF 4) == 4) = true ∧
    State.reset.phase ≠ .error := by decide +kernel

theorem witness_RdlReadsLength : wordOp 0x12FF0000000000000000 = 0x12 ∧ State.reset.phase ≠ .error ∧
    (inPhase .error).phase = .error := by decide +kernel

theorem witness_RdcReadsChunk : wordOp 0x13610000000000000003 = 0x13 ∧ (3 : Word64) ≤ 3 ∧
    codesOfExample.phase ≠ .error ∧ (codesOfExample.entry 0x62).code.length ≤ 255 ∧
    (inPhase .error).phase = .error := by decide +kernel

/-- In CODES with an empty buffer, in PACK with a full one, and in a wrong phase. -/
theorem witness_PkbAppendsCode : wordOp 0x06620000000000000000 = 0x06 ∧
    (codesOfExample.phase = .codes ∧ (codesOfExample.entry 0x62).code.length = (codesOfExample.entry 0x62).len.toNat ∧
      codesOfExample.acc.toNat < 2 ^ codesOfExample.cnt.toNat) ∧
    (let s := { codesOfExample with phase := .pack, acc := 0x7F, cnt := 7 }
     s.phase = .pack ∧ (s.entry 0x62).code.length = (s.entry 0x62).len.toNat ∧ s.acc.toNat < 2 ^ s.cnt.toNat) ∧
    ((inPhase .tree).phase ≠ .codes ∧ (inPhase .tree).phase ≠ .pack ∧ (inPhase .tree).phase ≠ .error) := by
  decide +kernel

theorem witness_PkfFlushes : wordOp 0x07000000000000000000 = 0x07 ∧
    ((inPhase .codes).phase = .codes ∧ (inPhase .codes).cnt = 0) ∧
    (({ inPhase .pack with cnt := 7 } : State).phase = .pack ∧ ({ inPhase .pack with cnt := 7 } : State).cnt ≠ 0) ∧
    ((inPhase .packed).phase ≠ .codes ∧ (inPhase .packed).phase ≠ .pack ∧ (inPhase .packed).phase ≠ .error) := by
  decide +kernel

theorem witness_PackPathDelivers : (codedOf (buildTree zeroFreqs)).Inv ∧
    (codedOf (buildTree zeroFreqs)).phase = .codes := by
  refine ⟨codedOf_inv (Eq.refl _) zero_wellBuilt, ?_⟩
  rw [(codedOf_spec zero_wellBuilt).2.2]

/-- The clauses of RdlReadsLength and RdcReadsChunk about a session before ASG and after it. -/
theorem witness_readsBeforeAndAfterAsg : ((treeOf (buildTree zeroFreqs)).Inv ∧
      (treeOf (buildTree zeroFreqs)).phase = .tree) ∧
    (codedOf (buildTree zeroFreqs)).Inv ∧ (codedOf (buildTree zeroFreqs)).phase.coded = true := by
  refine ⟨⟨treeOf_inv (Eq.refl _), Eq.refl _⟩, witness_PackPathDelivers.1, ?_⟩
  rw [witness_PackPathDelivers.2]
  rfl

theorem witness_UexStartsUnpacking : wordOp 0x080000000000000003E8 = 0x08 ∧
    ((inPhase .tree).phase = .tree ∨ (inPhase .tree).phase = .codes) ∧
    ((inPhase .table).phase ≠ .tree ∧ (inPhase .table).phase ≠ .codes ∧ (inPhase .table).phase ≠ .error) := by
  decide +kernel

/-- The pointer at the root and at the lowest internal node, and the other two clauses. -/
theorem witness_UpbEmitsSpelledSymbols : wordOp 0x09AD0000000000000000 = 0x09 ∧ (inPhase .done).phase = .done ∧
    (∀ p : NodeIndex × Ust, p = (510, .atRoot) ∨ p = (256, .descending) →
      let s := { unpackOf (buildTree zeroFreqs) with tp := p.1, ust := p.2 }
      s.phase = .unpack ∧ WellBuilt s.node ∧ 256 ≤ s.tp ∧ s.tp ≤ 510 ∧ (s.ust = .atRoot ↔ s.tp = 510)) ∧
    ((inPhase .codes).phase ≠ .unpack ∧ (inPhase .codes).phase ≠ .done ∧ (inPhase .codes).phase ≠ .error) := by
  have key : ∀ m : NodeMemory, WellBuilt m → ∀ p : NodeIndex × Ust, p = (510, .atRoot) ∨ p = (256, .descending) →
      let s := { unpackOf m with tp := p.1, ust := p.2 }
      s.phase = .unpack ∧ WellBuilt s.node ∧ 256 ≤ s.tp ∧ s.tp ≤ 510 ∧ (s.ust = .atRoot ↔ s.tp = 510) := by
    rintro m hm p (rfl | rfl)
    · exact ⟨rfl, hm, by show (256 : NodeIndex) ≤ 510; decide, by show (510 : NodeIndex) ≤ 510; decide,
        ⟨fun _ => rfl, fun _ => rfl⟩⟩
    · exact ⟨rfl, hm, by show (256 : NodeIndex) ≤ 256; decide, by show (256 : NodeIndex) ≤ 510; decide,
        ⟨fun h => (by cases h), fun h => (by cases h)⟩⟩
  exact ⟨by decide, rfl, key _ zero_wellBuilt, by decide +kernel⟩

theorem witness_UendReportsTruncation : wordOp 0x0A000000000000000000 = 0x0A ∧ (inPhase .done).phase = .done ∧
    (inPhase .unpack).phase = .unpack ∧
    ((inPhase .tree).phase ≠ .unpack ∧ (inPhase .tree).phase ≠ .done ∧ (inPhase .tree).phase ≠ .error) := by
  decide +kernel

theorem witness_RoundTripRecoversBytes : ∃ (s s' : State) (bs : List Byte), s.Inv ∧ s.phase = .codes ∧ s'.Inv ∧
    s'.phase = .codes ∧ frequencies s'.st = frequencies s.st ∧ bs.length < 2 ^ 64 :=
  ⟨codedOf (buildTree zeroFreqs), codedOf (buildTree zeroFreqs), [0x41, 0xFF], witness_PackPathDelivers.1,
    witness_PackPathDelivers.2, witness_PackPathDelivers.1, witness_PackPathDelivers.2, Eq.refl _, by decide⟩

/-- One symbol packed alone and flushed gives at least one byte, in any state with codes. -/
theorem pack_one {s : State} (hi : s.Inv) (hp : s.phase = .codes) (hc : (s.entry 0x41).code ≠ []) :
    ∃ t, issueAll (pseudoPack [0x41]) s = .ok t ∧ 0 < t.out.length ∧ t.phase = .packed := by
  obtain ⟨ho, -⟩ := hi.quiet (by rw [hp]; rfl)
  have hn := appendBits_count s (s.entry 0x41).code hi.bufferBits
  have hlen := List.length_pos_of_ne_nil hc
  generalize hu : ({ appendBits s (s.entry 0x41).code with
      incnt := (appendBits s (s.entry 0x41).code).incnt + 1, phase := .pack }.answer .ack : State) = u
  have h1 : exec (.pkb 0x41) s = .next u := by
    show execPkb 0x41 s = _
    unfold execPkb
    rw [guarded_legal (by rw [hp]; decide) rfl (by rw [hp]; rfl), ← hu]
    simp only [codeBits, ← hi.codeLength 0x41, le_refl, if_true, List.take_length]
    rfl
  have h2 : exec .pkf u = .next ({ flushBits u with phase := .packed }.answer .ack) := by
    show execPkf u = _
    unfold execPkf
    rw [guarded_legal (by rw [← hu]; intro h; cases h) rfl (by rw [← hu]; rfl)]
  have h3 : 8 * u.out.length + u.cnt.toNat = (s.entry 0x41).code.length := by
    rw [← hu]
    simp only [answer_out, answer_cnt]
    have h4 := hi.noBits (by rw [hp]; decide) (by rw [hp]; decide)
    rw [h4, ho] at hn
    simpa using hn
  refine ⟨{ flushBits u with phase := .packed }.answer .ack, ?_, ?_, rfl⟩
  · show issueAll [.pkb 0x41, .pkf] s = _
    rw [issueAll_cons (issue_next rfl h1 (by rw [← hu]; rfl) (by simp) (by simp)),
      issueAll_cons (issue_next rfl h2 rfl (by simp) (by simp))]
    rfl
  · show 0 < (flushBits u).out.length
    unfold flushBits
    split
    · next h =>
      rw [h] at h3
      have : (0 : BitVec 3).toNat = 0 := rfl
      omega
    · simp [State.emitByte]

theorem witness_TruncationIsCaught : ∃ (s s' t : State) (bs : List Byte) (k : Nat), s.Inv ∧ s.phase = .codes ∧
    s'.Inv ∧ s'.phase = .codes ∧ frequencies s'.st = frequencies s.st ∧ 0 < bs.length ∧ bs.length < 2 ^ 64 ∧
    issueAll (pseudoPack bs) s = .ok t ∧ k < t.out.length := by
  obtain ⟨c, -, -, h3, h4⟩ := (codedOf_spec zero_wellBuilt).2.1 0x41
  obtain ⟨t, h5, h6, -⟩ := pack_one witness_PackPathDelivers.1 witness_PackPathDelivers.2 (by
    rw [h4]
    exact h3)
  exact ⟨codedOf (buildTree zeroFreqs), codedOf (buildTree zeroFreqs), t, [0x41], 0, witness_PackPathDelivers.1,
    witness_PackPathDelivers.2, witness_PackPathDelivers.1, witness_PackPathDelivers.2, Eq.refl _, by decide, by decide,
    h5, h6⟩

/-- A state with the invariant, and a step of it (StepKeepsInvariant, InvariantNeverStops). -/
theorem witness_invariant : (treeOf (buildTree zeroFreqs)).Inv ∧
    step (treeOf (buildTree zeroFreqs)) = .next (treeOf (buildTree zeroFreqs)) :=
  ⟨treeOf_inv (Eq.refl _), Eq.refl _⟩

theorem witness_FrequenciesFixedAfterBuild : (inPhase .tree).phase.built = true ∧
    ∃ t, step (inPhase .tree) = .next t := ⟨rfl, _, rfl⟩

/-- A session with a valid output, and one that a fault has ended; each with its last input still to come. -/
theorem witness_OutputValidOnlyWhenFinished :
    sessionOutput ({ inPhase .pack with acc := 0b10, cnt := 2 }.given (.command 0x07000000000000000000)) = some [0x80] ∧
    ∃ t, runSession 1 ((inPhase .unpack).given (.command 0x0A000000000000000000)) = .next t ∧ t.phase = .error :=
  ⟨by decide +kernel, _, rfl, rfl⟩

/-- The symbol packed by a session is its valid output. -/
theorem packed_output {s : State} (hi : s.Inv) (hp : s.phase = .codes) (hc : (s.entry 0x41).code ≠ []) :
    ∃ packed, sessionOutput (s.withInbox (inputsOf (pseudoPack [0x41]))) = some packed ∧ 0 < packed.length := by
  obtain ⟨t, h1, h2, h3⟩ := pack_one hi hp hc
  have h4 := sessionLast_issueAll [] (is := pseudoPack [0x41]) (by simp [pseudoPack]; exact ⟨rfl, rfl⟩)
    (by simp [pseudoPack]) h1
  have h5 : sessionLast (t.withInbox []) = .next (t.withInbox []) := rfl
  rw [List.append_nil, h5] at h4
  refine ⟨t.out, ?_, h2⟩
  simp only [sessionOutput, h4]
  exact validOutput_eq_some.2 ⟨.inl h3, rfl⟩

/-- The hypotheses, and an output that can be cut. -/
theorem witness_WholeStreamsGiveValidOutput : ∃ (s s' : State) (bs packed : List Byte), s.Inv ∧ s.phase = .codes ∧
    s'.Inv ∧ s'.phase = .codes ∧ frequencies s'.st = frequencies s.st ∧ bs.length < 2 ^ 64 ∧
    sessionOutput { s with inbox := inputsOf (pseudoPack bs) } = some packed ∧ 0 < packed.length := by
  obtain ⟨c, -, -, h3, h4⟩ := (codedOf_spec zero_wellBuilt).2.1 0x41
  obtain ⟨packed, h5, h6⟩ := packed_output witness_PackPathDelivers.1 witness_PackPathDelivers.2 (by
    rw [h4]
    exact h3)
  exact ⟨codedOf (buildTree zeroFreqs), codedOf (buildTree zeroFreqs), [0x41], packed, witness_PackPathDelivers.1,
    witness_PackPathDelivers.2, witness_PackPathDelivers.1, witness_PackPathDelivers.2, Eq.refl _, by decide, h5, h6⟩

/-- CLR changes a node memory that is not empty. -/
theorem witness_TreeIsNeverMutated :
    (after (step ({ inPhase .tree with node := exampleTree }.given (.command 0x01000000000000000000)))).any
      (fun t => decide (t.node ≠ exampleTree)) = true := by decide +kernel

theorem witness_ReadsChangeNothing : (∃ t, exec (.rdr 0) State.reset = .next t) ∧
    (∃ t, exec (.rdf 0) State.reset = .next t) ∧ (∃ t, exec (.rdl 0) State.reset = .next t) ∧
    ∃ t, exec (.rdc 0 3) State.reset = .next t := ⟨⟨_, rfl⟩, ⟨_, rfl⟩, ⟨_, rfl⟩, ⟨_, rfl⟩⟩

theorem witness_OutputOnlyGrows : ∃ t, step (State.reset.given (.command 0x02410000000000000000)) = .next t :=
  ⟨_, rfl⟩

/-- Each of the five stops from a state with its condition. -/
theorem witness_StopsOutsideInvariant :
    (let s := { inPhase .codes with st := (State.reset.setEntry 0 ⟨0, [], 1⟩).st }
     s.phase = .codes ∧ (s.entry 0).code.length < (s.entry 0).len.toNat) ∧
    (let s := { inPhase .unpack with size := 1, tp := 511 }
     s.phase = .unpack ∧ s.emit ≠ s.size ∧ s.tp = 511) ∧
    (let s := { inPhase .unpack with size := 1, tp := 0x61, node := exampleTree }
     s.phase = .unpack ∧ s.emit ≠ s.size ∧ (readNode s.node s.tp).toOption = some (.leaf 0x61 3)) ∧
    ((inPhase .tree).phase = .tree ∧ (readNode (inPhase .tree).node 510).toOption = none) ∧
    (let s := { inPhase .tree with node := writeNode (tableFill 511 none) 510 (.internal 510 0 0) }
     s.phase = .tree ∧ (readNode s.node 510).toOption = some (.internal 510 0 0)) := by decide +kernel

/-- The header statements: a valid header, a name that is too long, and bytes for the three outcomes of
reading. -/
theorem witness_header :
    (⟨[0x48], 1⟩ : HdrParams).n2 < [(0x62 : Byte), 0x61].length ∧ (0 : Byte) ∈ [(0x62 : Byte), 0] ∧
    ([] : List Byte).length < (⟨[0x48], 1⟩ : HdrParams).hlen ∧
    (⟨[0x48], 1⟩ : HdrParams).hlen ≤ (List.replicate 2058 (0 : Byte)).length ∧
    (List.replicate 2058 (0 : Byte)).take 1 ≠ [0x48] ∧ (List.replicate 2058 (0x48 : Byte)).take 1 = [0x48] ∧
    headerValid ⟨[0x48], 2⟩ ⟨[0x62, 0x61], 6, List.replicate 256 3⟩ = true ∧
    (List.replicate 256 (3 : Word64))[255]? = some 3 := by decide +kernel

theorem witness_DecompressInvertsCompress : [(0x41 : Byte)].length < 2 ^ 64 ∧
    [(0x62 : Byte)].length ≤ (⟨[0x48], 1⟩ : HdrParams).n2 ∧ [(0x62 : Byte)].contains 0 = false := by decide

end Sys2Proof.Tests
end

section
/-! The obligations of 00_scope.md. -/

namespace Sys2Proof.Proofs
open Sys2Proof.Machine

/-- Settles O6: the law `step_command` of one step on a word, in the branch where the word decodes. -/
theorem stepRunsDecodedCommand : Obligations.StepRunsDecodedCommand := by
  intro s w i hdecode
  rw [step_command, hdecode]

end Sys2Proof.Proofs
end

section
/-! The obligations of 10_state.md: the invariant, what every step keeps, the stops, and reset. -/

namespace Sys2Proof.Proofs
open Sys2Proof.Machine

/-! ## Reset (R44) -/

theorem reset_entry (a : Byte) : State.reset.entry a = SymbolEntry.empty := by
  simp [State.entry, State.reset]

/-- The invariant at reset, whatever the two port fields hold: it does not speak of them. -/
theorem inv_reset (inbox : List HostInput) (rsp : Option Response) :
    State.Inv { State.reset with inbox := inbox, rsp := rsp } where
  codeLength a := by
    show (State.reset.entry a).code.length = (State.reset.entry a).len.toNat
    rw [reset_entry]
    rfl
  rootState := ⟨fun _ => rfl, fun _ => rfl⟩
  bufferBits := Nat.zero_lt_one
  outCount := rfl
  loadIndex := Nat.zero_le _
  faultPhase := ⟨fun _ => nofun, fun _ => rfl⟩
  noInfo _ := rfl
  emptyTable _ a := congrArg SymbolEntry.freq (reset_entry a)
  notLoading _ := rfl
  loading := nofun
  loaded := nofun
  noTree _ := rfl
  noCodes _ a := congrArg SymbolEntry.code (reset_entry a)
  tree := nofun
  codes := nofun
  quiet _ := ⟨rfl, rfl, rfl, rfl⟩
  noBits _ _ := rfl
  unpacking := nofun
  complete := nofun
  unpackCount := nofun

/-- Settles O46: `inv_reset` with the ports of the reset state. -/
theorem resetMeetsInvariant : Obligations.ResetMeetsInvariant := inv_reset [] none

/-- CLR passes the checks in every phase. -/
theorem exec_clr (s : State) :
    exec .clr s = .next { State.reset with inbox := s.inbox, rsp := some .ack } := by
  simp only [exec, execClr]
  by_cases hp : s.phase = .error
  · rw [guarded_error_runs hp rfl]
    rfl
  · rw [guarded_legal hp rfl rfl]
    rfl

/-- Settles O8: every field of the reset state, read off its definition, and CLR, which runs in every phase. -/
theorem resetState : Obligations.ResetState := by
  refine ⟨fun a => ?_, fun n hn => ?_, rfl, rfl, rfl, rfl, rfl, rfl, rfl, rfl, rfl, rfl, rfl, rfl, rfl, fun s => ?_⟩
  · rw [reset_entry]
    exact ⟨rfl, rfl, rfl⟩
  · have hlt : n.toNat < 511 := hn
    simp [readNode, hlt, State.reset]
  · exact exec_clr s

/-- Settles O18: the three lists, computed. -/
theorem statusNumbers : Obligations.StatusNumbers := ⟨rfl, rfl, rfl⟩

/-! ## The built tree (R28, R29, R126) -/

/-- Settles O24: `BuildInv` after the 255 merges. The root alone is left in the working set, so every
other cell has its parent. -/
theorem builtTreeIsWellFormed : Obligations.BuiltTreeIsWellFormed := by
  intro fs hfs
  have hbuild := mergeMany_inv hfs 255 (Nat.le_refl _)
  obtain ⟨weight, hwork, -⟩ := build_final hfs
  show WellBuilt (mergeMany 255 (startBuild fs)).nodes
  generalize mergeMany 255 (startBuild fs) = b at hbuild hwork ⊢
  refine ⟨fun a => ?_, fun n hlo hhi => ?_, fun c hc => ?_⟩
  · exact ⟨_, hbuild.leaves a (fs[a.toNat]'(by omega)) (by simp)⟩
  · have hhi' : n.toNat ≤ 510 := hhi
    obtain ⟨l, r, w, hread, hl, hr, -⟩ := hbuild.inner n hlo (by omega)
    exact ⟨l, r, w, hread, hl, hr⟩
  · have hc' : c.toNat < 510 := hc
    refine hbuild.owned c (by omega) fun x hx hxc => ?_
    rw [hwork, List.mem_singleton] at hx
    have hroot : (Config.root).toNat = 510 := rfl
    rw [← hxc, hx, hroot] at hc'
    omega

/-- An internal node of a built tree stands in cells 256 to 510. -/
theorem internal_range {m : NodeMemory} (hm : WellBuilt m) {n l r : NodeIndex} {w : Weight}
    (h : readNode m n = .ok (.internal l r w)) : 256 ≤ n.toNat ∧ n.toNat ≤ 510 :=
  (child_lt hm (b := false) (childOf_ok_iff.2 ⟨l, r, w, h, rfl⟩)).2

/-! ## What a step does to OUT and NODE (R29, R40) -/

/-- How a step that does not end the session may change OUT, OUTCNT and NODE. -/
structure Continues (s t : State) : Prop where
  grows : ∃ bytes, t.out = s.out ++ bytes ∧ t.outcnt = s.outcnt + BitVec.ofNat 64 bytes.length
  tree : t.node = s.node ∨ s.phase.unbuilt ∧ t.phase = .tree

/-- A step that writes none of OUT, OUTCNT and NODE continues the session. -/
theorem continues_of_frame {s t : State} (ho : t.out = s.out) (hc : t.outcnt = s.outcnt) (hn : t.node = s.node) :
    Continues s t :=
  ⟨⟨[], by simp [ho], by simp [hc]⟩, .inl hn⟩

/-- The checks before a rule write none of the three fields, so only the rule itself matters. -/
theorem guarded_continues {i : Instr} {body : State → Result} {s t : State} (h : guarded i body s = .next t)
    (hbody : admission i s.phase = .runs → body s = .next t → Continues s t) : Continues s t := by
  rcases guarded_next_cases h with ⟨hadm, hrun⟩ | ⟨-, rfl⟩ | ⟨-, c, -, rfl⟩
  · exact hbody hadm hrun
  · exact continues_of_frame rfl rfl rfl
  · exact continues_of_frame rfl rfl rfl

/-- A command other than CLR and RDR runs its rule only where the phase table allows it. -/
theorem legal_of_runs {i : Instr} {p : Phase} (hi : runsInError i = false) (h : admission i p = .runs) :
    p ≠ .error ∧ legalIn i p = true := by
  rcases admission_runs_iff.1 h with ⟨-, hr⟩ | ⟨hp, -, hl⟩
  · rw [hi] at hr
    cases hr
  · exact ⟨hp, hl⟩

theorem unbuilt_of_bld {p : Phase} (h : legalIn .bld p = true) : p.unbuilt = true := by
  cases p <;> simp_all [legalIn, Phase.unbuilt]

theorem flushBits_empty {s : State} (h : s.cnt = 0) : flushBits s = s := if_pos h

theorem flushBits_waiting {s : State} (h : s.cnt ≠ 0) :
    flushBits s = { s.emitByte (paddedByte s.acc s.cnt) with acc := 0, cnt := 0 } := if_neg h

/-- A command appends to OUT and writes NODE in no other way than BLD does, or is CLR. -/
theorem exec_continues {i : Instr} {s t : State} (h : exec i s = .next t) :
    Continues s t ∨ t = { State.reset with inbox := t.inbox, rsp := t.rsp } := by
  cases i with
  | clr =>
    rw [exec_clr] at h
    cases h
    exact .inr rfl
  | recb | uex | rdf | rdl | rdc =>
    simp only [exec, execRec, execUex, execRdf, execRdl, execRdc] at h
    refine .inl (guarded_continues h fun _ hrun => ?_)
    cases hrun
    exact continues_of_frame rfl rfl rfl
  | ldf | uend | rdr =>
    simp only [exec, execLdf, execUend, execRdr] at h
    refine .inl (guarded_continues h fun _ hrun => ?_)
    split at hrun <;> cases hrun <;> exact continues_of_frame rfl rfl rfl
  | bld =>
    simp only [exec, execBld] at h
    refine .inl (guarded_continues h fun hadm hrun => ?_)
    cases hrun
    exact ⟨⟨[], by simp⟩, .inr ⟨unbuilt_of_bld (legal_of_runs rfl hadm).2, rfl⟩⟩
  | asg =>
    simp only [exec, execAsg] at h
    refine .inl (guarded_continues h fun _ hrun => ?_)
    obtain ⟨st, -, rfl⟩ := map_ok_iff.1 (finish_next_iff.1 hrun)
    exact continues_of_frame rfl rfl rfl
  | pkb a =>
    simp only [exec, execPkb] at h
    refine .inl (guarded_continues h fun _ hrun => ?_)
    obtain ⟨c, -, rfl⟩ := map_ok_iff.1 (finish_next_iff.1 hrun)
    obtain ⟨bytes, hframe⟩ := appendBits_frame s c
    rw [hframe]
    exact ⟨⟨bytes, rfl, rfl⟩, .inl rfl⟩
  | pkf =>
    simp only [exec, execPkf] at h
    refine .inl (guarded_continues h fun _ hrun => ?_)
    cases hrun
    by_cases hc : s.cnt = 0
    · rw [flushBits_empty hc]
      exact continues_of_frame rfl rfl rfl
    · rw [flushBits_waiting hc]
      exact ⟨⟨[paddedByte s.acc s.cnt], rfl, rfl⟩, .inl rfl⟩
  | upb a =>
    simp only [exec, execUpb] at h
    refine .inl (guarded_continues h fun _ hrun => ?_)
    split at hrun
    · cases hrun
      exact continues_of_frame rfl rfl rfl
    · obtain ⟨u, hu, rfl⟩ := map_ok_iff.1 (finish_next_iff.1 hrun)
      obtain ⟨bytes, hframe⟩ := unpackBits_frame hu
      rw [endByte_eq, hframe]
      exact ⟨⟨bytes, rfl, rfl⟩, .inl rfl⟩

/-- A step continues the session, or is a CLR or a reset. -/
theorem step_continues {s t : State} (h : step s = .next t) :
    Continues s t ∨ t = { State.reset with inbox := t.inbox, rsp := t.rsp } := by
  rcases step_cases h with ⟨-, rfl⟩ | ⟨s1, x, rfl, ⟨-, rfl⟩ | ⟨w, -, ⟨i, -, hexec⟩ | ⟨e, -, rfl⟩⟩⟩
  · exact .inl (continues_of_frame rfl rfl rfl)
  · exact .inr rfl
  · rcases exec_continues hexec with ⟨hgrows, htree⟩ | hreset
    · exact .inl ⟨hgrows, htree⟩
    · exact .inr hreset
  · rcases rejectWord_cases e w s1 with ⟨-, hr⟩ | ⟨-, c, -, hr⟩ <;> rw [hr] <;>
      exact .inl (continues_of_frame rfl rfl rfl)

/-- Settles O50, by `step_continues`. -/
theorem treeIsNeverMutated : Obligations.TreeIsNeverMutated := by
  intro s t h hnode
  rcases step_continues h with hcont | hreset
  · exact .inl (hcont.tree.resolve_left hnode)
  · exact .inr hreset

/-- Settles O52, by `step_continues`. -/
theorem outputOnlyGrows : Obligations.OutputOnlyGrows := by
  intro s t h
  rcases step_continues h with hcont | hreset
  · exact .inl hcont.grows
  · exact .inr hreset

/-! ## Where the machine stops (logs 5, 6, 7) -/

/-- The walk from a node that is its own left child uses up every depth. -/
theorem walk_selfLoop {m : NodeMemory} {n r : NodeIndex} {w : Weight}
    (h : readNode m n = .ok (.internal n r w)) (depth : Nat) (path : BitString) (st : SymbolTable) :
    walk m depth n path st = .error .codeTooLong := by
  induction depth generalizing path with
  | zero => rfl
  | succ depth ih => simp only [walk, h, ih]

/-- The walk stops at a node that cannot be read. -/
theorem walk_noNode {m : NodeMemory} {n : NodeIndex} {f : Fault} (h : readNode m n = .error f)
    (depth : Nat) (path : BitString) (st : SymbolTable) : walk m (depth + 1) n path st = .error f := by
  simp only [walk, h]

/-- In TREE, ASG stops where its walk does. -/
theorem execAsg_stops {s : State} {f : Fault} (hp : s.phase = .tree) (h : assignCodes s.node s.st = .error f) :
    exec .asg s = .fault f := by
  simp only [exec, execAsg]
  rw [guarded_legal (by simp [hp]) rfl (by simp [legalIn, hp]), finish_fault_iff, h]
  rfl

/-- In UNPACK with symbols still to come, UPB stops where its first bit finds no child. -/
theorem execUpb_stops {s : State} {a : Byte} {f : Fault} (hp : s.phase = .unpack) (hemit : s.emit ≠ s.size)
    (h : ∀ b, childOf s.node s.tp b = .error f) : exec (.upb a) s = .fault f := by
  simp only [exec, execUpb]
  rw [guarded_legal (by simp [hp]) rfl (by simp [legalIn, hp]), if_neg (by simp [hp]), finish_fault_iff]
  simp [byteBits, unpackBits, unpackBit, hemit, h, Except.map]

/-- Settles O53: the first read that each command makes, or the loop of `walk_selfLoop`, gives the stop. -/
theorem stopsOutsideInvariant : Obligations.StopsOutsideInvariant := by
  refine ⟨fun s a hp hlen => ?_, fun s a hp hemit htp => ?_, fun s a sym w hp hemit hread => ?_,
    fun s hp hread => ?_, fun s r w hp hread => ?_⟩
  · have hne : s.phase ≠ .error := by rcases hp with hp | hp <;> simp [hp]
    simp only [exec, execPkb]
    rw [guarded_legal hne rfl (by simpa [legalIn] using hp), finish_fault_iff, codeBits, if_neg (by omega)]
    rfl
  · exact execUpb_stops hp hemit fun b => by simp [childOf, readNode, htp]
  · exact execUpb_stops hp hemit fun b => by simp [childOf, hread]
  · exact execAsg_stops hp (walk_noNode hread 255 [] s.st)
  · exact execAsg_stops hp (walk_selfLoop hread 256 [] s.st)

end Sys2Proof.Proofs
end

section
/-! The invariant: one lemma for each way in which a command moves it to the next phase, then the step. -/

namespace Sys2Proof.Proofs
open Sys2Proof.Machine

section Invariant
variable {s : State}

/-! ## What keeps the invariant in every phase -/

/-- The invariant does not speak of the two port fields. -/
theorem inv_ports (hi : s.Inv) (inbox : List HostInput) (rsp : Option Response) :
    State.Inv { s with inbox := inbox, rsp := rsp } := { hi with }

theorem inv_answer (hi : s.Inv) (r : Response) : (s.answer r).Inv := inv_ports hi s.inbox (some r)

/-- Fault entry: of what depends on PHASE, ERROR leaves only what FAULT holds. -/
theorem inv_raiseFault (hi : s.Inv) {c : FaultCode} (hc : c ≠ .none) (info : BitVec 16) :
    (s.raiseFault c info).Inv :=
  { hi with
    faultPhase := ⟨fun h => absurd h hc, fun h => absurd rfl h⟩
    noInfo := fun h => absurd rfl h
    emptyTable := nofun, notLoading := nofun, loading := nofun, loaded := nofun
    noTree := nofun, noCodes := nofun, tree := nofun, codes := nofun
    quiet := nofun, noBits := fun _ h => absurd rfl h
    unpacking := nofun, complete := nofun, unpackCount := nofun }

/-- The checks before a rule keep the invariant, so only the rule itself matters. -/
theorem guarded_inv {i : Instr} {body : State → Result} (hi : s.Inv)
    (hbody : admission i s.phase = .runs → ∃ t, body s = .next t ∧ t.Inv) :
    ∃ t, guarded i body s = .next t ∧ t.Inv := by
  by_cases hadm : admission i s.phase = .runs
  · obtain ⟨t, hrun, ht⟩ := hbody hadm
    exact ⟨t, by simp only [guarded, hadm, hrun], ht⟩
  · have hnext : ∃ t, guarded i body s = .next t := by
      unfold guarded
      split
      · next h => exact absurd h hadm
      · exact ⟨_, rfl⟩
      · exact ⟨_, rfl⟩
    obtain ⟨t, ht⟩ := hnext
    refine ⟨t, ht, ?_⟩
    rcases guarded_next_cases ht with ⟨h, -⟩ | ⟨-, rfl⟩ | ⟨-, c, hc, rfl⟩
    · exact absurd h hadm
    · exact inv_answer hi _
    · exact inv_raiseFault hi hc _

/-! ## Collecting frequencies -/

theorem quiet_of_unbuilt {p : Phase} (h : p.unbuilt = true) : p.quiet = true := by
  cases p <;> simp_all [Phase.unbuilt, Phase.quiet]

theorem ne_error_of_unbuilt {p : Phase} (h : p.unbuilt = true) : p ≠ .error := by
  rintro rfl
  cases h

/-- Before a build no bits wait. -/
theorem cnt_of_unbuilt (hi : s.Inv) (hu : s.phase.unbuilt) : s.cnt = 0 := by
  refine hi.noBits ?_ (ne_error_of_unbuilt hu)
  intro h
  rw [h] at hu
  cases hu

/-- Before a build a command may write a frequency, SIZE and LDX: what LDX and the frequencies are is
then all that the next phase, COUNT, LOAD or TABLE, asks for. -/
theorem inv_setFrequency (hi : s.Inv) (hu : s.phase.unbuilt) (a : Byte) (f size : Word64) {ldx : BitVec 9}
    {p : Phase} (hp : p = .count ∨ p = .load ∨ p = .table) (hldx : ldx ≤ 256) (hcount : p = .count → ldx = 0)
    (hload : p = .load → 1 ≤ ldx ∧ ldx ≤ 255 ∧
      ∀ b : Byte, ldx ≤ b.setWidth 9 → ((s.setEntry a { s.entry a with freq := f }).entry b).freq = 0)
    (htable : p = .table → ldx = 256) :
    State.Inv { s.setEntry a { s.entry a with freq := f } with size := size, ldx := ldx, phase := p } := by
  have hne := ne_error_of_unbuilt hu
  have hcnt := cnt_of_unbuilt hi hu
  have hcode : ∀ b, ((s.setEntry a { s.entry a with freq := f }).entry b).code = (s.entry b).code ∧
      ((s.setEntry a { s.entry a with freq := f }).entry b).len = (s.entry b).len := by
    intro b
    rw [entry_setEntry]
    split
    · next h => subst h; exact ⟨rfl, rfl⟩
    · exact ⟨rfl, rfl⟩
  rcases hp with rfl | rfl | rfl <;> exact { hi with
    codeLength := fun b => (congrArg List.length (hcode b).1).trans
      ((hi.codeLength b).trans (congrArg BitVec.toNat (hcode b).2.symm))
    loadIndex := hldx
    faultPhase := ⟨fun _ => nofun, fun _ => hi.faultPhase.2 hne⟩
    noInfo := fun _ => hi.noInfo hne
    emptyTable := nofun
    notLoading := fun h => hcount (h.resolve_left nofun)
    loading := hload
    loaded := htable
    noTree := fun _ => hi.noTree hu
    noCodes := fun _ b => (hcode b).1.trans (hi.noCodes (.inl hu) b)
    tree := nofun, codes := nofun
    quiet := fun _ => hi.quiet (quiet_of_unbuilt hu)
    noBits := fun _ _ => hcnt
    unpacking := nofun, complete := nofun, unpackCount := nofun }

theorem exec_recb_inv (hi : s.Inv) (a : Byte) : ∃ t, exec (.recb a) s = .next t ∧ t.Inv := by
  simp only [exec, execRec]
  refine guarded_inv hi fun hadm => ⟨_, rfl, inv_answer ?_ .ack⟩
  have hp : s.phase = .empty ∨ s.phase = .count := by simpa [legalIn] using (legal_of_runs rfl hadm).2
  have hu : s.phase.unbuilt = true := by rcases hp with hp | hp <;> rw [hp] <;> rfl
  exact inv_setFrequency hi hu a _ _ (.inl rfl) hi.loadIndex (fun _ => hi.notLoading hp) nofun nofun

theorem exec_ldf_inv (hi : s.Inv) (a : Byte) (d : Word64) : ∃ t, exec (.ldf a d) s = .next t ∧ t.Inv := by
  simp only [exec, execLdf]
  refine guarded_inv hi fun hadm => ?_
  have hp : s.phase = .empty ∨ s.phase = .load := by simpa [legalIn] using (legal_of_runs rfl hadm).2
  have hu : s.phase.unbuilt = true := by rcases hp with hp | hp <;> rw [hp] <;> rfl
  split
  · exact ⟨_, rfl, inv_raiseFault hi (by simp) _⟩
  · next horder =>
    have ha : a.setWidth 9 = s.ldx := Decidable.not_not.1 horder
    have hlt : s.ldx ≤ 255 := by rw [← ha]; bv_omega
    have hldx : s.ldx + 1 ≤ 256 := by bv_omega
    refine ⟨_, rfl, inv_answer ?_ .ack⟩
    by_cases hlast : s.ldx + 1 = 256
    · simp only [setEntry_ldx, hlast, reduceIte]
      exact inv_setFrequency hi hu a d s.size (.inr (.inr rfl)) (by simp) nofun nofun fun _ => rfl
    · simp only [setEntry_ldx, hlast, reduceIte]
      refine inv_setFrequency hi hu a d s.size (.inr (.inl rfl)) hldx nofun (fun _ => ⟨?_, ?_, ?_⟩) nofun
      · bv_omega
      · bv_omega
      · intro b hb
        have hzero : s.ldx ≤ b.setWidth 9 → (s.entry b).freq = 0 := by
          rcases hp with hp | hp
          · exact fun _ => hi.emptyTable hp b
          · exact (hi.loading hp).2.2 b
        have hab : b ≠ a := by
          rintro rfl
          bv_omega
        rw [entry_setEntry, if_neg hab]
        exact hzero (by bv_omega)

/-! ## Building the tree and assigning the codes -/

/-- Stated for any node memory `m`: nothing may evaluate a build. -/
theorem inv_build (hi : s.Inv) (hu : s.phase.unbuilt) {m : NodeMemory} (hm : m = buildTree (frequencies s.st)) :
    State.Inv { s with node := m, phase := .tree } :=
  have hne := ne_error_of_unbuilt hu
  have hcnt := cnt_of_unbuilt hi hu
  { hi with
    faultPhase := ⟨fun _ => nofun, fun _ => hi.faultPhase.2 hne⟩
    noInfo := fun _ => hi.noInfo hne
    emptyTable := nofun, notLoading := nofun, loading := nofun, loaded := nofun
    noTree := nofun
    noCodes := fun _ => hi.noCodes (.inl hu)
    tree := fun _ => hm
    codes := nofun
    quiet := fun _ => hi.quiet (quiet_of_unbuilt hu)
    noBits := fun _ _ => hcnt
    unpacking := nofun, complete := nofun, unpackCount := nofun }

theorem exec_bld_inv (hi : s.Inv) : ∃ t, exec .bld s = .next t ∧ t.Inv := by
  simp only [exec, execBld]
  refine guarded_inv hi fun hadm => ⟨_, rfl, inv_answer ?_ .ack⟩
  exact inv_build hi (unbuilt_of_bld (legal_of_runs rfl hadm).2) (Eq.refl _)

theorem ne_error_of_built {p : Phase} (h : p.built = true) : p ≠ .error := by
  rintro rfl
  cases h

theorem built_of_coded {p : Phase} (h : p.coded = true) : p.built = true := by
  cases p <;> simp_all [Phase.coded, Phase.built]

/-- Under the invariant the node memory is a tree once BLD has run. -/
theorem wellBuilt_of_inv (hi : s.Inv) (hb : s.phase.built) : WellBuilt s.node := by
  rw [hi.tree hb]
  exact builtTreeIsWellFormed _ (frequencies_length _)

/-- On a built tree the walk gives every symbol its path and its length, and keeps the frequencies. -/
theorem assignCodes_paths (hm : WellBuilt s.node) :
    ∃ st, assignCodes s.node s.st = .ok st ∧ frequencies st = frequencies s.st ∧
      ∀ a, (tableGet st (symbolIndex a)).code.length = (tableGet st (symbolIndex a)).len.toNat ∧
        followPath s.node Config.root (tableGet st (symbolIndex a)).code = .ok (leafIndex a) := by
  obtain ⟨st, hst, hentry⟩ := assignCodes_spec hm s.st
  refine ⟨st, hst, walk_frequencies 256 _ _ _ _ hst, fun a => ?_⟩
  obtain ⟨c, hpath, hlen, -, heq⟩ := hentry a
  rw [heq]
  refine ⟨?_, hpath⟩
  simp only [codedEntry, BitVec.toNat_ofNat]
  omega

theorem exec_asg_inv (hi : s.Inv) : ∃ t, exec .asg s = .next t ∧ t.Inv := by
  simp only [exec, execAsg]
  refine guarded_inv hi fun hadm => ?_
  have hp : s.phase = .tree := by simpa [legalIn] using (legal_of_runs rfl hadm).2
  have hne : s.phase ≠ .error := by simp [hp]
  have hb : s.phase.built = true := by rw [hp]; rfl
  obtain ⟨st, hst, hfreq, hentry⟩ := assignCodes_paths (wellBuilt_of_inv hi hb)
  refine ⟨_, finish_next_iff.2 (map_ok_iff.2 ⟨st, hst, rfl⟩), inv_answer ?_ .ack⟩
  exact { hi with
    codeLength := fun a => (hentry a).1
    faultPhase := ⟨fun _ => nofun, fun _ => hi.faultPhase.2 hne⟩
    noInfo := fun _ => hi.noInfo hne
    emptyTable := nofun, notLoading := nofun, loading := nofun, loaded := nofun
    noTree := nofun, noCodes := nofun
    tree := fun _ => (hi.tree hb).trans (congrArg buildTree hfreq.symm)
    codes := fun _ a => (hentry a).2
    quiet := fun _ => hi.quiet (by rw [hp]; rfl)
    noBits := fun _ _ => hi.noBits (by simp [hp]) hne
    unpacking := nofun, complete := nofun, unpackCount := nofun }

/-! ## Packing -/

/-- The session packs: the bits and bytes may move on as long as the buffer stays clean and OUTCNT counts,
and only in PACK may bits be left waiting. -/
theorem inv_pack (hi : s.Inv) (hc : s.phase.coded) {out : List Byte} {outcnt incnt : Word64} {acc : Byte}
    {cnt : BitVec 3} {p : Phase} (hp : p = .pack ∨ p = .packed) (hbuffer : acc.toNat < 2 ^ cnt.toNat)
    (hcount : outcnt = BitVec.ofNat 64 out.length) (hcnt : p ≠ .pack → cnt = 0) :
    State.Inv { s with
      out := out, outcnt := outcnt, acc := acc, cnt := cnt, incnt := incnt, phase := p } := by
  have hb := built_of_coded hc
  have hne := ne_error_of_built hb
  rcases hp with rfl | rfl <;> exact { hi with
    bufferBits := hbuffer
    outCount := hcount
    faultPhase := ⟨fun _ => nofun, fun _ => hi.faultPhase.2 hne⟩
    noInfo := fun _ => hi.noInfo hne
    emptyTable := nofun, notLoading := nofun, loading := nofun, loaded := nofun
    noTree := nofun, noCodes := nofun
    tree := fun _ => hi.tree hb
    codes := fun _ => hi.codes hc
    quiet := nofun
    noBits := fun h _ => hcnt h
    unpacking := nofun, complete := nofun, unpackCount := nofun }

/-- PKF, and PKB with the same row of the phase table, are legal only where every symbol has its code. -/
theorem coded_of_pkf {p : Phase} (h : legalIn .pkf p = true) : p.coded = true := by
  cases p <;> simp_all [legalIn, Phase.coded]

theorem exec_pkb_inv (hi : s.Inv) (a : Byte) : ∃ t, exec (.pkb a) s = .next t ∧ t.Inv := by
  simp only [exec, execPkb]
  refine guarded_inv hi fun hadm => ?_
  have hc : s.phase.coded = true := coded_of_pkf (legal_of_runs (i := .pkb a) rfl hadm).2
  have hbits : codeBits (s.entry a) = .ok _ := if_pos (hi.codeLength a).ge
  refine ⟨_, finish_next_iff.2 (map_ok_iff.2 ⟨_, hbits, rfl⟩), inv_answer ?_ .ack⟩
  obtain ⟨bytes, hframe, -, hbuffer⟩ := appendBits_spec s ((s.entry a).code.take (s.entry a).len.toNat) hi.bufferBits
  generalize appendBits s _ = u at hframe hbuffer
  have hcount : s.outcnt + BitVec.ofNat 64 bytes.length = BitVec.ofNat 64 (s.out ++ bytes).length := by
    rw [hi.outCount, List.length_append, BitVec.ofNat_add]
  have hinv := inv_pack (incnt := s.incnt + 1) hi hc (.inl rfl) hbuffer hcount fun h => absurd rfl h
  rw [hframe]
  exact hinv

/-- The flush leaves the buffer empty, and OUTCNT counts the byte it delivers. -/
theorem flushBits_spec (hi : s.Inv) :
    ∃ (out : List Byte) (outcnt : Word64) (acc : Byte),
      flushBits s = { s with out := out, outcnt := outcnt, acc := acc, cnt := 0 } ∧
        outcnt = BitVec.ofNat 64 out.length ∧ acc.toNat < 2 ^ 0 := by
  by_cases hc : s.cnt = 0
  · refine ⟨s.out, s.outcnt, s.acc, ?_, hi.outCount, ?_⟩
    · rw [flushBits_empty hc, ← hc]
    · simpa [hc] using hi.bufferBits
  · refine ⟨_, _, _, flushBits_waiting hc, ?_, Nat.zero_lt_one⟩
    simp [hi.outCount, BitVec.ofNat_add]

theorem exec_pkf_inv (hi : s.Inv) : ∃ t, exec .pkf s = .next t ∧ t.Inv := by
  simp only [exec, execPkf]
  refine guarded_inv hi fun hadm => ⟨_, rfl, inv_answer ?_ .ack⟩
  have hc := coded_of_pkf (legal_of_runs rfl hadm).2
  obtain ⟨out, outcnt, acc, hflush, hcount, hbuffer⟩ := flushBits_spec hi
  rw [hflush]
  exact inv_pack hi hc (.inr rfl) hbuffer hcount fun _ => rfl

/-! ## Unpacking -/

/-- The session unpacks: what UNPACK and DONE ask of the pointer and the counters is all that UEX and UPB
have to show. -/
theorem inv_unpack (hi : s.Inv) (hb : s.phase.built) (hc : s.cnt = 0) {out : List Byte}
    {size incnt outcnt emit : Word64} {tp : NodeIndex} {ust : Ust} {p : Phase} (hp : p = .unpack ∨ p = .done)
    (hroot : ust = .atRoot ↔ tp = 510) (hout : outcnt = BitVec.ofNat 64 out.length) (hemit : outcnt = emit)
    (hun : p = .unpack → emit < size ∧ ∃ l r w, readNode s.node tp = .ok (.internal l r w))
    (hdone : p = .done → emit = size ∧ tp = 510) :
    State.Inv { s with
      out := out, size := size, incnt := incnt, outcnt := outcnt, emit := emit, tp := tp, ust := ust,
      phase := p } := by
  have hne := ne_error_of_built hb
  rcases hp with rfl | rfl <;> exact { hi with
    rootState := hroot
    outCount := hout
    faultPhase := ⟨fun _ => nofun, fun _ => hi.faultPhase.2 hne⟩
    noInfo := fun _ => hi.noInfo hne
    emptyTable := nofun, notLoading := nofun, loading := nofun, loaded := nofun
    noTree := nofun, noCodes := nofun
    tree := fun _ => hi.tree hb
    codes := nofun, quiet := nofun
    noBits := fun _ _ => hc
    unpacking := hun
    complete := hdone
    unpackCount := fun _ => hemit }

/-- A cell from 256 to 510 of a built tree is internal. -/
theorem read_internal {m : NodeMemory} (hm : WellBuilt m) {n : NodeIndex} (hlo : 256 ≤ n) (hhi : n ≤ 510) :
    ∃ l r w, readNode m n = .ok (.internal l r w) := by
  obtain ⟨l, r, w, h, -⟩ := hm.internals n hlo hhi
  exact ⟨l, r, w, h⟩

theorem exec_uex_inv (hi : s.Inv) (d : Word64) : ∃ t, exec (.uex d) s = .next t ∧ t.Inv := by
  simp only [exec, execUex]
  refine guarded_inv hi fun hadm => ⟨_, rfl, inv_answer ?_ .ack⟩
  have hp : s.phase = .tree ∨ s.phase = .codes := by simpa [legalIn] using (legal_of_runs rfl hadm).2
  have hb : s.phase.built = true := by rcases hp with hp | hp <;> rw [hp] <;> rfl
  have hq : s.phase.quiet = true := by rcases hp with hp | hp <;> rw [hp] <;> rfl
  have hcnt : s.cnt = 0 := hi.noBits (by rcases hp with hp | hp <;> simp [hp]) (legal_of_runs rfl hadm).1
  have hzero : s.outcnt = 0 := by
    rw [hi.outCount, (hi.quiet hq).1]
    rfl
  refine inv_unpack hi hb hcnt ?_ ⟨fun _ => rfl, fun _ => rfl⟩ hi.outCount hzero ?_ ?_
  · split <;> simp
  · intro h
    have hd : d ≠ 0 := by
      rintro rfl
      cases h
    exact ⟨by bv_omega, read_internal (wellBuilt_of_inv hi hb) (by decide) (by decide)⟩
  · intro h
    refine ⟨?_, rfl⟩
    by_contra hd
    rw [if_neg (Ne.symm hd)] at h
    cases h

/-- Once all the symbols asked for have been spelled, the last of them has led back to the root. -/
theorem spelled_all_root {m : NodeMemory} {n n' : NodeIndex} {k : Nat} {c : BitString} {syms : List Byte}
    (h : spelled m n k c = some (syms, n')) (hk : 0 < k) (hall : syms.length = k) : n' = Config.root := by
  induction c generalizing n k syms with
  | nil =>
    rw [spelled_nil] at h
    cases h
    simp at hall
    omega
  | cons b bs ih =>
    obtain ⟨k, rfl⟩ : ∃ j, k = j + 1 := ⟨k - 1, by omega⟩
    simp only [spelled] at h
    split at h
    · cases h
    · split at h
      · cases h
      · obtain ⟨r, hr, he⟩ := Option.map_eq_some_iff.1 h
        cases he
        have hlen : r.1.length = k := by simpa using hall
        by_cases hk0 : k = 0
        · rw [hk0, spelled_zero] at hr
          cases hr
          rfl
        · exact ih hr (by omega) hlen
      · exact ih h hk hall

theorem exec_upb_inv (hi : s.Inv) (a : Byte) : ∃ t, exec (.upb a) s = .next t ∧ t.Inv := by
  simp only [exec, execUpb]
  refine guarded_inv hi fun hadm => ?_
  split
  · exact ⟨_, rfl, inv_answer hi .ack⟩
  · next hdone =>
    have hp : s.phase = .unpack := by
      have := (legal_of_runs rfl hadm).2
      simp only [legalIn, Bool.or_eq_true, beq_iff_eq] at this
      exact this.resolve_right hdone
    have hb : s.phase.built = true := by rw [hp]; rfl
    have hm := wellBuilt_of_inv hi hb
    have hcnt : s.cnt = 0 := hi.noBits (by simp [hp]) (by simp [hp])
    have hcount := hi.unpackCount (.inl hp)
    obtain ⟨hlt, l, r, w, hread⟩ := hi.unpacking hp
    obtain ⟨hlo, hhi⟩ := internal_range hm hread
    obtain ⟨syms, n, hsp, hnlo, hnhi, hrun⟩ :=
      unpackBits_spec hm (byteBits a) { s with incnt := s.incnt + 1 } rfl hlo hhi hi.rootState
    refine ⟨_, finish_next_iff.2 (map_ok_iff.2 ⟨_, hrun, rfl⟩), inv_answer ?_ .ack⟩
    rw [endByte_eq]
    have hlen := (spelled_length hsp).1
    have hbits := (spelled_length hsp).2
    rw [byteBits_length] at hbits
    dsimp only at hsp hlen ⊢
    rw [hp]
    refine inv_unpack hi hb hcnt ?_ ?_ ?_ (by rw [hcount]) ?_ ?_
    · split <;> simp
    · split <;> simp_all
    · rw [hi.outCount, List.length_append, BitVec.ofNat_add]
    · intro h
      have hne : s.emit + BitVec.ofNat 64 syms.length ≠ s.size := by
        intro he
        rw [if_pos he] at h
        cases h
      exact ⟨by bv_omega, read_internal hm hnlo hnhi⟩
    · intro h
      have he : s.emit + BitVec.ofNat 64 syms.length = s.size := by
        by_contra he
        rw [if_neg he] at h
        cases h
      exact ⟨he, spelled_all_root hsp (by bv_omega) (by bv_omega)⟩

/-! ## The step -/

/-- Under the invariant every command has a next state, with the invariant. -/
theorem exec_inv (hi : s.Inv) (i : Instr) : ∃ t, exec i s = .next t ∧ t.Inv := by
  cases i with
  | clr => exact ⟨_, exec_clr s, inv_reset s.inbox (some .ack)⟩
  | recb a => exact exec_recb_inv hi a
  | ldf a d => exact exec_ldf_inv hi a d
  | bld => exact exec_bld_inv hi
  | asg => exact exec_asg_inv hi
  | pkb a => exact exec_pkb_inv hi a
  | pkf => exact exec_pkf_inv hi
  | uex d => exact exec_uex_inv hi d
  | upb a => exact exec_upb_inv hi a
  | uend =>
    simp only [exec, execUend]
    refine guarded_inv hi fun _ => ?_
    split
    · exact ⟨_, rfl, inv_raiseFault hi (by simp) _⟩
    · exact ⟨_, rfl, inv_answer hi .ack⟩
  | rdr a =>
    simp only [exec, execRdr]
    refine guarded_inv hi fun _ => ?_
    split
    · exact ⟨_, rfl, inv_answer hi _⟩
    · exact ⟨_, rfl, inv_raiseFault hi (by simp) _⟩
  | rdf | rdl | rdc =>
    simp only [exec, execRdf, execRdl, execRdc]
    exact guarded_inv hi fun _ => ⟨_, rfl, inv_answer hi _⟩

/-- A state whose INBOX is not empty is another one that has been given an input. -/
theorem inbox_cases (s : State) : s.inbox = [] ∨ ∃ (s1 : State) (x : HostInput), s = s1.given x := by
  cases hs : s.inbox with
  | nil => exact .inl rfl
  | cons x rest =>
    refine .inr ⟨{ s with inbox := rest }, x, ?_⟩
    cases s
    cases hs
    rfl

/-- Under the invariant every step has a next state, with the invariant. -/
theorem step_inv (hi : s.Inv) : ∃ t, step s = .next t ∧ t.Inv := by
  rcases inbox_cases s with hin | ⟨s1, x, rfl⟩
  · exact ⟨s, by simp only [step, fetch, hin], hi⟩
  · have hi1 : s1.Inv := inv_ports hi s1.inbox s1.rsp
    cases x with
    | reset => exact ⟨_, step_resetInput s1, inv_reset s1.inbox none⟩
    | command w =>
      rw [step_command]
      cases decode w with
      | ok i => exact exec_inv hi1 i
      | error e =>
        refine ⟨_, rfl, ?_⟩
        rcases rejectWord_cases e w s1 with ⟨-, hr⟩ | ⟨-, c, hc, hr⟩ <;> rw [hr]
        · exact inv_answer hi1 _
        · exact inv_raiseFault hi1 hc _

end Invariant

/-- Settles O47, by `step_inv`: a step has one next state. -/
theorem stepKeepsInvariant : Obligations.StepKeepsInvariant := by
  intro s t hi h
  obtain ⟨u, hu, hinv⟩ := step_inv hi
  rw [h] at hu
  cases hu
  exact hinv

/-- Settles O48, by `step_inv`. -/
theorem invariantNeverStops : Obligations.InvariantNeverStops := by
  intro s hi
  obtain ⟨t, ht, -⟩ := step_inv hi
  exact ⟨t, ht⟩

end Sys2Proof.Proofs
end

section
/-! What the read commands RDR, RDF, RDL and RDC may write (20_memory.md R66). -/

namespace Sys2Proof.Proofs
open Sys2Proof.Machine

/-- `t` is `s` with at most another response, or `s` after a fault. -/
def RepliesOnly (s t : State) : Prop := t = { s with rsp := t.rsp } ∨ ∃ c info, t = s.raiseFault c info

theorem repliesOnly_answer (s : State) (r : Response) : RepliesOnly s (s.answer r) := .inl rfl

theorem repliesOnly_raiseFault (s : State) (c : FaultCode) (info : BitVec 16) :
    RepliesOnly s (s.raiseFault c info) := .inr ⟨c, info, rfl⟩

/-- A refusal and a fault found by the checks write nothing more, so only the rule itself matters. -/
theorem guarded_repliesOnly {i : Instr} {body : State → Result} {s t : State} (h : guarded i body s = .next t)
    (hbody : body s = .next t → RepliesOnly s t) : RepliesOnly s t := by
  rcases guarded_next_cases h with ⟨-, hrun⟩ | ⟨-, rfl⟩ | ⟨-, c, -, rfl⟩
  · exact hbody hrun
  · exact repliesOnly_answer s (.ref s.fault)
  · exact repliesOnly_raiseFault s c (finfoOf i)

/-- RDR answers the register it finds, or raises a fault. -/
theorem execRdr_repliesOnly {a : Byte} {s t : State} (h : execRdr a s = .next t) : RepliesOnly s t := by
  refine guarded_repliesOnly h fun hrun => ?_
  cases hreg : statusRegister s a with
  | some v =>
    simp only [hreg] at hrun
    cases hrun
    exact repliesOnly_answer s (.val v)
  | none =>
    simp only [hreg] at hrun
    cases hrun
    exact repliesOnly_raiseFault s .illegalOperand (finfoOf (.rdr a))

/-- A command whose rule does nothing but answer with a value of the state, as those of RDF, RDL and RDC do. -/
theorem guarded_answer_repliesOnly {i : Instr} {r : State → Response} {s t : State}
    (h : guarded i (fun s => .next (s.answer (r s))) s = .next t) : RepliesOnly s t := by
  refine guarded_repliesOnly h fun hrun => ?_
  cases hrun
  exact repliesOnly_answer s (r s)

/-- Settles O51: each read's own rule answers, or is RDR's and may raise a fault. -/
theorem readsChangeNothing : Obligations.ReadsChangeNothing := by
  rintro i s t (⟨a, rfl⟩ | ⟨a, rfl⟩ | ⟨a, rfl⟩ | ⟨a, d, rfl⟩) h
  · exact execRdr_repliesOnly h
  · exact guarded_answer_repliesOnly (r := fun s => .val (s.entry a).freq) h
  · exact guarded_answer_repliesOnly (r := fun s => .val ((s.entry a).len.setWidth 64)) h
  · exact guarded_answer_repliesOnly (r := fun s => .val (codeChunk (s.entry a).code d)) h

end Sys2Proof.Proofs
end

section
/-! The encoding obligations of 30_encoding.md (R81 to R85, R92): what the decoder answers is said once
(`decodesTo_decode`), and so is what it means for a word to match a row of the opcode table. -/

namespace Sys2Proof.Proofs
open Sys2Proof.Machine

/-! ## The decoder -/

/-- Encoding and decoding a well-formed command gives the command back: each constructor's own row of the opcode map
is taken, and its checks are passed. -/
theorem decode_encode {i : Instr} (hi : i.wellFormed = true) : decode (encode i) = .ok i := by
  unfold decode
  rw [wordOp_encode, wordA_encode, wordD_encode]
  cases i with
  | clr | bld | asg | pkf | uend => exact if_pos ⟨rfl, rfl⟩
  | recb | pkb | upb | uex | rdf | rdl => exact if_pos rfl
  | ldf => rfl
  | rdr | rdc => exact if_pos hi

/-- Settles O2, by `decode_encode`. -/
theorem decodeOfEncode : Obligations.DecodeOfEncode := fun _ hi => decode_encode hi

/-- The opcode stands in a row of the opcode table. -/
def Listed (op : Byte) : Prop := opcodeTable.any (fun r => op == wordOp r.pattern) = true

theorem listed_iff {op : Byte} :
    Listed op ↔ op ∈ ([0x01, 0x02, 0x03, 0x04, 0x05, 0x06, 0x07, 0x08, 0x09, 0x0A, 0x10, 0x11, 0x12, 0x13] : List Byte) := by
  have hops : opcodeTable.map (fun r => wordOp r.pattern) =
      [0x01, 0x02, 0x03, 0x04, 0x05, 0x06, 0x07, 0x08, 0x09, 0x0A, 0x10, 0x11, 0x12, 0x13] := rfl
  rw [← hops]
  simp only [Listed, List.any_eq_true, beq_iff_eq, List.mem_map, eq_comm (a := op)]

theorem listed_opcode (i : Instr) : Listed i.opcode := by
  cases i <;> rfl

/-- What the decoder can answer for a word: the command it is the encoding of, IllegalOperand where its opcode is in
the table, IllegalCommand where it is not (R83 to R85). -/
inductive DecodesTo (w : CommandWord) : Except DecodeError Instr → Prop where
  | command {i : Instr} (hi : i.wellFormed = true) (hw : encode i = w) : DecodesTo w (.ok i)
  | illegalOperand (hop : Listed (wordOp w)) : DecodesTo w (.error .illegalOperand)
  | illegalCommand (hop : ¬ Listed (wordOp w)) : DecodesTo w (.error .illegalCommand)

/-- A word whose fields are those of a command is its encoding. -/
theorem encode_eq {w : CommandWord} {i : Instr} (hop : wordOp w = i.opcode) (ha : i.fieldA = wordA w)
    (hd : i.fieldD = wordD w) : encode i = w := by
  rw [encode, ← hop, ha, hd, makeWord_fields]

/-- A row of the opcode map: where its check `c` passes, the word is the encoding of a well-formed command. -/
theorem decodesTo_check {w : CommandWord} {i : Instr} {c : Prop} [Decidable c] (hop : wordOp w = i.opcode)
    (hi : c → i.wellFormed = true ∧ i.fieldA = wordA w ∧ i.fieldD = wordD w) :
    DecodesTo w (if c then .ok i else .error .illegalOperand) := by
  split
  · next hc =>
    obtain ⟨hwf, ha, hd⟩ := hi hc
    exact .command hwf (encode_eq hop ha hd)
  · exact .illegalOperand (hop ▸ listed_opcode i)

theorem decodesTo_decode (w : CommandWord) : DecodesTo w (decode w) := by
  unfold decode
  split
  case h_1 h | h_4 h | h_5 h | h_7 h | h_10 h =>
    exact decodesTo_check (BitVec.eq_of_toNat_eq h) fun ⟨ha, hd⟩ => ⟨rfl, ha.symm, hd.symm⟩
  case h_2 h | h_6 h | h_9 h | h_12 h | h_13 h =>
    exact decodesTo_check (BitVec.eq_of_toNat_eq h) fun hd => ⟨rfl, rfl, hd.symm⟩
  case h_3 h => exact .command rfl (encode_eq (BitVec.eq_of_toNat_eq h) rfl rfl)
  case h_8 h => exact decodesTo_check (BitVec.eq_of_toNat_eq h) fun ha => ⟨rfl, ha.symm, rfl⟩
  case h_11 h =>
    have hop : wordOp w = (Instr.rdr (wordA w)).opcode := BitVec.eq_of_toNat_eq h
    by_cases hd : wordD w = 0
    · rw [formatA, if_pos hd]
      exact decodesTo_check hop fun ha => ⟨ha, rfl, hd.symm⟩
    · rw [formatA, if_neg hd]
      exact .illegalOperand (hop ▸ listed_opcode _)
  case h_14 h => exact decodesTo_check (BitVec.eq_of_toNat_eq h) fun hd => ⟨hd, rfl, rfl⟩
  case h_15 =>
    refine .illegalCommand fun hop => ?_
    rw [listed_iff] at hop
    simp_all [← BitVec.toNat_inj]

/-- Settles O3, by `decodesTo_decode`. -/
theorem encodeOfDecode : Obligations.EncodeOfDecode := by
  intro w i h
  have hw := decodesTo_decode w
  rw [h] at hw
  cases hw with
  | command hi hw => exact ⟨hi, hw⟩

/-! ## The opcode table -/

theorem wordOp_and (v w : CommandWord) : wordOp (v &&& w) = wordOp v &&& wordOp w := BitVec.extractLsb'_and

theorem wordA_and (v w : CommandWord) : wordA (v &&& w) = wordA v &&& wordA w := BitVec.extractLsb'_and

theorem wordD_and (v w : CommandWord) : wordD (v &&& w) = wordD v &&& wordD w := BitVec.extractLsb'_and

/-- A word matches a row field by field (R84). -/
theorem matches_iff {r : OpcodeRow} {w : CommandWord} :
    r.matches w = true ↔ wordOp w &&& wordOp r.mask = wordOp r.pattern ∧
      wordA w &&& wordA r.mask = wordA r.pattern ∧ wordD w &&& wordD r.mask = wordD r.pattern := by
  rw [← wordOp_and, ← wordA_and, ← wordD_and, OpcodeRow.matches, beq_iff_eq]
  constructor
  · intro h
    rw [h]
    exact ⟨rfl, rfl, rfl⟩
  · rintro ⟨hop, ha, hd⟩
    exact word_ext hop ha hd

theorem byte_and_ones (x : Byte) : x &&& 0xFF#8 = x := BitVec.and_allOnes

theorem word64_and_ones (x : Word64) : x &&& 0xFFFFFFFFFFFFFFFF#64 = x := BitVec.and_allOnes

/-- The mask of RDC's field `d` leaves out the two bits that a chunk number of 0 to 3 uses (R84). -/
theorem and_chunkMask_eq_zero {d : Word64} : d &&& 0xFFFFFFFFFFFFFFFC#64 = 0#64 ↔ d ≤ 3#64 := by
  have hd := d.isLt
  have hmask : d &&& 0xFFFFFFFFFFFFFFFC#64 = d >>> 2 <<< 2 := by
    rw [BitVec.shiftLeft_ushiftRight]
    rfl
  rw [hmask, ← BitVec.toNat_inj, BitVec.le_def, BitVec.toNat_shiftLeft, BitVec.toNat_ushiftRight,
    Nat.shiftLeft_eq, Nat.shiftRight_eq_div_pow]
  show d.toNat / 2 ^ 2 * 2 ^ 2 % 2 ^ 64 = 0 ↔ d.toNat ≤ 3
  omega

/-- The rows of the opcode table, by the fields of the words that match them (R82, R84). -/
theorem matches_row_iff {w : CommandWord} :
    opcodeTable.any (·.matches w) = true ↔
      (wordOp w = 0x01 ∧ wordA w = 0 ∧ wordD w = 0) ∨ (wordOp w = 0x02 ∧ wordD w = 0) ∨ wordOp w = 0x03 ∨
      (wordOp w = 0x04 ∧ wordA w = 0 ∧ wordD w = 0) ∨ (wordOp w = 0x05 ∧ wordA w = 0 ∧ wordD w = 0) ∨
      (wordOp w = 0x06 ∧ wordD w = 0) ∨ (wordOp w = 0x07 ∧ wordA w = 0 ∧ wordD w = 0) ∨
      (wordOp w = 0x08 ∧ wordA w = 0) ∨ (wordOp w = 0x09 ∧ wordD w = 0) ∨
      (wordOp w = 0x0A ∧ wordA w = 0 ∧ wordD w = 0) ∨ (wordOp w = 0x10 ∧ wordD w = 0) ∨
      (wordOp w = 0x11 ∧ wordD w = 0) ∨ (wordOp w = 0x12 ∧ wordD w = 0) ∨ (wordOp w = 0x13 ∧ wordD w ≤ 3) := by
  simp only [opcodeTable, List.any_append, List.any_cons, List.any_nil, Bool.or_eq_true, Bool.or_false, matches_iff]
  generalize wordOp w = op, wordA w = a, wordD w = d
  simp [wordOp, wordA, wordD, byte_and_ones, word64_and_ones, and_chunkMask_eq_zero, or_assoc]

/-- The legal spellings are the encodings of the well-formed commands: row by row from left to right, constructor by
constructor from right to left (R84). -/
theorem legalSpelling_iff {w : CommandWord} :
    legalSpelling w = true ↔ ∃ i : Instr, i.wellFormed = true ∧ encode i = w := by
  simp only [legalSpelling, Bool.and_eq_true, Bool.or_eq_true, bne_iff_ne, decide_eq_true_eq]
  constructor
  · rintro ⟨hrow, hrdr⟩
    rcases matches_row_iff.1 hrow with ⟨hop, ha, hd⟩ | ⟨hop, hd⟩ | hop | ⟨hop, ha, hd⟩ | ⟨hop, ha, hd⟩ | ⟨hop, hd⟩ |
      ⟨hop, ha, hd⟩ | ⟨hop, ha⟩ | ⟨hop, hd⟩ | ⟨hop, ha, hd⟩ | ⟨hop, hd⟩ | ⟨hop, hd⟩ | ⟨hop, hd⟩ | ⟨hop, hd⟩
    · exact ⟨.clr, rfl, encode_eq hop ha.symm hd.symm⟩
    · exact ⟨.recb (wordA w), rfl, encode_eq hop rfl hd.symm⟩
    · exact ⟨.ldf (wordA w) (wordD w), rfl, encode_eq hop rfl rfl⟩
    · exact ⟨.bld, rfl, encode_eq hop ha.symm hd.symm⟩
    · exact ⟨.asg, rfl, encode_eq hop ha.symm hd.symm⟩
    · exact ⟨.pkb (wordA w), rfl, encode_eq hop rfl hd.symm⟩
    · exact ⟨.pkf, rfl, encode_eq hop ha.symm hd.symm⟩
    · exact ⟨.uex (wordD w), rfl, encode_eq hop ha.symm rfl⟩
    · exact ⟨.upb (wordA w), rfl, encode_eq hop rfl hd.symm⟩
    · exact ⟨.uend, rfl, encode_eq hop ha.symm hd.symm⟩
    · exact ⟨.rdr (wordA w), decide_eq_true (hrdr.resolve_left (absurd hop)), encode_eq hop rfl hd.symm⟩
    · exact ⟨.rdf (wordA w), rfl, encode_eq hop rfl hd.symm⟩
    · exact ⟨.rdl (wordA w), rfl, encode_eq hop rfl hd.symm⟩
    · exact ⟨.rdc (wordA w) (wordD w), decide_eq_true hd, encode_eq hop rfl rfl⟩
  · rintro ⟨i, hi, rfl⟩
    rw [matches_row_iff, wordOp_encode, wordA_encode, wordD_encode]
    cases i with
    | rdr a => exact ⟨by simp [Instr.opcode, Instr.fieldD], .inr (of_decide_eq_true hi)⟩
    | rdc a d => exact ⟨by simpa [Instr.opcode, Instr.fieldD] using of_decide_eq_true hi, .inl (by simp [Instr.opcode])⟩
    | _ => exact ⟨by simp [Instr.opcode, Instr.fieldA, Instr.fieldD], .inl (by simp [Instr.opcode])⟩

/-- The opcode bits of every mask are all 1, so a word matches only rows of its own opcode. -/
theorem wordOp_of_matches {r : OpcodeRow} {w : CommandWord} (hr : r ∈ opcodeTable) (h : r.matches w = true) :
    wordOp r.pattern = wordOp w := by
  have hmask : ∀ r ∈ opcodeTable, wordOp r.mask = 0xFF#8 := by decide
  obtain ⟨hop, -, -⟩ := matches_iff.1 h
  rw [← hop, hmask r hr, byte_and_ones]

/-- The opcodes of the rows are different, so no word matches two rows (R84). -/
theorem matching_rows_le_one (w : CommandWord) : (opcodeTable.filter (·.matches w)).length ≤ 1 := by
  have hnodup : (opcodeTable.map fun r => wordOp r.pattern).Nodup := by decide
  have hsame : (opcodeTable.filter (·.matches w)).map (fun r => wordOp r.pattern) =
      List.replicate (opcodeTable.filter (·.matches w)).length (wordOp w) := by
    refine List.eq_replicate_iff.2 ⟨List.length_map _, ?_⟩
    simp only [List.mem_map, List.mem_filter]
    rintro _ ⟨r, ⟨hr, hm⟩, rfl⟩
    exact wordOp_of_matches hr hm
  have hsub := hnodup.sublist ((List.filter_sublist (p := (·.matches w)) (l := opcodeTable)).map _)
  rw [hsame] at hsub
  exact List.nodup_replicate.1 hsub

/-! ## The words that decode to nothing -/

/-- Outside ERROR a word that does not decode raises the fault of its decode error (R240). -/
theorem step_decodeError {s : State} {w : CommandWord} {e : DecodeError} (hp : s.phase ≠ .error)
    (h : decode w = .error e) :
    step (s.given (.command w)) = .next (s.raiseFault (decodeFault e) (wordInfo w)) := by
  simp only [step_command, h, rejectWord, if_neg hp]

/-- A word that decodes is a legal spelling, and the other way round (R84). -/
theorem decodes_iff_legalSpelling (w : CommandWord) : (∃ i, decode w = .ok i) ↔ legalSpelling w = true := by
  rw [legalSpelling_iff]
  constructor
  · rintro ⟨i, h⟩
    exact ⟨i, encodeOfDecode w i h⟩
  · rintro ⟨i, hi, rfl⟩
    exact ⟨i, decode_encode hi⟩

/-- Settles O4: of the three answers of `decodesTo_decode` only IllegalOperand is left for a word with a listed opcode
and no legal spelling. -/
theorem legalSpellingsDecode : Obligations.LegalSpellingsDecode := by
  refine ⟨decodes_iff_legalSpelling, matching_rows_le_one, fun s w hp hlisted hlegal => ?_⟩
  refine step_decodeError (e := .illegalOperand) hp ?_
  have hw := decodesTo_decode w
  cases hd : decode w <;> rw [hd] at hw
  case ok i =>
    rw [(decodes_iff_legalSpelling w).1 ⟨i, hd⟩] at hlegal
    cases hlegal
  case error =>
    cases hw with
    | illegalOperand => rfl
    | illegalCommand hop => exact absurd hlisted hop

/-- Settles O5: a reserved opcode stands in no row, so of the three answers of `decodesTo_decode` only IllegalCommand
is left. -/
theorem reservedOpcodesAreIllegal : Obligations.ReservedOpcodesAreIllegal := by
  intro s w hp hreserved
  have hrows : ∀ r ∈ opcodeTable, ¬ (wordOp r.pattern = 0 ∨
      (0x0B ≤ wordOp r.pattern ∧ wordOp r.pattern ≤ 0x0F) ∨ 0x14 ≤ wordOp r.pattern) := by decide
  have hop : ¬ Listed (wordOp w) := by
    intro hlisted
    obtain ⟨r, hr, hsame⟩ := List.any_eq_true.1 hlisted
    exact hrows r hr (eq_of_beq hsame ▸ hreserved)
  refine step_decodeError (e := .illegalCommand) hp ?_
  have hw := decodesTo_decode w
  generalize decode w = r at hw
  cases hw with
  | command hi hw => exact absurd (hw ▸ wordOp_encode _ ▸ listed_opcode _) hop
  | illegalOperand hlisted => exact absurd hlisted hop
  | illegalCommand => rfl

/-- Settles O1: the decoder run on each word. -/
theorem decodeSampleWords : Obligations.DecodeSampleWords := by
  unfold Obligations.DecodeSampleWords
  and_intros <;> rfl

end Sys2Proof.Proofs
end

section
/-! The obligations of 30_encoding.md on the legality table (R90) and on responses (R88): what a command's own rule
leaves is said once (`exec_ruleResult`). -/

namespace Sys2Proof.Proofs
open Sys2Proof.Machine

/-! ## The checks before a command's rule -/

/-- Every command is a rule of its own behind the same checks (R86). -/
theorem exec_guarded (i : Instr) : ∃ body, ∀ s : State, exec i s = guarded i body s := by
  cases i <;> exact ⟨_, fun _ => rfl⟩

/-- The columns of the table of R90 and the model's checks agree, cell by cell. -/
theorem mem_okColumn_iff {p : Phase} (hp : p ≠ .error) (i : Instr) :
    i.opcode ∈ okColumn p ↔ legalIn i p = true := by
  cases p with
  | error => exact absurd rfl hp
  | _ => cases i <;> simp [Instr.opcode, okColumn, legalIn]

/-- Settles O13: the phase table allows exactly the column's commands, and any other raises PhaseViolation. -/
theorem phaseViolationsFollowTable : Obligations.PhaseViolationsFollowTable := by
  intro i s hi hp hcol
  obtain ⟨body, hbody⟩ := exec_guarded i
  rw [mem_okColumn_iff hp, Bool.not_eq_true] at hcol
  rw [hbody, guarded_illegal hp hi hcol]
  rfl

/-! ## What a command's own rule leaves -/

/-- The faults of R240 that a command's own rule raises: LoadOrder of LDF and FormatTruncated of UEND. -/
def RuleFault (i : Instr) (c : FaultCode) : Prop :=
  c = .loadOrder ∧ i.opcode = 0x03 ∨ c = .formatTruncated ∧ i = .uend

/-- What the rule of `i` may leave of the response and the phase: it answers ACK or VAL in a phase of the table's arrow
(the one exception, a load that completes from EMPTY, is no state that a run reaches), or it raises its own fault. -/
inductive RuleResult (i : Instr) (s t : State) : Prop where
  | answers {r : Response} (hr : t.rsp = some r) (hval : r = .ack ∨ ∃ v, r = .val v)
      (hphase : t.phase ∈ arrows i s.phase ∨ s.phase = .empty ∧ s.ldx = 255) : RuleResult i s t
  | raises {c : FaultCode} (hp : s.phase ≠ .error) (hc : RuleFault i c) (ht : t = s.raiseFault c (finfoOf i)) :
      RuleResult i s t

/-- A rule that ends with ACK in a phase of the arrow. -/
theorem ruleResult_ack {i : Instr} {s u : State} (h : u.phase ∈ arrows i s.phase) : RuleResult i s (u.answer .ack) :=
  .answers rfl (.inl rfl) (.inl h)

/-- A read that ends with VAL in the phase it found. -/
theorem ruleResult_val {i : Instr} {s : State} {v : Word64} (h : s.phase ∈ arrows i s.phase) :
    RuleResult i s (s.answer (.val v)) :=
  .answers rfl (.inr ⟨v, rfl⟩) (.inl h)

theorem guarded_runs {i : Instr} {body : State → Result} {s : State} (h : admission i s.phase = .runs) :
    guarded i body s = body s := by
  simp only [guarded, h]

/-- In ERROR as elsewhere, a rule runs only where its operands are in range. -/
theorem wellFormed_of_runs {i : Instr} {p : Phase} (h : admission i p = .runs) : i.wellFormed = true := by
  rcases admission_runs_iff.1 h with ⟨-, hr⟩ | ⟨-, hw, -⟩
  · cases i with
    | clr => rfl
    | rdr a => exact hr
    | _ => cases hr
  · exact hw

/-- Selectors 0 to 10 name a register (R39). -/
theorem statusRegister_exists (s : State) {a : Byte} (ha : a ≤ 10) : ∃ v, statusRegister s a = some v := by
  have hle : a.toNat ≤ 10 := ha
  unfold statusRegister
  generalize a.toNat = n at hle
  interval_cases n <;> exact ⟨_, rfl⟩

theorem phase_of_unpackBits {bits : BitString} {s t : State} (h : unpackBits bits s = .ok t) : t.phase = s.phase := by
  obtain ⟨bytes, hframe⟩ := unpackBits_frame h
  rw [hframe]

theorem unpack_of_upb {a : Byte} {p : Phase} (h : legalIn (.upb a) p = true) (hp : p ≠ .done) : p = .unpack := by
  cases p <;> simp_all [legalIn]

theorem arrows_ldf_of_ne_empty {a : Byte} {d : Word64} {p : Phase} (hp : p ≠ .empty) :
    arrows (.ldf a d) p = [.load, .table] := by
  cases p with
  | empty => exact absurd rfl hp
  | _ => rfl

/-- The phase that an in-order LDF leaves. -/
theorem ldf_phase_mem_arrows (a : Byte) (d : Word64) (s : State) :
    (if s.ldx + 1 = 256 then Phase.table else .load) ∈ arrows (.ldf a d) s.phase ∨ s.phase = .empty ∧ s.ldx = 255 := by
  by_cases hp : s.phase = .empty
  · by_cases hldx : s.ldx + 1 = 256
    · exact .inr ⟨hp, by bv_omega⟩
    · rw [hp, if_neg hldx]
      exact .inl (List.mem_singleton_self _)
  · rw [arrows_ldf_of_ne_empty hp]
    split <;> simp

/-- What a rule that runs leaves, command by command. -/
theorem exec_ruleResult {i : Instr} {s t : State} (hadm : admission i s.phase = .runs) (h : exec i s = .next t) :
    RuleResult i s t := by
  cases i with
  | clr | recb | bld =>
    simp only [exec, execClr, execRec, execBld, guarded_runs hadm] at h
    cases h
    exact ruleResult_ack (List.mem_singleton_self _)
  | ldf a d =>
    simp only [exec, execLdf, guarded_runs hadm] at h
    split at h
    · cases h
      exact .raises (legal_of_runs rfl hadm).1 (.inl ⟨rfl, rfl⟩) rfl
    · cases h
      exact .answers rfl (.inl rfl) (ldf_phase_mem_arrows a d s)
  | asg =>
    simp only [exec, execAsg, guarded_runs hadm] at h
    obtain ⟨st, -, rfl⟩ := map_ok_iff.1 (finish_next_iff.1 h)
    exact ruleResult_ack (List.mem_singleton_self _)
  | pkb a =>
    simp only [exec, execPkb, guarded_runs hadm] at h
    obtain ⟨c, -, rfl⟩ := map_ok_iff.1 (finish_next_iff.1 h)
    exact ruleResult_ack (List.mem_singleton_self _)
  | pkf =>
    simp only [exec, execPkf, guarded_runs hadm] at h
    cases h
    exact ruleResult_ack (List.mem_singleton_self _)
  | uex d =>
    simp only [exec, execUex, guarded_runs hadm] at h
    cases h
    refine ruleResult_ack ?_
    show (if d = 0 then Phase.done else .unpack) ∈ [Phase.unpack, .done]
    split <;> simp
  | upb a =>
    simp only [exec, execUpb, guarded_runs hadm] at h
    split at h
    · next hp =>
      cases h
      refine ruleResult_ack ?_
      rw [hp]
      exact List.mem_singleton_self _
    · next hp =>
      obtain ⟨u, hu, rfl⟩ := map_ok_iff.1 (finish_next_iff.1 h)
      have hunpack : s.phase = .unpack := unpack_of_upb (legal_of_runs rfl hadm).2 hp
      refine ruleResult_ack ?_
      rw [endByte_eq, phase_of_unpackBits hu, hunpack]
      show (if u.emit = u.size then Phase.done else .unpack) ∈ [Phase.unpack, .done]
      split <;> simp
  | uend =>
    simp only [exec, execUend, guarded_runs hadm] at h
    split at h
    · cases h
      exact .raises (legal_of_runs rfl hadm).1 (.inr ⟨rfl, rfl⟩) rfl
    · cases h
      exact ruleResult_ack (List.mem_singleton_self _)
  | rdr a =>
    obtain ⟨v, hv⟩ := statusRegister_exists s (of_decide_eq_true (wellFormed_of_runs hadm))
    simp only [exec, execRdr, guarded_runs hadm, hv] at h
    cases h
    exact ruleResult_val (List.mem_singleton_self _)
  | rdf | rdl | rdc =>
    simp only [exec, execRdf, execRdl, execRdc, guarded_runs hadm] at h
    cases h
    exact ruleResult_val (List.mem_singleton_self _)

/-- Settles O14: the command passes the checks, and of what its rule may leave the invariant excludes the load that
completes from EMPTY, where LDX is 0. -/
theorem phasesFollowArrows : Obligations.PhasesFollowArrows := by
  intro i s t hinv hi hp hcol h
  have hadm := admission_of_legal hp hi ((mem_okColumn_iff hp i).1 hcol)
  rcases exec_ruleResult hadm h with ⟨-, -, harrow | ⟨hempty, hldx⟩⟩ | ⟨-, hc, rfl⟩
  · exact .inl harrow
  · rw [hinv.notLoading (.inl hempty)] at hldx
    cases hldx
  · exact .inr ⟨rfl, hc⟩

/-! ## Responses (R88) -/

/-- The answer to a command word, by the four kinds of R88. -/
def Answered (s t : State) : Prop :=
  ∃ r, t.rsp = some r ∧
    (r = .ack ∨ (∃ v, r = .val v) ∨ (r = .flt t.fault ∧ t.phase = .error ∧ s.phase ≠ .error) ∨
      (r = .ref s.fault ∧ s.phase = .error))

theorem answered_refuse {s : State} (hp : s.phase = .error) : Answered s s.refuse :=
  ⟨_, rfl, .inr (.inr (.inr ⟨rfl, hp⟩))⟩

theorem answered_raiseFault {s : State} (hp : s.phase ≠ .error) (c : FaultCode) (info : BitVec 16) :
    Answered s (s.raiseFault c info) :=
  ⟨_, rfl, .inr (.inr (.inl ⟨rfl, rfl, hp⟩))⟩

theorem exec_answered {i : Instr} {s t : State} (h : exec i s = .next t) : Answered s t := by
  obtain ⟨body, hbody⟩ := exec_guarded i
  rcases guarded_next_cases ((hbody s).symm.trans h) with ⟨hadm, -⟩ | ⟨hp, rfl⟩ | ⟨hp, c, -, rfl⟩
  · rcases exec_ruleResult hadm h with ⟨hr, hval, -⟩ | ⟨hp, -, rfl⟩
    · exact ⟨_, hr, hval.imp_right .inl⟩
    · exact answered_raiseFault hp _ _
  · exact answered_refuse hp
  · exact answered_raiseFault hp c _

/-- Settles O15: a word that decodes is answered by its command, and any other is rejected. -/
theorem everyCommandIsAnswered : Obligations.EveryCommandIsAnswered := by
  refine ⟨fun s t w h => ?_, ⟨rfl, rfl⟩, fun _ => ⟨rfl, rfl⟩, fun _ => ⟨rfl, rfl⟩, fun _ => ⟨rfl, rfl⟩⟩
  rw [step_command] at h
  cases hd : decode w with
  | ok i =>
    rw [hd] at h
    exact exec_answered h
  | error e =>
    rw [hd] at h
    cases h
    rcases rejectWord_cases e w s with ⟨hp, hr⟩ | ⟨hp, c, -, hr⟩ <;> rw [hr]
    · exact answered_refuse hp
    · exact answered_raiseFault hp c _

end Sys2Proof.Proofs
end

section
/-! The obligations of 40_symbol_table.md: what the words of one opcode spell (`Spells`), what REC, LDF and RDF do, and
the frequencies after a build. -/

namespace Sys2Proof.Proofs
open Sys2Proof.Machine

/-! ## What the words of one opcode spell -/

/-- An opcode whose row of the opcode map makes one check, `ok`, of the fields. -/
theorem spells_of_decode {op : Byte} {ok : Byte → Word64 → Bool} {i : Byte → Word64 → Instr}
    (hrow : ∀ w, wordOp w = op → decode w =
      if ok (wordA w) (wordD w) = true then .ok (i (wordA w) (wordD w)) else .error .illegalOperand) :
    Spells op ok i := by
  intro w hop
  refine ⟨fun hok => by rw [hrow w hop, if_pos hok], fun hok => ?_⟩
  have herr : decode w = .error .illegalOperand := by
    rw [hrow w hop, if_neg (by simp [hok])]
  exact ⟨herr, fun s hp => step_decodeError hp herr⟩

/-- The opcodes of format A (R82). -/
theorem spells_formatA {op : Byte} {f : Byte → Instr}
    (hrow : ∀ w, wordOp w = op → decode w = formatA f (wordA w) (wordD w)) :
    Spells op (fun _ d => d == 0) (fun a _ => f a) :=
  spells_of_decode fun w hop => by simp only [hrow w hop, formatA, beq_iff_eq]

theorem spells_recb : Spells 0x02 (fun _ d => d == 0) (fun a _ => .recb a) :=
  spells_formatA fun w hop => by
    unfold decode
    rw [hop]
    rfl

theorem spells_ldf : Spells 0x03 (fun _ _ => true) (fun a d => .ldf a d) :=
  spells_of_decode fun w hop => by
    unfold decode
    rw [hop]
    rfl

theorem spells_rdf : Spells 0x11 (fun _ d => d == 0) (fun a _ => .rdf a) :=
  spells_formatA fun w hop => by
    unfold decode
    rw [hop]
    rfl

/-! ## Where a command's rule does not run -/

/-- Outside ERROR a command that the phase table does not allow raises PhaseViolation (R90). -/
theorem exec_illegal {i : Instr} {s : State} (hp : s.phase ≠ .error) (hw : i.wellFormed = true)
    (hl : legalIn i s.phase = false) : exec i s = .next (s.raiseFault .phaseViolation (finfoOf i)) := by
  obtain ⟨body, hbody⟩ := exec_guarded i
  rw [hbody, guarded_illegal hp hw hl]

/-- In ERROR a command other than CLR and RDR is refused (R245). -/
theorem exec_error {i : Instr} {s : State} (hp : s.phase = .error) (hr : runsInError i = false) :
    exec i s = .next s.refuse := by
  obtain ⟨body, hbody⟩ := exec_guarded i
  rw [hbody, guarded_error hp hr]

/-! ## REC (R100, R103) -/

theorem toNat_saturatingSucc (v : Word64) : (saturatingSucc v).toNat = min (v.toNat + 1) (2 ^ 64 - 1) := by
  unfold saturatingSucc
  split
  · next h =>
    rw [h]
    rfl
  · next h =>
    have hmax : v ≠ 0xFFFFFFFFFFFFFFFF#64 := h
    bv_omega

/-- The state that REC leaves where its rule runs. -/
def recorded (s : State) (a : Byte) : State :=
  { s.setEntry a { s.entry a with freq := saturatingSucc (s.entry a).freq } with
    size := saturatingSucc s.size, phase := .count, rsp := some .ack }

theorem exec_recb {s : State} (hp : s.phase = .empty ∨ s.phase = .count) (a : Byte) :
    exec (.recb a) s = .next (recorded s a) := by
  have hne : s.phase ≠ .error := by rcases hp with hp | hp <;> simp [hp]
  simp only [exec, execRec]
  rw [guarded_legal hne rfl (by simpa [legalIn] using hp)]
  rfl

theorem recorded_entry (s : State) (a b : Byte) :
    (recorded s a).entry b =
      if b = a then { s.entry a with freq := saturatingSucc (s.entry a).freq } else s.entry b :=
  entry_setEntry s a b _

/-- Settles O19, by `exec_recb` and the write of one entry. -/
theorem recCountsByte : Obligations.RecCountsByte := by
  refine ⟨spells_recb, fun s a hp => ⟨_, exec_recb hp a, ?_, ?_, ?_, ?_, ?_, rfl⟩, fun s a hempty hcount hp => ?_⟩
  · simp only [recorded_entry, if_true, toNat_saturatingSucc]
  · simp only [recorded_entry, if_true]
  · simp only [recorded_entry, if_true]
  · intro b hb
    rw [recorded_entry, if_neg hb]
  · exact toNat_saturatingSucc s.size
  · exact exec_illegal hp rfl (by simp [legalIn, hempty, hcount])

/-! ## LDF (R101) -/

/-- The check of the index: `a` is compared in the nine bits of LDX. -/
theorem setWidth_eq_ldx_iff {a : Byte} {ldx : BitVec 9} : a.setWidth 9 = ldx ↔ a.toNat = ldx.toNat := by
  have ha := a.isLt
  rw [← BitVec.toNat_inj, BitVec.toNat_setWidth, Nat.mod_eq_of_lt (by omega)]

/-- The state that LDF leaves where its rule runs and `a` is the next symbol. -/
def loaded (s : State) (a : Byte) (d : Word64) : State :=
  { s.setEntry a { s.entry a with freq := d } with
    ldx := s.ldx + 1, phase := if s.ldx + 1 = 256 then .table else .load, rsp := some .ack }

theorem exec_ldf {s : State} (hp : s.phase = .empty ∨ s.phase = .load) (a : Byte) (d : Word64) :
    exec (.ldf a d) s = .next
      (if a.toNat = s.ldx.toNat then loaded s a d else s.raiseFault .loadOrder (finfoOf (.ldf a d))) := by
  have hne : s.phase ≠ .error := by rcases hp with hp | hp <;> simp [hp]
  simp only [exec, execLdf]
  rw [guarded_legal hne rfl (by simpa [legalIn] using hp)]
  by_cases horder : a.toNat = s.ldx.toNat
  · rw [if_neg (not_not_intro (setWidth_eq_ldx_iff.2 horder)), if_pos horder]
    rfl
  · rw [if_pos (mt setWidth_eq_ldx_iff.1 horder), if_neg horder]

theorem loaded_entry (s : State) (a b : Byte) (d : Word64) :
    (loaded s a d).entry b = if b = a then { s.entry a with freq := d } else s.entry b :=
  entry_setEntry s a b _

/-- Settles O20, by `exec_ldf` and the write of one entry. LDX names a symbol, so it counts without wrapping. -/
theorem ldfLoadsInOrder : Obligations.LdfLoadsInOrder := by
  refine ⟨spells_ldf, fun s a d hp horder => ⟨loaded s a d, ?_, ?_, ?_, ?_, rfl⟩, fun s a d hp horder => ?_,
    fun s a d hempty hload hp => ?_⟩
  · rw [exec_ldf hp, if_pos horder]
  · rw [loaded_entry, if_pos rfl]
  · intro b hb
    rw [loaded_entry, if_neg hb]
  · show (s.ldx + 1).toNat = s.ldx.toNat + 1
    have ha := a.isLt
    bv_omega
  · rw [exec_ldf hp, if_neg horder]
    rfl
  · exact exec_illegal hp rfl (by simp [legalIn, hempty, hload])

/-! ## RDF (R102) -/

theorem exec_rdf {s : State} (hload : s.phase ≠ .load) (hp : s.phase ≠ .error) (a : Byte) :
    exec (.rdf a) s = .next { s with rsp := some (.val (s.entry a).freq) } := by
  simp only [exec, execRdf]
  rw [guarded_legal hp rfl (by simp [legalIn, hload])]
  rfl

/-- Settles O21, by `exec_rdf`; the reset state is one of the states it speaks of. -/
theorem rdfReadsFrequency : Obligations.RdfReadsFrequency := by
  refine ⟨spells_rdf, fun s a hload hp => exec_rdf hload hp a, fun a => ?_, fun s a hload => ?_, fun s a hp => ?_⟩
  · rw [exec_rdf (by decide) (by decide), reset_entry]
    rfl
  · exact exec_illegal (by simp [hload]) rfl (by simp [legalIn, hload])
  · exact exec_error hp rfl

/-! ## The frequencies after a build (R104) -/

/-- The checks before a rule write no frequency, so only the rule itself matters. -/
theorem guarded_frequencies {i : Instr} {body : State → Result} {s t : State} (h : guarded i body s = .next t)
    (hbody : admission i s.phase = .runs → body s = .next t → frequencies t.st = frequencies s.st) :
    frequencies t.st = frequencies s.st := by
  rcases guarded_next_cases h with ⟨hadm, hrun⟩ | ⟨-, rfl⟩ | ⟨-, c, -, rfl⟩
  · exact hbody hadm hrun
  · rfl
  · rfl

/-- The two commands that write a frequency are legal only before a build (R90). -/
theorem unbuilt_of_recb {a : Byte} {p : Phase} (h : legalIn (.recb a) p = true) : p.unbuilt = true := by
  cases p <;> simp_all [legalIn, Phase.unbuilt]

theorem unbuilt_of_ldf {a : Byte} {d : Word64} {p : Phase} (h : legalIn (.ldf a d) p = true) :
    p.unbuilt = true := by
  cases p <;> simp_all [legalIn, Phase.unbuilt]

theorem not_unbuilt_of_built {p : Phase} (h : p.built = true) : ¬ p.unbuilt = true := by
  cases p <;> simp_all [Phase.built, Phase.unbuilt]

/-- After a build REC and LDF do not run, ASG keeps the frequencies of the entries it writes, and no other command but
CLR writes the Symbol Table. -/
theorem exec_frequencies {i : Instr} {s t : State} (hb : s.phase.built) (h : exec i s = .next t) :
    frequencies t.st = frequencies s.st ∨ t = { State.reset with inbox := t.inbox, rsp := t.rsp } := by
  have hnot := not_unbuilt_of_built hb
  cases i with
  | clr =>
    rw [exec_clr] at h
    cases h
    exact .inr rfl
  | recb a =>
    simp only [exec, execRec] at h
    exact .inl (guarded_frequencies h fun hadm _ => absurd (unbuilt_of_recb (legal_of_runs rfl hadm).2) hnot)
  | ldf a d =>
    simp only [exec, execLdf] at h
    exact .inl (guarded_frequencies h fun hadm _ => absurd (unbuilt_of_ldf (legal_of_runs rfl hadm).2) hnot)
  | bld | uex | rdf | rdl | rdc =>
    simp only [exec, execBld, execUex, execRdf, execRdl, execRdc] at h
    refine .inl (guarded_frequencies h fun _ hrun => ?_)
    cases hrun
    rw [answer_st]
  | asg =>
    simp only [exec, execAsg] at h
    refine .inl (guarded_frequencies h fun _ hrun => ?_)
    obtain ⟨st, hwalk, rfl⟩ := map_ok_iff.1 (finish_next_iff.1 hrun)
    exact walk_frequencies 256 Config.root [] s.st st hwalk
  | pkb a =>
    simp only [exec, execPkb] at h
    refine .inl (guarded_frequencies h fun _ hrun => ?_)
    obtain ⟨c, -, rfl⟩ := map_ok_iff.1 (finish_next_iff.1 hrun)
    obtain ⟨bytes, hframe⟩ := appendBits_frame s c
    rw [hframe]
    rfl
  | pkf =>
    simp only [exec, execPkf] at h
    refine .inl (guarded_frequencies h fun _ hrun => ?_)
    cases hrun
    by_cases hc : s.cnt = 0
    · rw [flushBits_empty hc]
      rfl
    · rw [flushBits_waiting hc]
      rfl
  | upb a =>
    simp only [exec, execUpb] at h
    refine .inl (guarded_frequencies h fun _ hrun => ?_)
    split at hrun
    · cases hrun
      rfl
    · obtain ⟨u, hu, rfl⟩ := map_ok_iff.1 (finish_next_iff.1 hrun)
      obtain ⟨bytes, hframe⟩ := unpackBits_frame hu
      rw [endByte_eq, hframe]
      rfl
  | uend | rdr =>
    simp only [exec, execUend, execRdr] at h
    refine .inl (guarded_frequencies h fun _ hrun => ?_)
    split at hrun <;> cases hrun <;> rfl

/-- Settles O49: of the cases of a step only a command could write a frequency, and `exec_frequencies` says what it
keeps. -/
theorem frequenciesFixedAfterBuild : Obligations.FrequenciesFixedAfterBuild := by
  intro s t hb h
  rcases step_cases h with ⟨-, rfl⟩ | ⟨s1, x, rfl, ⟨-, rfl⟩ | ⟨w, -, ⟨i, -, hexec⟩ | ⟨e, -, rfl⟩⟩⟩
  · exact .inl rfl
  · exact .inr rfl
  · exact exec_frequencies (s := s1) hb hexec
  · rcases rejectWord_cases e w s1 with ⟨-, hr⟩ | ⟨-, c, -, hr⟩ <;> rw [hr] <;> exact .inl rfl

end Sys2Proof.Proofs
end

section
/-! The build of 41_tree_builder.md, merge by merge: what one merge takes and makes (`MergeStep`), and that no later
merge writes the node it made. -/

namespace Sys2Proof.Proofs
open Sys2Proof.Machine

/-- The build from the frequencies `fs` after its first `k` merges. -/
def buildAfter (fs : List Word64) (k : Nat) : Build := mergeMany k (startBuild fs)

theorem buildAfter_zero (fs : List Word64) : buildAfter fs 0 = startBuild fs := rfl

theorem buildAfter_succ (fs : List Word64) (k : Nat) : buildAfter fs (k + 1) = mergeOnce (buildAfter fs k) :=
  mergeMany_succ k _

theorem buildTree_eq_buildAfter (fs : List Word64) : buildTree fs = (buildAfter fs 255).nodes := rfl

theorem buildAfter_inv {fs : List Word64} (hfs : fs.length = 256) {k : Nat} (hk : k ≤ 255) :
    BuildInv fs k (buildAfter fs k) :=
  mergeMany_inv hfs k hk

/-- The node that merge `k` makes stands in cell `256 + k`. -/
theorem toNat_madeIndex {k : Nat} (hk : k < 255) : (BitVec.ofNat 9 (256 + k)).toNat = 256 + k := by
  rw [BitVec.toNat_ofNat]
  omega

/-- A key that another one is not less than has no greater weight. -/
theorem weight_le_of_not_keyLess {x y : Key} (h : keyLess y x = false) : x.weight.toNat ≤ y.weight.toNat := by
  rw [keyLess_false_iff] at h
  omega

/-- Merge `k` (R120) leads from the build `b` to `b'`: it takes the least key `s`, then `l`, the least of the others,
and makes a node whose weight is their exact sum. -/
structure MergeStep (k : Nat) (b b' : Build) (s l : Key) (rest : List Key) : Prop where
  taken : b.work.Perm (s :: l :: rest)
  leastFirst : ∀ y ∈ s :: l :: rest, keyLess y s = false
  leastSecond : ∀ y ∈ l :: rest, keyLess y l = false
  work : b'.work = { weight := s.weight + l.weight, index := BitVec.ofNat 9 (256 + k) } :: rest
  nodes : b'.nodes = writeNode b.nodes (256 + k) (.internal s.index l.index (s.weight + l.weight))
  exactSum : (s.weight + l.weight).toNat = s.weight.toNat + l.weight.toNat

/-- Each of the 255 merges is such a step. The sum is exact because W has the same total weight before and after. -/
theorem exists_mergeStep {fs : List Word64} (hfs : fs.length = 256) {k : Nat} (hk : k < 255) :
    ∃ s l rest, MergeStep k (buildAfter fs k) (buildAfter fs (k + 1)) s l rest := by
  have hinv := buildAfter_inv hfs (Nat.le_of_lt hk)
  have hnext := (buildAfter_inv hfs (Nat.succ_le_of_lt hk)).total
  obtain ⟨s, l, rest, hperm, hs, hl, heq⟩ := mergeOnce_spec (b := buildAfter fs k) (by rw [hinv.count]; omega)
  rw [← buildAfter_succ, hinv.made] at heq
  have htotal := (hperm.map fun x => x.weight.toNat).sum_eq
  rw [hinv.total, ← hnext, heq] at htotal
  refine ⟨s, l, rest, hperm, fun y hy => hs y (hperm.mem_iff.2 hy), hl, by rw [heq], by rw [heq], ?_⟩
  simp only [List.map_cons, List.sum_cons] at htotal
  omega

/-- Later merges write other cells. -/
theorem readNode_buildAfter {fs : List Word64} (hfs : fs.length = 256) {k j : Nat} (hkj : k ≤ j) (hj : j ≤ 255)
    {n : NodeIndex} (hn : n.toNat < 256 + k) :
    readNode (buildAfter fs j).nodes n = readNode (buildAfter fs k).nodes n := by
  induction j, hkj using Nat.le_induction with
  | base => rfl
  | succ j hkj ih =>
    obtain ⟨s, l, rest, hstep⟩ := exists_mergeStep hfs hj
    rw [hstep.nodes, readNode_writeNode (by omega), if_neg (by omega), ih (by omega)]

/-- The built tree holds the node that merge `k` made. -/
theorem MergeStep.readNode_buildTree {fs : List Word64} (hfs : fs.length = 256) {k : Nat} (hk : k < 255) {s l : Key}
    {rest : List Key} (h : MergeStep k (buildAfter fs k) (buildAfter fs (k + 1)) s l rest) :
    readNode (buildTree fs) (BitVec.ofNat 9 (256 + k)) = .ok (.internal s.index l.index (s.weight + l.weight)) := by
  have hn := toNat_madeIndex hk
  rw [buildTree_eq_buildAfter, readNode_buildAfter hfs (k := k + 1) hk (Nat.le_refl _) (by omega), h.nodes,
    readNode_writeNode (by omega), if_pos hn]

end Sys2Proof.Proofs
end

section
/-! The obligations of 41_tree_builder.md on BLD and on the loop of R120. -/

namespace Sys2Proof.Proofs
open Sys2Proof.Machine

/-! ## The loop of R120 has one result -/

theorem weightAt_unique {m : NodeMemory} {n : NodeIndex} {v v' : Nat} (h : weightAt m n = some v)
    (h' : weightAt m n = some v') : v = v' :=
  Option.some.inj (h.symm.trans h')

theorem keyBefore_asymm {m : NodeMemory} {a b : NodeIndex} (h : KeyBefore m a b) : ¬ KeyBefore m b a := by
  rintro ⟨vb, va, hvb, hva, hba⟩
  obtain ⟨wa, wb, hwa, hwb, hab⟩ := h
  obtain rfl := weightAt_unique hwa hva
  obtain rfl := weightAt_unique hwb hvb
  simp only [BitVec.lt_def] at hab hba
  omega

/-- A working set has at most one node of least key (R122). -/
theorem leastIn_unique {m : NodeMemory} {W : Finset NodeIndex} {a b : NodeIndex} (ha : LeastIn m W a)
    (hb : LeastIn m W b) : a = b := by
  by_contra hne
  exact keyBefore_asymm (ha.2 b hb.1 (Ne.symm hne)) (hb.2 a ha.1 hne)

/-- Settles O23, by induction on the merges: the two nodes of least key are the same, and so is the sum of their
weights. -/
theorem mergesAreDeterministic : Obligations.MergesAreDeterministic := by
  intro fs k W W' m m' _ h h'
  induction h generalizing W' m' with
  | start =>
    cases h' with
    | start => exact ⟨rfl, rfl⟩
  | merge _ _ hs hl hws hwl hsum ih =>
    cases h' with
    | merge hprev _ hs' hl' hws' hwl' hsum' =>
      obtain ⟨rfl, rfl⟩ := ih _ _ hprev
      obtain rfl := leastIn_unique hs hs'
      obtain rfl := leastIn_unique hl hl'
      obtain rfl := weightAt_unique hws hws'
      obtain rfl := weightAt_unique hwl hwl'
      obtain rfl := BitVec.eq_of_toNat_eq (hsum.trans hsum'.symm)
      exact ⟨rfl, rfl⟩

/-! ## The build follows the loop -/

/-- The working set of the rule, of which the model holds the keys (R121). -/
def indexSet (w : List Key) : Finset NodeIndex := (w.map Key.index).toFinset

theorem mem_indexSet {w : List Key} {n : NodeIndex} : n ∈ indexSet w ↔ ∃ x ∈ w, x.index = n := by
  simp [indexSet]

theorem indexSet_cons (x : Key) (w : List Key) : indexSet (x :: w) = insert x.index (indexSet w) :=
  List.toFinset_cons

theorem indexSet_perm {w w' : List Key} (h : w.Perm w') : indexSet w = indexSet w' :=
  List.toFinset_eq_of_perm _ _ (h.map Key.index)

/-- Taking a node out of W, where no other key has its index. -/
theorem indexSet_erase {x : Key} {w : List Key} (h : ((x :: w).map Key.index).Nodup) :
    (indexSet (x :: w)).erase x.index = indexSet w := by
  rw [indexSet_cons, Finset.erase_insert]
  rw [List.map_cons, List.nodup_cons] at h
  rw [indexSet, List.mem_toFinset]
  exact h.1

/-- A key that no other is less than names the node of least key, where the memory holds the keys' weights. -/
theorem leastIn_indexSet {m : NodeMemory} {x : Key} {w : List Key}
    (hheld : ∀ y ∈ x :: w, weightAt m y.index = some y.weight.toNat)
    (hleast : ∀ y ∈ x :: w, keyLess y x = false) :
    LeastIn m (indexSet (x :: w)) x.index := by
  refine ⟨mem_indexSet.2 ⟨x, List.mem_cons_self .., rfl⟩, fun n hn hne => ?_⟩
  obtain ⟨y, hy, rfl⟩ := mem_indexSet.1 hn
  exact ⟨_, _, hheld x (List.mem_cons_self ..), hheld y hy, keyLess_iff.1 (keyLess_of_not (hleast y hy) hne)⟩

theorem indexSet_startBuild {fs : List Word64} (hfs : fs.length = 256) :
    indexSet (startBuild fs).work = Finset.univ.filter fun n => n < 256 := by
  ext n
  rw [mem_indexSet, Finset.mem_filter]
  constructor
  · rintro ⟨x, hx, rfl⟩
    exact ⟨Finset.mem_univ _, (startBuild_inv hfs).bound x hx⟩
  · rintro ⟨-, hn⟩
    have hlt : n.toNat < fs.length := by rw [hfs]; exact hn
    refine ⟨leafKey n.toNat fs[n.toNat], mem_startBuild_work.2 ⟨_, _, List.getElem?_eq_getElem hlt, rfl⟩, ?_⟩
    exact BitVec.eq_of_toNat_eq (by simp [leafKey])

/-- The model's build is a run of the rule's loop. -/
theorem merged_buildAfter {fs : List Word64} (hfs : fs.length = 256) {k : Nat} (hk : k ≤ 255) :
    Merged fs k (indexSet (buildAfter fs k).work) (buildAfter fs k).nodes := by
  induction k with
  | zero =>
    rw [buildAfter_zero, indexSet_startBuild hfs]
    exact .start
  | succ k ih =>
    have hinv := buildAfter_inv hfs (Nat.le_of_lt hk)
    obtain ⟨s, l, rest, hstep⟩ := exists_mergeStep hfs hk
    have hheld : ∀ y ∈ s :: l :: rest, weightAt (buildAfter fs k).nodes y.index = some y.weight.toNat :=
      fun y hy => hinv.held y (hstep.taken.mem_iff.2 hy)
    have hnodup := (hstep.taken.map Key.index).nodup_iff.1 hinv.nodup
    have hprev := ih (Nat.le_of_lt hk)
    rw [indexSet_perm hstep.taken] at hprev
    have hs := leastIn_indexSet hheld hstep.leastFirst
    have hl := leastIn_indexSet (fun y hy => hheld y (List.mem_cons_of_mem _ hy)) hstep.leastSecond
    rw [hstep.work, hstep.nodes, indexSet_cons, ← indexSet_erase hnodup.of_cons, ← indexSet_erase hnodup]
    rw [← indexSet_erase hnodup] at hl
    exact hprev.merge hk hs hl (hheld s (by simp)) (hheld l (by simp)) hstep.exactSum

/-- The build ends with the root alone in W. -/
theorem merged_buildTree {fs : List Word64} (hfs : fs.length = 256) : Merged fs 255 {510} (buildTree fs) := by
  obtain ⟨w, hwork, -⟩ := build_final hfs
  have hset : indexSet (buildAfter fs 255).work = {510} := by
    rw [buildAfter, hwork]
    rfl
  rw [buildTree_eq_buildAfter, ← hset]
  exact merged_buildAfter hfs (Nat.le_refl 255)

/-! ## BLD (R120) -/

/-- The opcodes of format Z (R82). -/
theorem spells_formatZ {op : Byte} {i : Instr}
    (hrow : ∀ w, wordOp w = op → decode w = formatZ i (wordA w) (wordD w)) :
    Spells op (fun a d => a == 0 && d == 0) (fun _ _ => i) :=
  spells_of_decode fun w hop => by simp only [hrow w hop, formatZ, Bool.and_eq_true, beq_iff_eq]

theorem spells_bld : Spells 0x04 (fun a d => a == 0 && d == 0) (fun _ _ => .bld) :=
  spells_formatZ fun w hop => by
    unfold decode
    rw [hop]
    rfl

/-- The state that BLD leaves where its rule runs and makes the node memory `m`. -/
def treeBuilt (s : State) (m : NodeMemory) : State := { s with node := m, phase := .tree, rsp := some .ack }

@[simp] theorem treeBuilt_node (s : State) (m : NodeMemory) : (treeBuilt s m).node = m := rfl

theorem exec_bld {s : State} (hp : s.phase = .empty ∨ s.phase = .count ∨ s.phase = .table) :
    exec .bld s = .next (treeBuilt s (buildTree (frequencies s.st))) := by
  have hne : s.phase ≠ .error := by rcases hp with hp | hp | hp <;> simp [hp]
  simp only [exec, execBld]
  rw [guarded_legal hne rfl (by simpa [legalIn, or_assoc] using hp)]
  generalize buildTree (frequencies s.st) = m
  rfl

/-- Settles O22, by `exec_bld` and `merged_buildTree`. -/
theorem bldBuildsTree : Obligations.BldBuildsTree := by
  refine ⟨spells_bld, fun s hp => ⟨_, exec_bld hp, ?_, ?_⟩, fun s hempty hcount htable hp => ?_⟩
  · rw [treeBuilt_node]
    exact merged_buildTree (frequencies_length _)
  · generalize buildTree (frequencies s.st) = m
    rfl
  · exact exec_illegal hp rfl (by simp [legalIn, hempty, hcount, htable])

/-! ## Weights and the order of children (R123, R124, R126) -/

/-- Every internal node of a built tree was made by a merge. -/
theorem madeNode_buildTree {fs : List Word64} (hfs : fs.length = 256) {n l r : NodeIndex} {w : Weight}
    (h : readNode (buildTree fs) n = .ok (.internal l r w)) : MadeNode (buildTree fs) n := by
  obtain ⟨hlo, hhi⟩ := internal_range (builtTreeIsWellFormed fs hfs) h
  exact (buildAfter_inv hfs (Nat.le_refl 255)).inner n hlo (by omega)

/-- Settles O25: `BuildInv` says it of the leaves and of every node made, and `build_final` of the root. -/
theorem weightsAreExactSums : Obligations.WeightsAreExactSums := by
  intro fs hfs
  have hinv := buildAfter_inv hfs (Nat.le_refl 255)
  refine ⟨fun a f hf => ?_, fun n l r w h => ?_, ?_⟩
  · refine weightAt_some_iff.2 ⟨_, hinv.leaves a f hf, ?_⟩
    exact BitVec.toNat_setWidth_of_le (by decide)
  · obtain ⟨l', r', w', hread, -, -, -, wl, wr, hwl, hwr, hsum⟩ := madeNode_buildTree hfs h
    rw [h] at hread
    cases hread
    exact ⟨wl, wr, hwl, hwr, hsum⟩
  · obtain ⟨w, hwork, hw⟩ := build_final hfs
    rw [← hw]
    exact hinv.held { weight := w, index := Config.root } (by simp [buildAfter, hwork])

/-- Settles O26, by `madeNode_buildTree`. -/
theorem leftChildHasSmallerKey : Obligations.LeftChildHasSmallerKey := by
  intro fs n l r w hfs h
  obtain ⟨l', r', w', hread, -, -, hbefore, -⟩ := madeNode_buildTree hfs h
  rw [h] at hread
  cases hread
  exact hbefore

/-- The weight of the node that merge `k` made. -/
theorem MergeStep.weightAt_buildTree {fs : List Word64} (hfs : fs.length = 256) {k : Nat} (hk : k < 255) {s l : Key}
    {rest : List Key} (h : MergeStep k (buildAfter fs k) (buildAfter fs (k + 1)) s l rest) :
    weightAt (buildTree fs) (BitVec.ofNat 9 (256 + k)) = some (s.weight.toNat + l.weight.toNat) :=
  weightAt_some_iff.2 ⟨_, h.readNode_buildTree hfs hk, h.exactSum⟩

/-- What merge `k` leaves in W weighs at least as much as the heavier of the two nodes that it took. -/
theorem MergeStep.weight_le {k : Nat} {b b' : Build} {s l : Key} {rest : List Key} (h : MergeStep k b b' s l rest)
    {y : Key} (hy : y ∈ b'.work) : l.weight.toNat ≤ y.weight.toNat := by
  rw [h.work] at hy
  rcases List.mem_cons.1 hy with rfl | hy
  · show l.weight.toNat ≤ (s.weight + l.weight).toNat
    rw [h.exactSum]
    omega
  · exact weight_le_of_not_keyLess (h.leastSecond y (List.mem_cons_of_mem _ hy))

/-- Settles O27: both nodes that merge `k + 1` takes are in what merge `k` left. -/
theorem mergeWeightsNeverDecrease : Obligations.MergeWeightsNeverDecrease := by
  intro fs k hfs hk
  obtain ⟨s, l, rest, hstep⟩ := exists_mergeStep hfs (k := k) (by omega)
  obtain ⟨s', l', rest', hstep'⟩ := exists_mergeStep hfs (k := k + 1) (by omega)
  refine ⟨_, _, hstep.weightAt_buildTree hfs (by omega), hstep'.weightAt_buildTree hfs (by omega), ?_⟩
  have hsl := weight_le_of_not_keyLess (hstep.leastFirst l (by simp))
  have hs' := hstep.weight_le (hstep'.taken.mem_iff.2 (by simp : s' ∈ s' :: l' :: rest'))
  have hl' := hstep.weight_le (hstep'.taken.mem_iff.2 (by simp : l' ∈ s' :: l' :: rest'))
  omega

end Sys2Proof.Proofs
end

section
/-! The worked cases of 41_tree_builder.md (R127, R128), and what a build and an assignment of codes make of equal
frequencies (R125). -/

namespace Sys2Proof.Proofs
open Sys2Proof.Machine

/-! ## ASG on a built tree -/

/-- In TREE, ASG gives every symbol its path from the root. -/
theorem exec_asg {s : State} (hp : s.phase = .tree) (hm : WellBuilt s.node) :
    ∃ st, exec .asg s = .next { s with st := st, phase := .codes, rsp := some .ack } ∧
      ∀ a, ∃ c, followPath s.node Config.root c = .ok (leafIndex a) ∧ c ≠ [] ∧
        tableGet st (symbolIndex a) = codedEntry (tableGet s.st (symbolIndex a)) c := by
  obtain ⟨st, hst, hentry⟩ := assignCodes_spec hm s.st
  refine ⟨st, ?_, fun a => ?_⟩
  · simp only [exec, execAsg]
    rw [guarded_legal (by simp [hp]) rfl (by simp [legalIn, hp]), finish_next_iff, map_ok_iff]
    exact ⟨st, hst, rfl⟩
  · obtain ⟨c, hpath, -, hne, heq⟩ := hentry a
    exact ⟨c, hpath, hne, heq⟩

/-! ## Equal frequencies, equal codes (R125) -/

/-- An entry keeps nothing but its frequency when its code is written. -/
theorem codedEntry_congr {e e' : SymbolEntry} (h : e.freq = e'.freq) (c : BitString) :
    codedEntry e c = codedEntry e' c := by
  simp only [codedEntry, h]

/-- Settles O30: BLD reads only the frequencies, and in one tree each symbol has one path. -/
theorem sameFrequenciesSameCodes : Obligations.SameFrequenciesSameCodes := by
  intro s s' hfreq hp hp'
  have hm := builtTreeIsWellFormed _ (frequencies_length s'.st)
  have hbld := exec_bld hp
  have hbld' := exec_bld hp'
  rw [hfreq] at hbld
  generalize buildTree (frequencies s'.st) = m at hm hbld hbld'
  obtain ⟨st, hasg, hentry⟩ := exec_asg (s := treeBuilt s m) rfl hm
  obtain ⟨st', hasg', hentry'⟩ := exec_asg (s := treeBuilt s' m) rfl hm
  refine ⟨_, _, _, _, hbld, hbld', hasg, hasg', rfl, rfl, st_ext fun a => ?_⟩
  obtain ⟨c, hpath, -, heq⟩ := hentry a
  obtain ⟨c', hpath', -, heq'⟩ := hentry' a
  obtain rfl := path_unique hm hpath hpath'
  show tableGet st _ = tableGet st' _
  rw [heq, heq']
  exact codedEntry_congr (frequencies_eq_iff.1 hfreq a) c

/-! ## One non-zero frequency (R128) -/

theorem toNat_leafWeight (i : Nat) (f : Word64) : (leafKey i f).weight.toNat = f.toNat :=
  BitVec.toNat_setWidth_of_le (by decide)

theorem leafKey_index (x : Byte) (f : Word64) : (leafKey x.toNat f).index = leafIndex x :=
  BitVec.ofNat_toNat 9 x

theorem MergeStep.taken_weight {k : Nat} {b b' : Build} {s l : Key} {rest : List Key}
    (h : MergeStep k b b' s l rest) :
    (b.work.map fun y => y.weight.toNat).sum =
      s.weight.toNat + (l.weight.toNat + (rest.map fun y => y.weight.toNat).sum) := by
  rw [(h.taken.map fun y => y.weight.toNat).sum_eq]
  simp only [List.map_cons, List.sum_cons]

section HeavyNode
variable {k : Nat} {b b' : Build} {s l x : Key} {rest : List Key} (h : MergeStep k b b' s l rest)
  (htotal : (b.work.map fun y => y.weight.toNat).sum = x.weight.toNat) (hpos : 0 < x.weight.toNat)
include h htotal hpos

/-- A node that has all the weight of W is not the first to be taken. -/
theorem MergeStep.first_ne_heavy : s ≠ x := by
  rintro rfl
  have hsl := weight_le_of_not_keyLess (h.leastFirst l (by simp))
  rw [h.taken_weight] at htotal
  omega

/-- Nor the second, while there is a third. -/
theorem MergeStep.second_ne_heavy (hrest : rest ≠ []) : l ≠ x := by
  rintro rfl
  obtain ⟨y, ys, rfl⟩ := List.exists_cons_of_ne_nil hrest
  have hly := weight_le_of_not_keyLess (h.leastSecond y (by simp))
  rw [h.taken_weight, List.map_cons, List.sum_cons] at htotal
  omega

end HeavyNode

section SingleSymbol
variable {fs : List Word64} (hfs : fs.length = 256) {x : Byte} {f : Word64}
  (hsum : (fs.map BitVec.toNat).sum = f.toNat)
include hfs hsum

theorem heavyLeaf_total {k : Nat} (hk : k ≤ 255) :
    ((buildAfter fs k).work.map fun y => y.weight.toNat).sum = (leafKey x.toNat f).weight.toNat := by
  rw [(buildAfter_inv hfs hk).total, hsum, toNat_leafWeight]

variable (hx : fs[x.toNat]? = some f) (hpos : 0 < f.toNat)
include hx hpos

/-- The leaf of the one symbol that occurs stays in W up to the last merge. -/
theorem heavyLeaf_mem {k : Nat} (hk : k ≤ 254) : leafKey x.toNat f ∈ (buildAfter fs k).work := by
  induction k with
  | zero => exact mem_startBuild_work.2 ⟨_, _, hx, rfl⟩
  | succ k ih =>
    obtain ⟨s, l, rest, hstep⟩ := exists_mergeStep hfs (k := k) (by omega)
    have htotal := heavyLeaf_total hfs hsum (x := x) (k := k) (by omega)
    have hheavy : 0 < (leafKey x.toNat f).weight.toNat := by rwa [toNat_leafWeight]
    have hrest : rest ≠ [] := by
      rintro rfl
      have hcount := (buildAfter_inv hfs (k := k) (by omega)).count
      rw [hstep.taken.length_eq] at hcount
      simp only [List.length_cons, List.length_nil] at hcount
      omega
    have hmem := hstep.taken.mem_iff.1 (ih (by omega))
    rw [List.mem_cons, List.mem_cons] at hmem
    rw [hstep.work]
    exact List.mem_cons_of_mem _ ((hmem.resolve_left (hstep.first_ne_heavy htotal hheavy).symm).resolve_left
      (hstep.second_ne_heavy htotal hheavy hrest).symm)

/-- The last merge takes the node of the merge before, which has no weight, and then that leaf. -/
theorem heavyLeaf_lastMerge :
    ∃ s, MergeStep 254 (buildAfter fs 254) (buildAfter fs 255) s (leafKey x.toNat f) [] ∧
      s.index = 509 ∧ s.weight = 0 := by
  obtain ⟨s, l, rest, hstep⟩ := exists_mergeStep hfs (k := 254) (by decide)
  obtain ⟨s', l', rest', hprev⟩ := exists_mergeStep hfs (k := 253) (by decide)
  have htotal := heavyLeaf_total hfs hsum (x := x) (k := 254) (by decide)
  have hheavy : 0 < (leafKey x.toNat f).weight.toNat := by rwa [toNat_leafWeight]
  obtain rfl : rest = [] := by
    have hcount := (buildAfter_inv hfs (k := 254) (by decide)).count
    rw [hstep.taken.length_eq] at hcount
    exact List.length_eq_zero_iff.1 (by simpa using hcount)
  obtain rfl : l = leafKey x.toNat f := by
    have hmem := hstep.taken.mem_iff.1 (heavyLeaf_mem hfs hsum hx hpos (Nat.le_refl 254))
    rw [List.mem_cons, List.mem_singleton] at hmem
    exact (hmem.resolve_left (hstep.first_ne_heavy htotal hheavy).symm).symm
  refine ⟨s, hstep, ?_, ?_⟩
  · have hmem := hstep.taken.mem_iff.1 (hprev.work ▸ List.mem_cons_self ..)
    rw [List.mem_cons, List.mem_singleton] at hmem
    rcases hmem with hmade | hleaf
    · exact (congrArg Key.index hmade).symm
    · have hindex : 509 = (leafIndex x).toNat := leafKey_index x f ▸ congrArg (fun y => y.index.toNat) hleaf
      have hlt := x.isLt
      rw [leafIndex_toNat] at hindex
      omega
  · rw [hstep.taken_weight] at htotal
    exact BitVec.eq_of_toNat_eq (by simpa using htotal)

theorem heavyLeaf_root :
    readNode (buildTree fs) Config.root = .ok (.internal 509 (leafIndex x) (f.setWidth 72)) := by
  obtain ⟨s, hstep, hindex, hweight⟩ := heavyLeaf_lastMerge hfs hsum hx hpos
  have hread := hstep.readNode_buildTree hfs (by decide)
  rw [hindex, hweight, zero_add, leafKey_index] at hread
  exact hread

/-- What is left for the other child of the root is no weight at all. -/
theorem heavyLeaf_sibling : weightAt (buildTree fs) 509 = some 0 := by
  obtain ⟨hleaf, hsums, -⟩ := weightsAreExactSums fs hfs
  obtain ⟨wl, wr, hwl, hwr, hw⟩ := hsums _ _ _ _ (heavyLeaf_root hfs hsum hx hpos)
  obtain rfl := weightAt_unique hwr (hleaf x f hx)
  rw [BitVec.toNat_setWidth_of_le (by decide)] at hw
  rw [hwl]
  exact congrArg some (by omega)

end SingleSymbol

/-- Where the right child of the root is the leaf of `x`, every other symbol lies to the left. -/
theorem path_starts_left {m : NodeMemory} (hm : WellBuilt m) {x b : Byte} {c : BitString}
    (hright : childOf m Config.root true = .ok (leafIndex x)) (hb : b ≠ x) (hne : c ≠ [])
    (hpath : followPath m Config.root c = .ok (leafIndex b)) : c.head? = some false := by
  obtain ⟨d, c, rfl⟩ := List.exists_cons_of_ne_nil hne
  cases d with
  | false => rfl
  | true =>
    obtain ⟨y, hy, hrest⟩ := followPath_cons.1 hpath
    rw [hright] at hy
    cases hy
    cases c with
    | nil => exact absurd (leafIndex_inj (Except.ok.inj hrest)).symm hb
    | cons d c =>
      obtain ⟨z, hz, -⟩ := followPath_cons.1 hrest
      exact absurd hz (leaf_no_child hm x d z)

theorem sum_set_zero {n i : Nat} (hi : i < n) (f : Word64) :
    (((List.replicate n (0 : Word64)).set i f).map BitVec.toNat).sum = f.toNat := by
  rw [List.map_set, List.sum_set]
  simp [hi]

/-- Settles O29: the one frequency is the sum of all, so the leaf of `x` is the right child of the root. -/
theorem singleSymbolGetsCodeOne : Obligations.SingleSymbolGetsCodeOne := by
  intro x f hf
  have hfs : ((List.replicate 256 (0 : Word64)).set x.toNat f).length = 256 :=
    List.length_set.trans List.length_replicate
  have hx := List.getElem?_set_self (l := List.replicate 256 (0 : Word64)) (a := f)
    (x.isLt.trans_eq List.length_replicate.symm)
  have hsum := sum_set_zero x.isLt f
  have hpos : 0 < f.toNat := by
    rw [Nat.pos_iff_ne_zero]
    exact fun h => hf (BitVec.eq_of_toNat_eq h)
  generalize (List.replicate 256 (0 : Word64)).set x.toNat f = fs at hfs hx hsum ⊢
  have hroot := heavyLeaf_root hfs hsum hx hpos
  refine ⟨hroot, heavyLeaf_sibling hfs hsum hx hpos, fun s hp hnode => ?_⟩
  have hm : WellBuilt s.node := hnode ▸ builtTreeIsWellFormed fs hfs
  have hright : childOf s.node Config.root true = .ok (leafIndex x) :=
    childOf_ok_iff.2 ⟨_, _, _, hnode ▸ hroot, rfl⟩
  obtain ⟨st, hasg, hentry⟩ := exec_asg hp hm
  refine ⟨_, hasg, ?_⟩
  simp only [State.entry]
  obtain ⟨c, hpath, -, heq⟩ := hentry x
  obtain rfl : c = [true] := path_unique hm hpath (followPath_cons.2 ⟨leafIndex x, hright, rfl⟩)
  rw [heq]
  refine ⟨rfl, rfl, fun b hb => ?_⟩
  obtain ⟨c, hpath, hne, heq⟩ := hentry b
  rw [heq]
  exact path_starts_left hm hright hb hne hpath

/-! ## All frequencies equal (R127) -/

/-- The weight of node `n` of the perfect tree: twice as much from level to level (R127). -/
def perfectWeight (f : Word64) (n : Nat) : Nat := f.toNat * 2 ^ (8 - Nat.log2 (511 - n))

theorem perfectWeight_leaf (f : Word64) {n : Nat} (hn : n < 256) : perfectWeight f n = f.toNat := by
  have hlog : Nat.log2 (511 - n) = 8 := (Nat.log2_eq_iff (by omega)).2 (by omega)
  simp [perfectWeight, hlog]

/-- Merge `j` pairs two nodes of one level, and its own node is on the next. -/
theorem perfectWeight_merge (f : Word64) {j : Nat} (hj : j < 255) :
    perfectWeight f (2 * j) + perfectWeight f (2 * j + 1) = perfectWeight f (256 + j) := by
  have hlog : Nat.log2 (255 - j) < 8 := (Nat.log2_lt (by omega)).2 (by omega)
  have hleft : Nat.log2 (511 - 2 * j) = Nat.log2 (255 - j) + 1 := by
    rw [Nat.log2_def, if_pos (by omega)]
    congr 2
    omega
  have hright : Nat.log2 (511 - (2 * j + 1)) = Nat.log2 (255 - j) + 1 := by
    rw [Nat.log2_def, if_pos (by omega)]
    congr 2
    omega
  have hmade : 511 - (256 + j) = 255 - j := by omega
  have hlevel : 8 - Nat.log2 (255 - j) = 8 - (Nat.log2 (255 - j) + 1) + 1 := by omega
  rw [perfectWeight, perfectWeight, perfectWeight, hleft, hright, hmade, hlevel, Nat.pow_succ]
  ring

theorem perfectWeight_mono (f : Word64) {i j : Nat} (h : i ≤ j) : perfectWeight f i ≤ perfectWeight f j := by
  have hlog : Nat.log2 (511 - j) ≤ Nat.log2 (511 - i) := by
    rw [Nat.log2_eq_log_two, Nat.log2_eq_log_two]
    exact Nat.log_mono_right (by omega)
  exact Nat.mul_le_mul_left _ (Nat.pow_le_pow_right (by decide) (by omega))

theorem perfectWeight_lt (f : Word64) (n : Nat) : perfectWeight f n < 2 ^ 72 := by
  have hpow : 2 ^ (8 - Nat.log2 (511 - n)) ≤ 2 ^ 8 := Nat.pow_le_pow_right (by decide) (by omega)
  calc perfectWeight f n ≤ f.toNat * 2 ^ 8 := Nat.mul_le_mul_left _ hpow
    _ < 2 ^ 72 := by have := f.isLt; omega

/-- The key of node `n` of the perfect tree. -/
def perfectKey (f : Word64) (n : Nat) : Key :=
  { weight := BitVec.ofNat 72 (perfectWeight f n), index := BitVec.ofNat 9 n }

theorem toNat_perfectKey_weight (f : Word64) (n : Nat) : (perfectKey f n).weight.toNat = perfectWeight f n := by
  rw [perfectKey, BitVec.toNat_ofNat, Nat.mod_eq_of_lt (perfectWeight_lt f n)]

theorem leafKey_eq_perfectKey (f : Word64) {n : Nat} (hn : n < 256) : leafKey n f = perfectKey f n := by
  simp [leafKey, perfectKey, perfectWeight_leaf f hn]

/-- In the perfect tree the order of keys is the order of indices. -/
theorem keyLess_perfectKey (f : Word64) {i j : Nat} (hij : i < j) (hj : j ≤ 510) :
    keyLess (perfectKey f i) (perfectKey f j) = true := by
  have hmono := perfectWeight_mono f hij.le
  rw [keyLess_iff, toNat_perfectKey_weight, toNat_perfectKey_weight]
  simp only [perfectKey, BitVec.toNat_ofNat]
  omega

/-- So the least of the nodes `i` to `i + n` is node `i`. -/
theorem least_of_perfect {f : Word64} {i n : Nat} (hn : i + n ≤ 510) {x : Key} {w : List Key}
    (hperm : (x :: w).Perm ((List.range' i (n + 1)).map (perfectKey f)))
    (hleast : ∀ y ∈ x :: w, keyLess y x = false) :
    x = perfectKey f i ∧ w.Perm ((List.range' (i + 1) n).map (perfectKey f)) := by
  have hx : x = perfectKey f i := by
    obtain ⟨j, hj, rfl⟩ := List.mem_map.1 (hperm.mem_iff.1 (List.mem_cons_self ..))
    have hrange := List.mem_range'_1.1 hj
    have hi := hleast (perfectKey f i) (hperm.mem_iff.2 (List.mem_map_of_mem (by simp)))
    by_contra hne
    have hij : i < j := lt_of_le_of_ne hrange.1 fun h => hne (h ▸ rfl)
    rw [keyLess_perfectKey f hij (by omega)] at hi
    cases hi
  rw [hx, List.range'_succ, List.map_cons] at hperm
  exact ⟨hx, hperm.cons_inv⟩

section EqualFrequencies
variable {fs : List Word64} (hfs : fs.length = 256) {f : Word64}
include hfs

/-- Where W holds the nodes `2 j` to `255 + j`, merge `j` takes the first two of them. -/
theorem perfect_step {j : Nat} (hj : j < 255)
    (hwork : (buildAfter fs j).work.Perm ((List.range' (2 * j) (256 - j)).map (perfectKey f))) :
    ∃ rest, MergeStep j (buildAfter fs j) (buildAfter fs (j + 1)) (perfectKey f (2 * j))
        (perfectKey f (2 * j + 1)) rest ∧
      rest.Perm ((List.range' (2 * j + 2) (254 - j)).map (perfectKey f)) := by
  obtain ⟨s, l, rest, hstep⟩ := exists_mergeStep hfs hj
  have hperm := hstep.taken.symm.trans hwork
  rw [show 256 - j = 254 - j + 1 + 1 by omega] at hperm
  obtain ⟨rfl, hothers⟩ := least_of_perfect (by omega) hperm hstep.leastFirst
  obtain ⟨rfl, hrest⟩ := least_of_perfect (by omega) hothers hstep.leastSecond
  exact ⟨rest, hstep, hrest⟩

variable (hf : ∀ g ∈ fs, g = f)
include hf

theorem perfect_start : (startBuild fs).work = (List.range' 0 256).map (perfectKey f) := by
  rw [← hfs, ← List.zipIdx_map_snd, List.map_map]
  refine List.map_congr_left fun p hp => ?_
  obtain ⟨-, hlt, hget⟩ := List.mem_zipIdx hp
  rw [hf p.1 (hget ▸ List.getElem_mem _)]
  exact leafKey_eq_perfectKey f (by omega)

/-- After `j` merges W holds the nodes `2 j` to `255 + j`. -/
theorem perfect_work {j : Nat} (hj : j ≤ 255) :
    (buildAfter fs j).work.Perm ((List.range' (2 * j) (256 - j)).map (perfectKey f)) := by
  induction j with
  | zero => exact .of_eq (perfect_start hfs hf)
  | succ j ih =>
    obtain ⟨rest, hstep, hrest⟩ := perfect_step hfs hj (ih (by omega))
    have hmade : perfectKey f (256 + j) =
        ⟨(perfectKey f (2 * j)).weight + (perfectKey f (2 * j + 1)).weight, BitVec.ofNat 9 (256 + j)⟩ := by
      rw [perfectKey, Key.mk.injEq]
      refine ⟨BitVec.eq_of_toNat_eq ?_, rfl⟩
      rw [hstep.exactSum, toNat_perfectKey_weight, toNat_perfectKey_weight, perfectWeight_merge f hj]
      exact toNat_perfectKey_weight f (256 + j)
    rw [hstep.work, ← hmade, show 256 - (j + 1) = 254 - j + 1 by omega, List.range'_1_concat, List.map_append,
      show 2 * (j + 1) + (254 - j) = 256 + j by omega]
    exact (hrest.cons _).trans (List.perm_append_singleton _ _).symm

/-- Node `256 + j` is `Internal(2 j, 2 j + 1)`. -/
theorem perfect_node {j : Nat} (hj : j < 255) :
    ∃ w, readNode (buildTree fs) (BitVec.ofNat 9 (256 + j)) =
        .ok (.internal (BitVec.ofNat 9 (2 * j)) (BitVec.ofNat 9 (2 * j + 1)) w) ∧
      w.toNat = perfectWeight f (256 + j) := by
  obtain ⟨rest, hstep, -⟩ := perfect_step hfs hj (perfect_work hfs hf (by omega))
  refine ⟨_, hstep.readNode_buildTree hfs hj, ?_⟩
  rw [hstep.exactSum, toNat_perfectKey_weight, toNat_perfectKey_weight, perfectWeight_merge f hj]

theorem perfect_child (j : Nat) (b : Bool) (hj : j < 255) :
    childOf (buildTree fs) (BitVec.ofNat 9 (256 + j)) b = .ok (BitVec.ofNat 9 (2 * j + b.toNat)) := by
  obtain ⟨w, hread, -⟩ := perfect_node hfs hf hj
  refine childOf_ok_iff.2 ⟨_, _, _, hread, ?_⟩
  cases b <;> rfl

end EqualFrequencies

theorem bitsVal_concat (c : BitString) (b : Bool) : bitsVal (c ++ [b]) = 2 * bitsVal c + b.toNat := by
  simp [bitsVal]

/-- Where the children of node `256 + j` are `2 j` and `2 j + 1`, the paths of one length lead to the nodes of one
level, in the order of their values. -/
theorem perfect_path {m : NodeMemory}
    (hm : ∀ (j : Nat) (b : Bool), j < 255 →
      childOf m (BitVec.ofNat 9 (256 + j)) b = .ok (BitVec.ofNat 9 (2 * j + b.toNat)))
    {c : BitString} (hc : c.length ≤ 8) :
    followPath m Config.root c = .ok (BitVec.ofNat 9 (512 - 2 ^ (c.length + 1) + bitsVal c)) := by
  induction c using List.reverseRecOn with
  | nil => rfl
  | append_singleton c b ih =>
    rw [List.length_append, List.length_singleton] at hc ⊢
    have hval := bitsVal_lt c
    have hpow : 2 ^ c.length ≤ 2 ^ 7 := Nat.pow_le_pow_right (by decide) (by omega)
    have hnode : 512 - 2 ^ (c.length + 1) + bitsVal c = 256 + (256 - 2 ^ (c.length + 1) + bitsVal c) := by
      rw [Nat.pow_succ]
      omega
    have hchild : 2 * (256 - 2 ^ (c.length + 1) + bitsVal c) + b.toNat =
        512 - 2 ^ (c.length + 1 + 1) + bitsVal (c ++ [b]) := by
      rw [bitsVal_concat, Nat.pow_succ, Nat.pow_succ]
      omega
    refine followPath_append.2 ⟨_, ih (by omega), followPath_cons.2 ⟨_, ?_, rfl⟩⟩
    rw [hnode, hm _ b (by rw [Nat.pow_succ]; omega), hchild]

/-- Settles O28, by `perfect_node`, and `perfect_path` for the 8 bits of a byte. -/
theorem equalFrequenciesGivePerfectTree : Obligations.EqualFrequenciesGivePerfectTree := by
  intro f
  have hfs : (List.replicate 256 f).length = 256 := List.length_replicate
  have hf : ∀ g ∈ List.replicate 256 f, g = f := fun g => List.eq_of_mem_replicate
  generalize List.replicate 256 f = fs at hfs hf ⊢
  refine ⟨fun j hj => ?_, fun a => ?_⟩
  · obtain ⟨w, hread, hw⟩ := perfect_node hfs hf hj
    refine ⟨w, hread, ?_⟩
    rw [hw, perfectWeight, show 511 - (256 + j) = 255 - j by omega]
  · rw [perfect_path (perfect_child hfs hf) (byteBits_length a).le,
      byteBits_length, bitsVal_byteBits]
    exact congrArg Except.ok (BitVec.eq_of_toNat_eq (by simp [leafIndex]))

end Sys2Proof.Proofs
end

section
/-! The obligations of 42_code_assigner.md: what ASG, RDL and RDC answer, and the properties of R144 that hold of the
paths of any built tree. -/

namespace Sys2Proof.Proofs
open Sys2Proof.Machine

/-! ## The paths to the leaves of a built tree -/

/-- A path is followed edge by edge: its last edge leads on from where the others lead. -/
theorem followPath_concat {m : NodeMemory} {n x : NodeIndex} {c : BitString} {b : Bool} :
    followPath m n (c ++ [b]) = .ok x ↔ ∃ y, followPath m n c = .ok y ∧ childOf m y b = .ok x := by
  have hnil : ∀ y, followPath m y [] = .ok y := fun _ => rfl
  simp only [followPath_append, followPath_cons, hnil, Except.ok.injEq, exists_eq_right]

/-- A bit-string that goes beyond `p` goes on with a 0 or with a 1. -/
theorem prefix_split {p c : BitString} (hne : c ≠ p) (w : Nat) :
    (if p <+: c then w else 0) =
      (if p ++ [false] <+: c then w else 0) + (if p ++ [true] <+: c then w else 0) := by
  by_cases h : p <+: c
  · obtain ⟨e, rfl⟩ := h
    rcases e with _ | ⟨b, e⟩
    · exact absurd (List.append_nil p) hne
    · cases b <;> simp [List.prefix_append_right_inj]
  · have hno : ∀ b, ¬ p ++ [b] <+: c := fun b hb => h ((List.prefix_append p [b]).trans hb)
    simp [h, hno]

section Built
variable {m : NodeMemory} (hm : WellBuilt m)
include hm

/-- The root is an internal node, and no tree of 511 nodes is deeper (R25, R29). -/
theorem leafPath_length {c : BitString} {a : Byte} (h : followPath m Config.root c = .ok (leafIndex a)) :
    1 ≤ c.length ∧ c.length ≤ 255 := by
  have hroot : (Config.root).toNat = 510 := rfl
  have hne : c ≠ [] := by
    rintro rfl
    have ha := a.isLt
    rw [← leafIndex_toNat, ← Except.ok.inj h] at ha
    omega
  have hdeep := ((path_descends hm h).2 hne).2.2
  exact ⟨List.length_pos_of_ne_nil hne, by omega⟩

/-- A leaf has no descendants, so the path to it leads on to no other leaf. -/
theorem leafPath_prefix {c d : BitString} {a b : Byte} (hc : followPath m Config.root c = .ok (leafIndex a))
    (hd : followPath m Config.root d = .ok (leafIndex b)) (h : c <+: d) : a = b := by
  obtain ⟨e, rfl⟩ := h
  obtain ⟨y, hy, he⟩ := followPath_append.1 hd
  obtain rfl := Except.ok.inj (hc.symm.trans hy)
  cases e with
  | nil => exact leafIndex_inj (Except.ok.inj he)
  | cons bit e =>
    obtain ⟨z, hz, -⟩ := followPath_cons.1 he
    exact absurd hz (leaf_no_child hm a bit z)

/-- Induction over a built tree: from the leaves up, from the two children of a node to the node. -/
theorem node_induction {P : (n : NodeIndex) → n.toNat ≤ 510 → Prop} (leaf : ∀ a ha, P (leafIndex a) ha)
    (inner : ∀ (n : NodeIndex) (hn : n.toNat ≤ 510) (child : Bool → NodeIndex) (hle : ∀ b, (child b).toNat ≤ 510),
      (∀ b, childOf m n b = .ok (child b)) → (∀ b, P (child b) (hle b)) → P n hn)
    (n : NodeIndex) (hn : n.toNat ≤ 510) : P n hn := by
  induction hN : n.toNat using Nat.strongRecOn generalizing n with
  | _ N ih =>
    rcases read_cases hm n hn with ⟨a, w, rfl, -⟩ | ⟨hlo, -⟩
    · exact leaf a hn
    · choose child hchild using child_exists hm hlo hn
      have hlt := fun b => (child_lt hm (hchild b)).1
      exact inner n hn child (fun b => by have := hlt b; omega) hchild fun b => ih _ (hN ▸ hlt b) _ _ rfl

variable {code : Byte → BitString} (hcode : ∀ a, followPath m Config.root (code a) = .ok (leafIndex a))
include hcode

/-- A path that leads to a node with children is no code. -/
theorem code_ne_path {n x : NodeIndex} {p : BitString} {b : Bool} (hp : followPath m Config.root p = .ok n)
    (hx : childOf m n b = .ok x) (a : Byte) : code a ≠ p := by
  rintro rfl
  obtain rfl := Except.ok.inj ((hcode a).symm.trans hp)
  exact leaf_no_child hm a b x hx

/-- The codes that go through a node `k` edges below the root weigh 2^(-k) together, in units of 2^(-255). -/
theorem sum_codes_through {n : NodeIndex} (hn : n.toNat ≤ 510) {p : BitString}
    (hp : followPath m Config.root p = .ok n) :
    (∑ a : Byte, if p <+: code a then 2 ^ (255 - (code a).length) else 0) = 2 ^ (255 - p.length) := by
  induction n, hn using node_induction hm generalizing p with
  | leaf a =>
    obtain rfl := path_unique hm hp (hcode a)
    rw [Finset.sum_eq_single a]
    · simp
    · exact fun b _ hb => if_neg fun h => hb (leafPath_prefix hm (hcode a) (hcode b) h).symm
    · simp
  | inner n hn child _ hchild ih =>
    have hstep : ∀ b, followPath m Config.root (p ++ [b]) = .ok (child b) := fun b =>
      followPath_concat.2 ⟨n, hp, hchild b⟩
    have hdeep := ((path_descends hm (hstep false)).2 (by simp)).2.2
    have hroot : (Config.root).toNat = 510 := rfl
    simp only [prefix_split (code_ne_path hm hcode hp (hchild false) _), Finset.sum_add_distrib]
    rw [ih false (hstep false), ih true (hstep true)]
    simp only [List.length_append, List.length_singleton] at hdeep ⊢
    rw [← Nat.two_mul, ← Nat.pow_succ']
    congr 1
    omega

/-- Whoever has followed the bits `f` to a node will follow them to a leaf. -/
theorem exists_code_of_stream (f : Nat → Bool) {n : NodeIndex} (hn : n.toNat ≤ 510) {k : Nat}
    (hk : followPath m Config.root ((List.range k).map f) = .ok n) :
    ∃ a, code a = (List.range (code a).length).map f := by
  induction n, hn using node_induction hm generalizing k with
  | leaf a =>
    have hc := path_unique hm (hcode a) hk
    exact ⟨a, by simp [hc]⟩
  | inner n hn child _ hchild ih =>
    refine ih (f k) (k := k + 1) ?_
    rw [List.range_succ, List.map_append]
    exact followPath_concat.2 ⟨n, hk, hchild (f k)⟩

end Built

/-! ## ASG (R140, R142) -/

theorem spells_asg : Spells 0x05 (fun a d => a == 0 && d == 0) (fun _ _ => .asg) :=
  spells_formatZ fun w hop => by
    unfold decode
    rw [hop]
    rfl

/-- What ASG leaves in a symbol's entry: the path to its leaf, the length of that path, and the frequency. -/
structure PathEntry (m : NodeMemory) (a : Byte) (e e' : SymbolEntry) : Prop where
  path : followPath m Config.root e'.code = .ok (leafIndex a)
  len : e'.len.toNat = e'.code.length
  freq : e'.freq = e.freq

theorem asg_entry {s t : State} (hp : s.phase = .tree) (hm : WellBuilt s.node) (h : exec .asg s = .next t) (a : Byte) :
    PathEntry s.node a (s.entry a) (t.entry a) := by
  obtain ⟨st, hasg, hentry⟩ := exec_asg hp hm
  rw [hasg] at h
  cases h
  obtain ⟨c, hpath, -, heq⟩ := hentry a
  have hlen := (leafPath_length hm hpath).2
  simp only [State.entry, heq]
  exact ⟨hpath, by simp only [codedEntry, BitVec.toNat_ofNat]; omega, rfl⟩

/-- Settles O31, by `exec_asg` and `asg_entry`. -/
theorem asgAssignsPaths : Obligations.AsgAssignsPaths := by
  refine ⟨spells_asg, fun s hp hm => ?_, fun s htree hp => ?_⟩
  · obtain ⟨st, hasg, -⟩ := exec_asg hp hm
    refine ⟨_, hasg, fun a => ?_, rfl⟩
    obtain ⟨hpath, hlen, hfreq⟩ := asg_entry hp hm hasg a
    exact ⟨hpath, hlen, hfreq⟩
  · exact exec_illegal hp rfl (by simp [legalIn, htree])

/-! ## The code that ASG gives (R144) -/

/-- Settles O32, by `leafPath_length`. -/
theorem codeLengthsInRange : Obligations.CodeLengthsInRange := by
  intro s t hp hm h a
  obtain ⟨hpath, hlen, -⟩ := asg_entry hp hm h a
  rw [hlen]
  obtain ⟨hlo, hhi⟩ := leafPath_length hm hpath
  exact ⟨hlo, hhi, rfl⟩

/-- Settles O33, by `leafPath_prefix`. -/
theorem codesArePrefixFree : Obligations.CodesArePrefixFree := by
  intro s t hp hm h a b hne hprefix
  exact hne (leafPath_prefix hm (asg_entry hp hm h a).path (asg_entry hp hm h b).path hprefix)

/-- A sum over the list of all symbols is a sum over all bytes. -/
theorem sum_allSymbols (f : Byte → Nat) : (allSymbols.map f).sum = ∑ a : Byte, f a := by
  have hnodup : allSymbols.Nodup := by
    refine List.Nodup.map_on (fun x hx y hy hxy => ?_) List.nodup_range
    rw [List.mem_range] at hx hy
    have hval := congrArg BitVec.toNat hxy
    simp only [BitVec.toNat_ofNat] at hval
    omega
  have huniv : allSymbols.toFinset = Finset.univ := by
    ext a
    simp only [List.mem_toFinset, Finset.mem_univ, iff_true]
    exact List.mem_map.2 ⟨a.toNat, List.mem_range.2 a.isLt, BitVec.ofNat_toNat 8 a⟩
  rw [← huniv, List.sum_toFinset f hnodup]

/-- Of two beginnings of one stream the longer begins with the shorter. -/
theorem stream_prefix (f : Nat → Bool) {j k : Nat} (h : j ≤ k) : (List.range j).map f <+: (List.range k).map f := by
  obtain ⟨i, rfl⟩ := Nat.exists_eq_add_of_le h
  rw [List.range_add, List.map_append]
  exact List.prefix_append _ _

/-- Settles O34: every code goes through the root, where `sum_codes_through` gives the sum. A stream is followed from the
root to a leaf, and of two codes that begin it the longer begins with the shorter. -/
theorem codeIsComplete : Obligations.CodeIsComplete := by
  intro s t hp hm h
  have hcode := fun a => (asg_entry hp hm h a).path
  simp only [fun a => (asg_entry hp hm h a).len]
  have hroot : (Config.root).toNat ≤ 510 := Nat.le_refl 510
  refine ⟨?_, fun f => ?_⟩
  · rw [sum_allSymbols]
    simpa using sum_codes_through hm hcode hroot (p := []) rfl
  · obtain ⟨a, ha⟩ := exists_code_of_stream hm hcode f hroot (k := 0) rfl
    refine ⟨a, ha, fun b hb => ?_⟩
    simp only at hb
    rcases Nat.le_total (t.entry a).code.length (t.entry b).code.length with hle | hle
    · refine (leafPath_prefix hm (hcode a) (hcode b) ?_).symm
      rw [ha, hb]
      exact stream_prefix f (by simpa using hle)
    · refine leafPath_prefix hm (hcode b) (hcode a) ?_
      rw [ha, hb]
      exact stream_prefix f (by simpa using hle)

/-! ## RDL (R143) -/

theorem spells_rdl : Spells 0x12 (fun _ d => d == 0) (fun a _ => .rdl a) :=
  spells_formatA fun w hop => by
    unfold decode
    rw [hop]
    rfl

theorem exec_rdl {s : State} (hp : s.phase ≠ .error) (a : Byte) :
    exec (.rdl a) s = .next { s with rsp := some (.val ((s.entry a).len.setWidth 64)) } := by
  simp only [exec, execRdl]
  rw [guarded_legal hp rfl rfl]
  rfl

theorem ne_error_before_asg {p : Phase} (h : p.unbuilt ∨ p = .tree) : p ≠ .error := by
  rintro rfl
  rcases h with h | h <;> cases h

/-- Before ASG the length is that of the empty code. -/
theorem len_before_asg {s : State} (hi : s.Inv) (h : s.phase.unbuilt ∨ s.phase = .tree) (a : Byte) :
    (s.entry a).len = 0 := by
  apply BitVec.eq_of_toNat_eq
  rw [← hi.codeLength a, hi.noCodes h a]
  rfl

/-- Settles O36, by `exec_rdl`; the invariant gives the code, and `leafPath_length` the range after ASG. -/
theorem rdlReadsLength : Obligations.RdlReadsLength := by
  refine ⟨spells_rdl, fun s a hp => exec_rdl hp a, fun s a hi hbefore => ?_, fun s a hi hcoded => ?_,
    fun s a hp => exec_error hp rfl⟩
  · rw [exec_rdl (ne_error_before_asg hbefore), len_before_asg hi hbefore]
    rfl
  · have hb := built_of_coded hcoded
    refine ⟨_, exec_rdl (ne_error_of_built hb) a, ?_⟩
    rw [BitVec.toNat_setWidth_of_le (by decide), ← hi.codeLength a]
    exact leafPath_length (wellBuilt_of_inv hi hb) (hi.codes hcoded a)

/-! ## RDC (R145) -/

theorem spells_rdc : Spells 0x13 (fun _ d => decide (d ≤ 3)) (fun a d => .rdc a d) :=
  spells_of_decode fun w hop => by
    unfold decode
    rw [hop]
    rfl

theorem exec_rdc {s : State} {d : Word64} (hd : d ≤ 3) (hp : s.phase ≠ .error) (a : Byte) :
    exec (.rdc a d) s = .next { s with rsp := some (.val (codeChunk (s.entry a).code d)) } := by
  simp only [exec, execRdc]
  rw [guarded_legal (i := .rdc a d) hp (decide_eq_true hd) rfl]
  rfl

/-- The value of a bit-string as the sum of R10. -/
theorem bitsVal_eq_sum (c : BitString) :
    bitsVal c = ((List.range c.length).map fun i => (c.getD i false).toNat * 2 ^ (c.length - 1 - i)).sum := by
  induction c with
  | nil => rfl
  | cons b c ih =>
    rw [bitsVal_cons, ih, List.length_cons, List.range_succ_eq_map, List.map_cons, List.sum_cons, List.map_map]
    congr 2
    refine List.map_congr_left fun i _ => ?_
    rw [Function.comp_apply, List.getD_cons_succ, show c.length + 1 - 1 - (i + 1) = c.length - 1 - i by omega]

/-- A chunk is 64 bits of the code's value, which 256 bits hold. -/
theorem toNat_codeChunk {c : BitString} (hc : c.length ≤ 255) (d : Word64) :
    (codeChunk c d).toNat = bitsVal c / 2 ^ (64 * d.toNat) % 2 ^ 64 := by
  have hlt : bitsVal c < 2 ^ 256 := (bitsVal_lt c).trans_le (Nat.pow_le_pow_right (by decide) (by omega))
  rw [codeChunk, BitVec.extractLsb'_toNat, BitVec.toNat_ofNat, Nat.mod_eq_of_lt hlt, Nat.shiftRight_eq_div_pow]

/-- The empty code has the value 0. -/
theorem codeChunk_nil (d : Word64) : codeChunk [] d = 0 := by
  apply BitVec.eq_of_toNat_eq
  rw [toNat_codeChunk (Nat.zero_le _)]
  simp [bitsVal]

/-- Settles O37, by `exec_rdc`; the value of the code is the sum of R10. -/
theorem rdcReadsChunk : Obligations.RdcReadsChunk := by
  refine ⟨spells_rdc, fun s a d hd hp hc => ⟨_, exec_rdc hd hp a, ?_⟩, fun s a d hi hbefore hd => ?_,
    fun s a d hp => exec_error hp rfl⟩
  · rw [toNat_codeChunk hc, bitsVal_eq_sum]
  · rw [exec_rdc hd (ne_error_before_asg hbefore), hi.noCodes hbefore, codeChunk_nil]

end Sys2Proof.Proofs
end

section
/-! R144 (d) of 42_code_assigner.md: a build takes its nodes in the order of their keys (`children_in_order`), so the node
with the smaller key has the earlier parent, and an earlier node is never nearer to the root. -/

namespace Sys2Proof.Proofs
open Sys2Proof.Machine

/-! ## The order in which a build takes its nodes -/

section Build
variable {fs : List Word64} (hfs : fs.length = 256)
include hfs

/-- A key in W is the key of its node in the built tree. -/
theorem weightAt_buildTree_of_mem {k : Nat} (hk : k ≤ 255) {x : Key} (hx : x ∈ (buildAfter fs k).work) :
    weightAt (buildTree fs) x.index = some x.weight.toNat := by
  have hinv := buildAfter_inv hfs hk
  obtain ⟨y, hy, hw⟩ := weightAt_some_iff.1 (hinv.held x hx)
  refine weightAt_some_iff.2 ⟨y, ?_, hw⟩
  rw [buildTree_eq_buildAfter, readNode_buildAfter hfs hk (Nat.le_refl 255) (hinv.bound x hx), hy]

/-- Whatever is less than every key in W stays so: the node that a merge makes weighs no less than the two it takes, and
has a greater index than any node before it. -/
theorem keyLess_work_of_le {j k : Nat} (hjk : j ≤ k) (hk : k ≤ 255) {x : Key} (hbound : x.index.toNat < 256 + j)
    (hx : ∀ y ∈ (buildAfter fs j).work, keyLess x y = true) : ∀ y ∈ (buildAfter fs k).work, keyLess x y = true := by
  induction k, hjk using Nat.le_induction with
  | base => exact hx
  | succ k hjk ih =>
    obtain ⟨s, l, rest, hstep⟩ := exists_mergeStep hfs hk
    have hwork := ih (by omega)
    intro y hy
    rw [hstep.work] at hy
    rcases List.mem_cons.1 hy with rfl | hy
    · have hs := hwork s (hstep.taken.mem_iff.2 (by simp))
      have hsum := hstep.exactSum
      have hindex := toNat_madeIndex hk
      rw [keyLess_iff] at hs ⊢
      simp only [hsum, hindex]
      omega
    · exact hwork y (hstep.taken.mem_iff.2 (by simp [hy]))

/-- The second node that a merge takes comes before all that is in W afterwards. -/
theorem MergeStep.second_keyLess {k : Nat} (hk : k < 255) {s l : Key} {rest : List Key}
    (h : MergeStep k (buildAfter fs k) (buildAfter fs (k + 1)) s l rest) :
    ∀ y ∈ (buildAfter fs (k + 1)).work, keyLess l y = true := by
  have hinv := buildAfter_inv hfs (Nat.le_of_lt hk)
  have hl := hinv.bound l (h.taken.mem_iff.2 (by simp))
  intro y hy
  have hle := h.weight_le hy
  rw [h.work] at hy
  rcases List.mem_cons.1 hy with rfl | hy
  · have hindex := toNat_madeIndex hk
    rw [keyLess_iff]
    simp only [hindex] at hle ⊢
    omega
  · have hnodup := ((h.taken.map Key.index).nodup_iff.1 hinv.nodup).of_cons
    rw [List.map_cons, List.nodup_cons] at hnodup
    exact keyLess_of_not (h.leastSecond y (List.mem_cons_of_mem _ hy))
      fun he => hnodup.1 (he ▸ List.mem_map_of_mem hy)

/-- And so does the first, which the second does not come before. -/
theorem MergeStep.first_keyLess {k : Nat} (hk : k < 255) {s l : Key} {rest : List Key}
    (h : MergeStep k (buildAfter fs k) (buildAfter fs (k + 1)) s l rest) :
    ∀ y ∈ (buildAfter fs (k + 1)).work, keyLess s y = true := by
  intro y hy
  have hly := h.second_keyLess hfs hk y hy
  have hsl := h.leastFirst l (by simp)
  rw [keyLess_false_iff] at hsl
  rw [keyLess_iff] at hly ⊢
  omega

/-- A child of node `256 + k` was taken by merge `k`, before all that is in W afterwards. -/
theorem taken_of_child {n x : NodeIndex} {b : Bool} (h : childOf (buildTree fs) n b = .ok x) :
    ∃ k key, k < 255 ∧ n.toNat = 256 + k ∧ key.index = x ∧ key ∈ (buildAfter fs k).work ∧
      ∀ y ∈ (buildAfter fs (k + 1)).work, keyLess key y = true := by
  obtain ⟨-, hlo, hhi⟩ := child_lt (builtTreeIsWellFormed fs hfs) h
  obtain ⟨k, hk⟩ := Nat.exists_eq_add_of_le hlo
  have hlt : k < 255 := by omega
  obtain ⟨s, l, rest, hstep⟩ := exists_mergeStep hfs hlt
  have hn : n = BitVec.ofNat 9 (256 + k) := BitVec.eq_of_toNat_eq (by rw [toNat_madeIndex hlt, hk])
  obtain ⟨l', r', w, hread, rfl⟩ := childOf_ok_iff.1 h
  rw [hn, hstep.readNode_buildTree hfs hlt] at hread
  cases hread
  cases b with
  | false => exact ⟨k, s, hlt, hk, rfl, hstep.taken.mem_iff.2 (by simp), hstep.first_keyLess hfs hlt⟩
  | true => exact ⟨k, l, hlt, hk, rfl, hstep.taken.mem_iff.2 (by simp), hstep.second_keyLess hfs hlt⟩

/-- The children of an earlier node come before those of a later one. -/
theorem children_in_order {n n' x y : NodeIndex} {b b' : Bool} (hx : childOf (buildTree fs) n b = .ok x)
    (hy : childOf (buildTree fs) n' b' = .ok y) (hlt : n.toNat < n'.toNat) : KeyBefore (buildTree fs) x y := by
  obtain ⟨k, key, hk, hn, rfl, hmem, hless⟩ := taken_of_child hfs hx
  obtain ⟨k', key', hk', hn', rfl, hmem', -⟩ := taken_of_child hfs hy
  have hbound := (buildAfter_inv hfs hk.le).bound key hmem
  have horder := keyLess_work_of_le hfs (j := k + 1) (k := k') (by omega) hk'.le (by omega) hless key' hmem'
  exact ⟨_, _, weightAt_buildTree_of_mem hfs hk.le hmem, weightAt_buildTree_of_mem hfs hk'.le hmem', keyLess_iff.1 horder⟩

/-- So a node that comes before another has no later parent. -/
theorem parent_le_of_keyBefore {n n' x y : NodeIndex} {b b' : Bool} (hx : childOf (buildTree fs) n b = .ok x)
    (hy : childOf (buildTree fs) n' b' = .ok y) (h : KeyBefore (buildTree fs) x y) : n.toNat ≤ n'.toNat := by
  by_contra hlt
  exact keyBefore_asymm h (children_in_order hfs hy hx (by omega))

/-- The leaf of the smaller frequency comes first. -/
theorem leaves_in_order {a b : Byte} {f g : Word64} (ha : fs[a.toNat]? = some f) (hb : fs[b.toNat]? = some g)
    (hlt : f.toNat < g.toNat) : KeyBefore (buildTree fs) (leafIndex a) (leafIndex b) := by
  obtain ⟨hleaf, -, -⟩ := weightsAreExactSums fs hfs
  exact ⟨_, _, hleaf a f ha, hleaf b g hb, .inl hlt⟩

/-- The nodes that merges made come in the order of their indices, since merge weights never decrease (R126). -/
theorem madeWeight_mono {j k : Nat} (hjk : j ≤ k) (hk : k < 255) {v w : Nat}
    (hv : weightAt (buildTree fs) (BitVec.ofNat 9 (256 + j)) = some v)
    (hw : weightAt (buildTree fs) (BitVec.ofNat 9 (256 + k)) = some w) : v ≤ w := by
  induction k, hjk using Nat.le_induction generalizing w with
  | base => exact (weightAt_unique hv hw).le
  | succ k hjk ih =>
    obtain ⟨u, u', hu, hu', hle⟩ := mergeWeightsNeverDecrease fs k hfs (by omega)
    obtain rfl := weightAt_unique hw hu'
    exact (ih (by omega) hu).trans hle

theorem madeNodes_in_order {n n' : NodeIndex} (hlo : 256 ≤ n.toNat) (hlt : n.toNat < n'.toNat)
    (hhi : n'.toNat ≤ 510) : KeyBefore (buildTree fs) n n' := by
  have hm := builtTreeIsWellFormed fs hfs
  obtain ⟨l, r, w, hread, -⟩ := hm.internals n hlo (show n.toNat ≤ 510 by omega)
  obtain ⟨l', r', w', hread', -⟩ := hm.internals n' (show 256 ≤ n'.toNat by omega) hhi
  have hv := weightAt_some_iff.2 ⟨_, hread, rfl⟩
  have hw := weightAt_some_iff.2 ⟨_, hread', rfl⟩
  have hindex : ∀ i : NodeIndex, 256 ≤ i.toNat → BitVec.ofNat 9 (256 + (i.toNat - 256)) = i := fun i hi => by
    rw [Nat.add_sub_cancel' hi, BitVec.ofNat_toNat, BitVec.setWidth_eq]
  have hle := madeWeight_mono hfs (j := n.toNat - 256) (k := n'.toNat - 256) (by omega) (by omega)
    (by rwa [hindex n hlo]) (by rwa [hindex n' (by omega)])
  exact ⟨_, _, hv, hw, hle.lt_or_eq.imp_right fun he => ⟨he, hlt⟩⟩

/-- Of two nodes below the root the one with the smaller key is no nearer to the root: so it is for their parents. -/
theorem depth_antitone {x y : NodeIndex} {c d : BitString} (h : KeyBefore (buildTree fs) x y) (hne : c ≠ [])
    (hc : followPath (buildTree fs) Config.root c = .ok x) (hd : followPath (buildTree fs) Config.root d = .ok y) :
    d.length ≤ c.length := by
  have hm := builtTreeIsWellFormed fs hfs
  induction c using List.reverseRecOn generalizing x y d with
  | nil => exact absurd rfl hne
  | append_singleton c b ih =>
    rcases List.eq_nil_or_concat' d with rfl | ⟨d, b', rfl⟩
    · exact Nat.zero_le _
    · obtain ⟨n, hn, hx⟩ := followPath_concat.1 hc
      obtain ⟨n', hn', hy⟩ := followPath_concat.1 hd
      obtain ⟨-, hlo, -⟩ := child_lt hm hx
      obtain ⟨-, -, hhi⟩ := child_lt hm hy
      rw [List.length_append, List.length_append]
      refine Nat.add_le_add_right ?_ 1
      rcases (parent_le_of_keyBefore hfs hx hy h).eq_or_lt with heq | hlt
      · obtain rfl := BitVec.eq_of_toNat_eq heq
        rw [path_unique hm hn hn']
      · refine ih (madeNodes_in_order hfs hlo hlt hhi) ?_ hn hn'
        rintro rfl
        have hroot : n.toNat = 510 := (congrArg BitVec.toNat (Except.ok.inj hn)).symm
        omega

end Build

/-- Settles O35, by `depth_antitone`: of the leaves of two symbols the one of smaller frequency has the smaller key. -/
theorem greaterFrequencyHasNoLongerCode : Obligations.GreaterFrequencyHasNoLongerCode := by
  intro s hp hnode
  have hfs := frequencies_length s.st
  have hm : WellBuilt s.node := hnode ▸ builtTreeIsWellFormed _ hfs
  obtain ⟨t, hasg⟩ : ∃ t, exec .asg s = .next t := by
    obtain ⟨st, hasg, -⟩ := exec_asg hp hm
    exact ⟨_, hasg⟩
  refine ⟨t, hasg, fun a b hlt => ?_⟩
  obtain ⟨ha, hlena, -⟩ := asg_entry hp hm hasg a
  obtain ⟨hb, hlenb, -⟩ := asg_entry hp hm hasg b
  rw [hlena, hlenb]
  have hne := List.ne_nil_of_length_pos (leafPath_length hm ha).1
  rw [hnode] at ha hb
  have horder := leaves_in_order hfs (frequencies_get s.st a) (frequencies_get s.st b) hlt
  exact depth_antitone hfs horder hne ha hb

end Sys2Proof.Proofs
end

section
/-! The obligations of 43_bit_packer.md: what PKB and PKF do where their rules run, and the stream that a run of them
delivers. -/

namespace Sys2Proof.Proofs
open Sys2Proof.Machine

/-! ## PKF (R161) -/

theorem spells_pkf : Spells 0x07 (fun a d => a == 0 && d == 0) (fun _ _ => .pkf) :=
  spells_formatZ fun w hop => by
    unfold decode
    rw [hop]
    rfl

theorem exec_pkf {s : State} (hp : s.phase = .codes ∨ s.phase = .pack) :
    exec .pkf s = .next { flushBits s with phase := .packed, rsp := some .ack } := by
  have hne : s.phase ≠ .error := by rcases hp with hp | hp <;> simp [hp]
  simp only [exec, execPkf]
  rw [guarded_legal hne rfl (by simpa [legalIn] using hp)]
  rfl

/-- The shift that pads the last byte, as the multiplication that R161 writes. -/
theorem paddedByte_eq_ofNat (acc : Byte) (cnt : BitVec 3) :
    paddedByte acc cnt = BitVec.ofNat 8 (acc.toNat * 2 ^ (8 - cnt.toNat)) := by
  apply BitVec.eq_of_toNat_eq
  rw [paddedByte, BitVec.toNat_shiftLeft, Nat.shiftLeft_eq, BitVec.toNat_ofNat]

/-- Settles O39, by `exec_pkf` and the two cases of the flush. -/
theorem pkfFlushes : Obligations.PkfFlushes := by
  refine ⟨spells_pkf, fun s hp hc => ?_, fun s hp hc => ?_, fun s hcodes hpack hp => ?_⟩
  · rw [exec_pkf hp, flushBits_empty hc]
  · rw [exec_pkf hp, flushBits_waiting hc, paddedByte_eq_ofNat]
    rfl
  · exact exec_illegal hp rfl (by simp [legalIn, hcodes, hpack])

/-- The flush completes the last byte of the stream with zeros. -/
theorem flushBits_stream (s : State) :
    (flushBits s).out.flatMap byteBits =
      packedBits s ++ List.replicate ((8 - (packedBits s).length % 8) % 8) false := by
  have hcnt : (packedBits s).length % 8 = s.cnt.toNat := by
    have := s.cnt.isLt
    rw [packedBits_length]
    omega
  rw [hcnt]
  by_cases hc : s.cnt = 0
  · have hnone : pendingBits s = [] := List.eq_nil_of_length_eq_zero (by simp [hc])
    simp [flushBits_empty hc, packedBits, hnone, hc]
  · have hpad : (8 - s.cnt.toNat) % 8 = 8 - s.cnt.toNat := by
      have : s.cnt.toNat ≠ 0 := fun h => hc (BitVec.eq_of_toNat_eq h)
      omega
    simp [flushBits_waiting hc, paddedByte_bits s hc, packedBits, hpad]

/-! ## PKB (R160, R162) -/

theorem spells_pkb : Spells 0x06 (fun _ d => d == 0) (fun a _ => .pkb a) :=
  spells_formatA fun w hop => by
    unfold decode
    rw [hop]
    rfl

/-- The state that PKB leaves where its rule runs and appends the bits `c`. -/
def afterPkb (s : State) (c : BitString) : State :=
  { appendBits s c with incnt := s.incnt + 1, phase := .pack, rsp := some .ack }

@[simp] theorem afterPkb_incnt (s : State) (c : BitString) : (afterPkb s c).incnt = s.incnt + 1 := rfl

theorem exec_pkb {s : State} {a : Byte} (hp : s.phase = .codes ∨ s.phase = .pack)
    (hlen : (s.entry a).code.length = (s.entry a).len.toNat) :
    exec (.pkb a) s = .next (afterPkb s (s.entry a).code) := by
  have hne : s.phase ≠ .error := by rcases hp with hp | hp <;> simp [hp]
  have hbits : codeBits (s.entry a) = .ok (s.entry a).code := by
    rw [codeBits, if_pos hlen.ge, ← hlen, List.take_length]
  have hincnt : (appendBits s (s.entry a).code).incnt = s.incnt := by
    obtain ⟨bytes, hframe⟩ := appendBits_frame s (s.entry a).code
    rw [hframe]
  simp only [exec, execPkb]
  rw [guarded_legal (i := .pkb a) hne rfl (by simpa [legalIn] using hp), hbits]
  simp only [Except.map, finish, hincnt]
  rfl

theorem code_length_le {e : SymbolEntry} (h : e.code.length = e.len.toNat) : e.code.length ≤ 255 := by
  have := e.len.isLt
  omega

/-- What PKB does to the stream of bits and to the rest of the state. -/
theorem afterPkb_spec {s : State} {c : BitString} (hc : c.length ≤ 255) (hacc : s.acc.toNat < 2 ^ s.cnt.toNat) :
    ∃ bytes : List Byte,
      packedBits (afterPkb s c) = packedBits s ++ c ∧ (afterPkb s c).acc.toNat < 2 ^ (afterPkb s c).cnt.toNat ∧
      bytes.length ≤ 32 ∧
      afterPkb s c = { s with
        out := s.out ++ bytes, outcnt := s.outcnt + BitVec.ofNat 64 bytes.length, acc := (afterPkb s c).acc,
        cnt := (afterPkb s c).cnt, incnt := s.incnt + 1, phase := .pack, rsp := some .ack } := by
  obtain ⟨bytes, hframe, hbits, hbuffer⟩ := appendBits_spec s c hacc
  have hcount := appendBits_count s c hacc
  have hout : (appendBits s c).out = s.out ++ bytes := by rw [hframe]
  refine ⟨bytes, hbits, hbuffer, ?_, ?_⟩
  · have := s.cnt.isLt
    rw [hout, List.length_append] at hcount
    omega
  · simp only [afterPkb]
    generalize appendBits s c = u at hframe
    rw [hframe]

/-- Settles O38, by `exec_pkb` and `afterPkb_spec`. -/
theorem pkbAppendsCode : Obligations.PkbAppendsCode := by
  refine ⟨spells_pkb, fun s a hp hlen hacc => ?_, fun s a hcodes hpack hp => ?_⟩
  · obtain ⟨bytes, hspec⟩ := afterPkb_spec (code_length_le hlen) hacc
    exact ⟨_, bytes, exec_pkb hp hlen, hspec⟩
  · exact exec_illegal hp rfl (by simp [legalIn, hcodes, hpack])

/-! ## The pack path (R164) -/

theorem codesOf_congr {s t : State} (h : t.st = s.st) (bs : List Byte) : codesOf t bs = codesOf s bs := by
  simp only [codesOf, State.entry, h]

/-- In CODES nothing has been packed. -/
theorem packedBits_of_codes {s : State} (hi : s.Inv) (hp : s.phase = .codes) : packedBits s = [] := by
  obtain ⟨hout, -⟩ := hi.quiet (by rw [hp]; rfl)
  have hcnt := hi.noBits (by simp [hp]) (by simp [hp])
  exact List.eq_nil_of_length_eq_zero (by simp [packedBits_length, hout, hcnt])

/-- What packing the bytes `bs` makes of a state. -/
structure PacksTo (s : State) (bs : List Byte) (u : State) : Prop where
  issued : issueAll (bs.map .pkb) s = .ok u
  inv : u.Inv
  phase : u.phase = .codes ∨ u.phase = .pack
  stream : packedBits u = packedBits s ++ codesOf s bs
  count : u.incnt = s.incnt + BitVec.ofNat 64 bs.length

theorem exists_packsTo {s : State} (hi : s.Inv) (hp : s.phase = .codes ∨ s.phase = .pack) (bs : List Byte) :
    ∃ u, PacksTo s bs u := by
  induction bs generalizing s with
  | nil => exact ⟨s, rfl, hi, hp, by simp [codesOf], by simp⟩
  | cons b bs ih =>
    have hexec := exec_pkb hp (hi.codeLength b)
    obtain ⟨bytes, hbits, -, -, hframe⟩ := afterPkb_spec (code_length_le (hi.codeLength b)) hi.bufferBits
    have hst : (afterPkb s (s.entry b).code).st = s.st := by rw [hframe]
    have hinv : (afterPkb s (s.entry b).code).Inv := by
      obtain ⟨t, ht, hinv⟩ := exec_pkb_inv hi b
      rw [hexec] at ht
      cases ht
      exact hinv
    obtain ⟨u, hu⟩ := ih hinv (.inr rfl)
    refine ⟨u, ?_, hu.inv, hu.phase, ?_, ?_⟩
    · rw [List.map_cons, issueAll_cons (issue_next (decode_encode rfl) hexec rfl nofun nofun)]
      exact hu.issued
    · rw [hu.stream, hbits, codesOf_congr hst, List.append_assoc]
      rfl
    · rw [hu.count, afterPkb_incnt, List.length_cons, Nat.add_comm bs.length, BitVec.ofNat_add, BitVec.add_assoc]
      rfl

/-- Settles O40: the packed stream is the codes' bits by `exists_packsTo`, and PKF completes it with zeros by
`flushBits_stream`. OUTCNT counts the bytes of OUT, and the length of the stream gives their number. -/
theorem packPathDelivers : Obligations.PackPathDelivers := by
  intro s bs hi hp
  obtain ⟨u, hu⟩ := exists_packsTo hi (.inl hp) bs
  obtain ⟨-, hincnt, -⟩ := hi.quiet (by rw [hp]; rfl)
  have hstream : packedBits u = codesOf s bs := by rw [hu.stream, packedBits_of_codes hi hp, List.nil_append]
  have hflush := flushBits_stream u
  rw [hstream] at hflush
  generalize codesOf s bs = c at hstream hflush ⊢
  have hlength : (flushBits u).out.length = (c.length + 7) / 8 := by
    have := congrArg List.length hflush
    rw [flatMap_byteBits_length, List.length_append, List.length_replicate] at this
    omega
  obtain ⟨out, outcnt, acc, hframe, hcount, -⟩ := flushBits_spec hu.inv
  refine ⟨u, _, hu.issued, hstream, hu.inv.bufferBits,
    issueAll_cons (issue_next (decode_encode rfl) (exec_pkf hu.phase) rfl nofun nofun), hflush, ?_, ?_, rfl⟩
  · rw [← hlength, hframe]
    exact hcount
  · rw [hframe]
    exact hu.count.trans (by simp [hincnt])

end Sys2Proof.Proofs
end

section
/-! The obligations of 44_bit_unpacker.md: what UEX, UPB and UEND do where their rules run, and the symbols that a
session recovers from a packed stream, whole or cut. -/

namespace Sys2Proof.Proofs
open Sys2Proof.Machine

/-! ## UEX (R181) -/

theorem spells_uex : Spells 0x08 (fun a _ => a == 0) (fun _ d => .uex d) :=
  spells_of_decode fun w hop => by
    simp only [beq_iff_eq]
    unfold decode
    rw [hop]
    rfl

/-- The state that UEX leaves where its rule runs. -/
def unpackStarted (s : State) (d : Word64) : State :=
  { s with
    size := d, emit := 0, tp := 510, ust := .atRoot, phase := if d = 0 then .done else .unpack,
    rsp := some .ack }

theorem exec_uex {s : State} (hp : s.phase = .tree ∨ s.phase = .codes) (d : Word64) :
    exec (.uex d) s = .next (unpackStarted s d) := by
  have hne : s.phase ≠ .error := by rcases hp with hp | hp <;> simp [hp]
  simp only [exec, execUex]
  rw [guarded_legal hne rfl (by simpa [legalIn] using hp)]
  rfl

theorem finfoOf_uex (d : Word64) : finfoOf (.uex d) = 0x0800 := by
  simp only [finfoOf, Instr.opcode, Instr.fieldA]
  rfl

/-- Settles O41, by `exec_uex`. -/
theorem uexStartsUnpacking : Obligations.UexStartsUnpacking := by
  refine ⟨spells_uex, fun s d hp => exec_uex hp d, fun s d htree hcodes hp => ?_⟩
  rw [← finfoOf_uex d]
  exact exec_illegal hp rfl (by simp [legalIn, htree, hcodes])

/-! ## UEND (R185) -/

theorem spells_uend : Spells 0x0A (fun a d => a == 0 && d == 0) (fun _ _ => .uend) :=
  spells_formatZ fun w hop => by
    unfold decode
    rw [hop]
    rfl

theorem exec_uend_done {s : State} (hp : s.phase = .done) : exec .uend s = .next { s with rsp := some .ack } := by
  simp only [exec, execUend]
  rw [guarded_legal (by simp [hp]) rfl (by simp [legalIn, hp]), if_neg (by simp [hp])]
  rfl

theorem exec_uend_unpack {s : State} (hp : s.phase = .unpack) :
    exec .uend s = .next (s.raiseFault .formatTruncated 0x0A00) := by
  simp only [exec, execUend]
  rw [guarded_legal (by simp [hp]) rfl (by simp [legalIn, hp]), if_pos hp]
  rfl

/-- Settles O43, by the two cases of UEND's rule. -/
theorem uendReportsTruncation : Obligations.UendReportsTruncation :=
  ⟨spells_uend, fun _ hp => exec_uend_done hp, fun _ hp => exec_uend_unpack hp, fun _ hunpack hdone hp =>
    exec_illegal hp rfl (by simp [legalIn, hunpack, hdone])⟩

/-! ## UPB (R183, R184) -/

theorem spells_upb : Spells 0x09 (fun _ d => d == 0) (fun a _ => .upb a) :=
  spells_formatA fun w hop => by
    unfold decode
    rw [hop]
    rfl

theorem exec_upb_done {s : State} (hp : s.phase = .done) (a : Byte) :
    exec (.upb a) s = .next { s with rsp := some .ack } := by
  simp only [exec, execUpb]
  rw [guarded_legal (by simp [hp]) rfl (by simp [legalIn, hp]), if_pos hp]
  rfl

/-- The state that UPB leaves in UNPACK where the byte's bits spell `syms` and lead to node `n`. -/
def afterUpb (s : State) (syms : List Byte) (n : NodeIndex) : State :=
  { s with
    out := s.out ++ syms, outcnt := s.outcnt + BitVec.ofNat 64 syms.length,
    emit := s.emit + BitVec.ofNat 64 syms.length, tp := n, ust := if n = 510 then .atRoot else .descending,
    incnt := s.incnt + 1,
    phase := if s.emit + BitVec.ofNat 64 syms.length = s.size then .done else .unpack, rsp := some .ack }

theorem exec_upb_unpack {s : State} (hp : s.phase = .unpack) (hm : WellBuilt s.node) (hlo : 256 ≤ s.tp)
    (hhi : s.tp ≤ 510) (hroot : s.ust = .atRoot ↔ s.tp = 510) (a : Byte) :
    ∃ syms n, exec (.upb a) s = .next (afterUpb s syms n) ∧
      spelled s.node s.tp (s.size - s.emit).toNat (byteBits a) = some (syms, n) := by
  obtain ⟨syms, n, hsp, -, -, hrun⟩ :=
    unpackBits_spec hm (byteBits a) { s with incnt := s.incnt + 1 } rfl hlo hhi hroot
  refine ⟨syms, n, ?_, hsp⟩
  simp only [exec, execUpb]
  rw [guarded_legal (by simp [hp]) rfl (by simp [legalIn, hp]), if_neg (by simp [hp]), hrun]
  simp only [Except.map, finish, endByte_eq, hp]
  rfl

/-- Settles O42, by `exec_upb_unpack`: a byte has 8 bits, and no bit spells more than one symbol. -/
theorem upbEmitsSpelledSymbols : Obligations.UpbEmitsSpelledSymbols := by
  refine ⟨spells_upb, fun s a hp => exec_upb_done hp a, fun s a hp hm hlo hhi hroot => ?_,
    fun s a hunpack hdone hp => exec_illegal hp rfl (by simp [legalIn, hunpack, hdone])⟩
  obtain ⟨syms, n, hexec, hsp⟩ := exec_upb_unpack hp hm hlo hhi hroot a
  exact ⟨_, syms, n, hexec, hsp, (spelled_length hsp).2, rfl⟩

/-! ## An unpacking session -/

/-- A command that answers ACK is issued, and the block goes on from its next state. -/
theorem issueAll_cons_ack {i : Instr} {is : List Instr} {s t : State} (hw : i.wellFormed = true)
    (h : exec i s = .next t) (hr : t.rsp = some .ack) : issueAll (i :: is) s = issueAll is t :=
  issueAll_cons (issue_next (decode_encode hw) h hr nofun nofun)

/-- What feeding the bytes `ps` to an unpacking session makes of its state: their bits, walked from the pointer, spell
`syms` and move the pointer on. -/
structure UnpacksTo (s : State) (ps syms : List Byte) (u : State) : Prop where
  issued : issueAll (ps.map .upb) s = .ok u
  inv : u.Inv
  phase : u.phase = .unpack ∨ u.phase = .done
  node : u.node = s.node
  size : u.size = s.size
  spells : spelled s.node s.tp (s.size - s.emit).toNat (ps.flatMap byteBits) = some (syms, u.tp)
  out : u.out = s.out ++ syms
  emit : u.emit = s.emit + BitVec.ofNat 64 syms.length

theorem unpacksTo_nil {s : State} (hi : s.Inv) (hp : s.phase = .unpack ∨ s.phase = .done) : UnpacksTo s [] [] s where
  issued := rfl
  inv := hi
  phase := hp
  node := rfl
  size := rfl
  spells := spelled_nil s.node s.tp _
  out := (List.append_nil s.out).symm
  emit := (BitVec.add_zero s.emit).symm

/-- One byte. In DONE it is ignored, and no symbol is left to spell. -/
theorem exists_unpacksTo_byte {s : State} (hi : s.Inv) (hp : s.phase = .unpack ∨ s.phase = .done) (a : Byte) :
    ∃ syms u, UnpacksTo s [a] syms u := by
  obtain ⟨t, ht, hinv⟩ := exec_upb_inv hi a
  rcases hp with hp | hp
  · have hm := wellBuilt_of_inv hi (by rw [hp]; rfl)
    obtain ⟨-, l, r, w, hread⟩ := hi.unpacking hp
    obtain ⟨hlo, hhi⟩ := internal_range hm hread
    obtain ⟨syms, n, hexec, hsp⟩ := exec_upb_unpack hp hm hlo hhi hi.rootState a
    obtain rfl : t = afterUpb s syms n := by simpa [ht] using hexec
    have hphase : (afterUpb s syms n).phase = .unpack ∨ (afterUpb s syms n).phase = .done := by
      simp only [afterUpb]
      split <;> simp
    exact ⟨syms, _, {
      issued := issueAll_cons_ack rfl hexec rfl
      inv := hinv
      phase := hphase
      node := rfl
      size := rfl
      spells := hsp
      out := rfl
      emit := rfl }⟩
  · have hexec := exec_upb_done hp a
    obtain rfl : t = { s with rsp := some .ack } := by simpa [ht] using hexec
    have hnone : (s.size - s.emit).toNat = 0 := by simp [(hi.complete hp).1]
    exact ⟨[], _, {
      issued := issueAll_cons_ack rfl hexec rfl
      inv := hinv
      phase := .inr hp
      node := rfl
      size := rfl
      spells := by rw [hnone, spelled_zero]
      out := (List.append_nil s.out).symm
      emit := (BitVec.add_zero s.emit).symm }⟩

theorem UnpacksTo.append {s u v : State} {ps qs syms syms' : List Byte} (h : UnpacksTo s ps syms u)
    (h' : UnpacksTo u qs syms' v) : UnpacksTo s (ps ++ qs) (syms ++ syms') v where
  issued := by
    rw [List.map_append, issueAll_append, h.issued]
    exact h'.issued
  inv := h'.inv
  phase := h'.phase
  node := h'.node.trans h.node
  size := h'.size.trans h.size
  spells := by
    have hleft : (s.size - s.emit).toNat - syms.length = (u.size - u.emit).toNat := by
      have := (spelled_length h.spells).1
      rw [h.size, h.emit]
      bv_omega
    have hrest := h'.spells
    rw [h.node] at hrest
    rw [List.flatMap_append, spelled_append, h.spells]
    simp only [Option.bind_some, hleft, hrest, Option.map_some]
  out := by rw [h'.out, h.out, List.append_assoc]
  emit := by rw [h'.emit, h.emit, List.length_append, BitVec.ofNat_add, BitVec.add_assoc]

theorem exists_unpacksTo {s : State} (hi : s.Inv) (hp : s.phase = .unpack ∨ s.phase = .done) (ps : List Byte) :
    ∃ syms u, UnpacksTo s ps syms u := by
  induction ps generalizing s with
  | nil => exact ⟨[], s, unpacksTo_nil hi hp⟩
  | cons a ps ih =>
    obtain ⟨syms, u, hu⟩ := exists_unpacksTo_byte hi hp a
    obtain ⟨syms', v, hv⟩ := ih hu.inv hu.phase
    exact ⟨syms ++ syms', v, hu.append hv⟩

/-- The phase says whether all symbols have been emitted (R31). -/
theorem UnpacksTo.phase_eq {s u : State} {ps syms : List Byte} (h : UnpacksTo s ps syms u) :
    u.phase = if u.emit = u.size then .done else .unpack := by
  rcases h.phase with hp | hp
  · have hlt := (h.inv.unpacking hp).1
    rw [hp, if_neg (by bv_omega)]
  · rw [hp, if_pos (h.inv.complete hp).1]

/-- UEX and then the bytes `ps`: the session emits what their bits spell from the root, at most `d` symbols. -/
theorem exists_unpackSession {s : State} (hi : s.Inv) (hp : s.phase = .tree ∨ s.phase = .codes) (d : Word64)
    (ps : List Byte) :
    ∃ u n, issueAll (.uex d :: ps.map .upb) s = .ok u ∧
      spelled s.node Config.root d.toNat (ps.flatMap byteBits) = some (u.out, n) ∧
      u.emit = BitVec.ofNat 64 u.out.length ∧ u.phase = if u.emit = d then .done else .unpack := by
  have hexec := exec_uex hp d
  obtain ⟨t, ht, hinv⟩ := exec_uex_inv hi d
  obtain rfl : t = unpackStarted s d := by simpa [ht] using hexec
  have hstart : (unpackStarted s d).phase = .unpack ∨ (unpackStarted s d).phase = .done := by
    simp only [unpackStarted]
    split <;> simp
  obtain ⟨syms, u, hu⟩ := exists_unpacksTo hinv hstart ps
  have hout : u.out = syms := by
    have hempty := (hi.quiet (by rcases hp with hp | hp <;> rw [hp] <;> rfl)).1
    rw [hu.out, show (unpackStarted s d).out = [] from hempty, List.nil_append]
  refine ⟨u, u.tp, (issueAll_cons_ack rfl hexec rfl).trans hu.issued, ?_, ?_, ?_⟩
  · have hleft : (unpackStarted s d).size - (unpackStarted s d).emit = d := BitVec.sub_zero d
    have hsp := hu.spells
    rw [hleft] at hsp
    rw [hout]
    exact hsp
  · rw [hu.emit, hout]
    exact BitVec.zero_add _
  · rw [hu.phase_eq, hu.size]
    rfl

/-! ## The packed stream, whole and cut (R187, R189) -/

/-- The packed stream of `bs` is their codes and fewer than 8 bits of padding (R164). -/
theorem exists_packedStream {s : State} (hi : s.Inv) (hp : s.phase = .codes) (bs : List Byte) :
    ∃ t pad, issueAll (pseudoPack bs) s = .ok t ∧ t.out.flatMap byteBits = codesOf s bs ++ pad ∧
      pad.length < 8 := by
  obtain ⟨u, t, hpack, -, -, hflush, hbits, -⟩ := packPathDelivers s bs hi hp
  refine ⟨t, _, ?_, hbits, by rw [List.length_replicate]; omega⟩
  rw [pseudoPack, issueAll_append, hpack]
  exact hflush

/-- Sessions with the same frequencies hold the same tree (R125). -/
theorem node_eq_of_frequencies {s s' : State} (hi : s.Inv) (hi' : s'.Inv) (hb : s.phase.built) (hb' : s'.phase.built)
    (hfreq : frequencies s'.st = frequencies s.st) : s'.node = s.node :=
  (hi'.tree hb').trans ((congrArg buildTree hfreq).trans (hi.tree hb).symm)

theorem built_of_tree_or_codes {p : Phase} (h : p = .tree ∨ p = .codes) : p.built = true := by
  rcases h with rfl | rfl <;> rfl

/-- Settles O44: the stream is the codes of `bs` and padding (`exists_packedStream`), the codes spell `bs`
(`spelled_codes`), and then no symbol is left to spell, so the padding gives none. -/
theorem roundTripRecoversBytes : Obligations.RoundTripRecoversBytes := by
  intro s s' bs hi hp hi' hp' hfreq hlen
  have hb := built_of_tree_or_codes (.inr hp)
  obtain ⟨t, pad, hpack, hstream, -⟩ := exists_packedStream hi hp bs
  obtain ⟨u, n, hunpack, hsp, hemit, hphase⟩ := exists_unpackSession hi' hp' (BitVec.ofNat 64 bs.length) t.out
  have hcodes := spelled_codes (wellBuilt_of_inv hi hb) (hi.codes (by rw [hp]; rfl)) bs 0
  rw [node_eq_of_frequencies hi hi' hb (built_of_tree_or_codes hp') hfreq, hstream, BitVec.toNat_ofNat,
    Nat.mod_eq_of_lt hlen, spelled_append, codesOf, ← Nat.add_zero bs.length, hcodes] at hsp
  obtain ⟨hout, -⟩ : bs = u.out ∧ Config.root = n := by simpa using hsp
  have hdone : u.phase = .done := by rw [hphase, if_pos (by rw [hemit, ← hout])]
  exact ⟨t, u, _, hpack, hunpack, hdone, issueAll_cons_ack rfl (exec_uend_done hdone) rfl, rfl, hout.symm, hdone⟩

/-- A stream of bytes that has lost at least one byte ends inside what stood before less than a byte of padding. -/
theorem cut_before_padding {ps : List Byte} {c pad : BitString} {k : Nat} (h : ps.flatMap byteBits = c ++ pad)
    (hpad : pad.length < 8) (hk : k < ps.length) : ∃ d, (ps.take k).flatMap byteBits ++ d = c ∧ d ≠ [] := by
  have hcut : (ps.take k).flatMap byteBits ++ (ps.drop k).flatMap byteBits = c ++ pad := by
    rw [← List.flatMap_append, List.take_append_drop, h]
  have hlost : 8 ≤ ((ps.drop k).flatMap byteBits).length := by
    rw [flatMap_byteBits_length, List.length_drop]
    omega
  rcases List.append_eq_append_iff.1 hcut with ⟨d, hc, hd⟩ | ⟨e, -, hpad'⟩
  · refine ⟨d, hc.symm, ?_⟩
    rintro rfl
    rw [hd, List.nil_append] at hlost
    omega
  · rw [hpad', List.length_append] at hpad
    omega

/-- Settles O45: a byte is more than the padding, so the cut stream ends before the last code does
(`cut_before_padding`) and spells fewer symbols (`spelled_codes_cut`). -/
theorem truncationIsCaught : Obligations.TruncationIsCaught := by
  intro s s' t bs k hi hp hi' hp' hfreq _ hlen hpack hk
  have hb := built_of_tree_or_codes (.inr hp)
  obtain ⟨t', pad, hpack', hstream, hpad⟩ := exists_packedStream hi hp bs
  obtain rfl : t = t' := by simpa [hpack] using hpack'
  obtain ⟨d, hcut, hd⟩ := cut_before_padding hstream hpad hk
  obtain ⟨u, n, hunpack, hsp, hemit, hphase⟩ :=
    exists_unpackSession hi' hp' (BitVec.ofNat 64 bs.length) (t.out.take k)
  obtain ⟨syms, n', hfew, hlt⟩ :=
    spelled_codes_cut (wellBuilt_of_inv hi hb) (hi.codes (by rw [hp]; rfl)) bs 0 _ d hcut hd
  rw [node_eq_of_frequencies hi hi' hb (built_of_tree_or_codes hp') hfreq, BitVec.toNat_ofNat,
    Nat.mod_eq_of_lt hlen, ← Nat.add_zero bs.length, hfew] at hsp
  obtain ⟨rfl, -⟩ : syms = u.out ∧ n' = n := by simpa using hsp
  have hemit' : u.emit.toNat < bs.length := by
    rw [hemit, BitVec.toNat_ofNat]
    omega
  have hunp : u.phase = .unpack := by
    rw [hphase, if_neg]
    intro he
    rw [he, BitVec.toNat_ofNat] at hemit'
    omega
  exact ⟨u, hunpack, hunp, hemit', exec_uend_unpack hunp⟩

end Sys2Proof.Proofs
end

section
/-! The obligations of 45_container.md: the header, written and read, the equality check, and the two procedures. -/

namespace Sys2Proof.Proofs
open Sys2Proof.Machine

/-! ## The equality check (R210) -/

theorem equalBytes_cons (a b : Byte) (A B : List Byte) :
    equalBytes (a :: A) (b :: B) = (a == b && equalBytes A B) := by
  simp [equalBytes, Bool.and_left_comm]

/-- Settles O58, by induction on both lists with `equalBytes_cons`. -/
theorem equalBytesIsEquality : Obligations.EqualBytesIsEquality := by
  intro A
  induction A with
  | nil =>
    intro B
    cases B <;> simp [equalBytes]
  | cons a A ih =>
    intro B
    cases B with
    | nil => simp [equalBytes]
    | cons b B => rw [equalBytes_cons, Bool.and_eq_true, beq_iff_eq, ih, List.cons.injEq]

/-! ## Fields and integers (R201) -/

/-- The field at an offset, of bytes that are known to be its neighbours and itself. -/
theorem fieldAt_eq {bs before field after : List Byte} {offset length : Nat} (h : bs = before ++ field ++ after)
    (hoffset : before.length = offset) (hlength : field.length = length) : fieldAt bs offset length = field := by
  subst h hoffset hlength
  exact fieldAt_append before field after

theorem fieldAt_length {bs : List Byte} {offset length : Nat} (h : offset + length ≤ bs.length) :
    (fieldAt bs offset length).length = length := by
  rw [fieldAt, List.length_take, List.length_drop]
  omega

theorem leValue_lt (bs : List Byte) : leValue bs < 256 ^ bs.length := by
  induction bs with
  | nil => exact Nat.one_pos
  | cons b bs ih =>
    have hb := b.isLt
    show b.toNat + 256 * leValue bs < 256 ^ (bs.length + 1)
    omega

/-- Eight bytes fit in 64 bits, so nothing of their value is lost. -/
theorem toNat_word64At (bs : List Byte) (offset : Nat) :
    (word64At bs offset).toNat = leValue (fieldAt bs offset 8) := by
  have hlt := leValue_lt (fieldAt bs offset 8)
  have hpow := Nat.pow_le_pow_right (n := 256) (by omega) (List.length_take_le 8 (bs.drop offset))
  exact Nat.mod_eq_of_lt (Nat.lt_of_lt_of_le hlt hpow)

theorem word64At_of_le64 {bs : List Byte} {offset : Nat} {v : Word64} (h : fieldAt bs offset 8 = le64 v) :
    word64At bs offset = v := by
  rw [word64At, h, leValue_le64, BitVec.ofNat_toNat, BitVec.setWidth_eq]

theorem flatMap_le64_length (vs : List Word64) : (vs.flatMap le64).length = 8 * vs.length := by
  simp [List.length_flatMap, Nat.mul_comm]

/-! ## Writing a header (R202) -/

theorem headerValid_iff {P : HdrParams} {h : Header} :
    headerValid P h ↔ h.name.length ≤ P.n2 ∧ 0 ∉ h.name ∧ h.freqs.length = 256 := by
  simp [headerValid, and_assoc]

/-- The bytes of a header whose fields are valid (`writeHeader_valid`). -/
def headerBytes (P : HdrParams) (h : Header) : List Byte :=
  P.sig ++ (h.name ++ List.replicate (P.n2 - h.name.length) 0) ++ le64 h.size ++ h.freqs.flatMap le64

theorem writeHeader_valid {P : HdrParams} {h : Header} (hv : headerValid P h) :
    writeHeader P h = .ok (headerBytes P h) := by
  obtain ⟨hlength, hzero, hfreqs⟩ := headerValid_iff.1 hv
  rw [writeHeader, if_neg (by simpa [hlength] using hzero), if_neg (not_not_intro hfreqs), headerBytes]
  simp only [List.append_assoc]

theorem writeHeader_nameInvalid {P : HdrParams} {h : Header} (hn : P.n2 < h.name.length ∨ 0 ∈ h.name) :
    writeHeader P h = .error .nameInvalid := by
  rw [writeHeader, if_pos (by simpa using hn)]

theorem headerBytes_length {P : HdrParams} {h : Header} (hv : headerValid P h) :
    (headerBytes P h).length = P.hlen := by
  obtain ⟨hlength, -, hfreqs⟩ := headerValid_iff.1 hv
  simp only [headerBytes, List.length_append, List.length_replicate, le64_length, flatMap_le64_length, hfreqs,
    HdrParams.hlen, HdrParams.n1, HdrParams.n3, HdrParams.n4, Config.nsym]
  omega

/-- The bytes `bs` hold the fields of a header at their offsets (R201). -/
structure HeaderFields (P : HdrParams) (h : Header) (bs : List Byte) : Prop where
  sig : fieldAt bs 0 P.n1 = P.sig
  name : fieldAt bs P.n1 P.n2 = h.name ++ List.replicate (P.n2 - h.name.length) 0
  size : fieldAt bs (P.n1 + P.n2) 8 = le64 h.size
  freq {i : Nat} {f : Word64} (hf : h.freqs[i]? = some f) : fieldAt bs (P.n1 + P.n2 + 8 + 8 * i) 8 = le64 f

theorem headerBytes_fields {P : HdrParams} {h : Header} (hv : headerValid P h) (rest : List Byte) :
    HeaderFields P h (headerBytes P h ++ rest) := by
  obtain ⟨hlength, -, -⟩ := headerValid_iff.1 hv
  have hname : (h.name ++ List.replicate (P.n2 - h.name.length) (0 : Byte)).length = P.n2 := by
    rw [List.length_append, List.length_replicate]
    omega
  unfold headerBytes
  generalize hpadded : h.name ++ List.replicate (P.n2 - h.name.length) (0 : Byte) = padded at hname
  refine ⟨?_, ?_, ?_, fun {i f} hf => ?_⟩
  · exact fieldAt_eq (before := []) (by simp only [List.nil_append, List.append_assoc]; rfl) rfl rfl
  · rw [hpadded]
    exact fieldAt_eq (before := P.sig) (by simp only [List.append_assoc]; rfl) rfl hname
  · exact fieldAt_eq (before := P.sig ++ padded) (by simp only [List.append_assoc]; rfl)
      (by rw [List.length_append, hname, HdrParams.n1]) (le64_length _)
  · obtain ⟨hi, rfl⟩ := List.getElem?_eq_some_iff.1 hf
    have hsplit : h.freqs = h.freqs.take i ++ h.freqs[i] :: h.freqs.drop (i + 1) := by
      rw [← List.drop_eq_getElem_cons hi, List.take_append_drop]
    refine fieldAt_eq (before := P.sig ++ padded ++ le64 h.size ++ (h.freqs.take i).flatMap le64)
      (after := (h.freqs.drop (i + 1)).flatMap le64 ++ rest) ?_ ?_ (le64_length _)
    · conv_lhs => rw [hsplit]
      simp only [List.flatMap_append, List.flatMap_cons, List.append_assoc]
    · rw [List.length_append, List.length_append, List.length_append, hname, le64_length, flatMap_le64_length,
        List.length_take_of_le hi.le, HdrParams.n1]

/-- Settles O54, by `writeHeader_nameInvalid`, and `headerBytes_fields` with nothing behind the header. -/
theorem headerLayout : Obligations.HeaderLayout := by
  refine ⟨fun P h hn => writeHeader_nameInvalid hn, fun P h hv => ?_⟩
  have hfields := headerBytes_fields hv []
  rw [List.append_nil] at hfields
  refine ⟨_, writeHeader_valid hv, headerBytes_length hv, hfields.sig, hfields.name, ?_, fun i f hf => ?_⟩
  · rw [hfields.size, leValue_le64]
  · rw [hfields.freq hf, leValue_le64]

/-! ## Reading a header (R203) -/

/-- The fields that reading gives, once the length and the signature have been checked (`readHeader_ok`). -/
def headerRead (P : HdrParams) (bs : List Byte) : Header where
  name := (fieldAt bs P.n1 P.n2).takeWhile (· != 0)
  size := word64At bs (P.n1 + P.n2)
  freqs := (List.range 256).map fun i => word64At bs (P.n1 + P.n2 + 8 + 8 * i)

theorem readHeader_ok {P : HdrParams} {bs : List Byte} (hlen : P.hlen ≤ bs.length) (hsig : bs.take P.n1 = P.sig) :
    readHeader P bs = .ok (headerRead P bs) := by
  rw [readHeader, if_neg (Nat.not_lt.2 hlen), if_neg (not_not_intro hsig), headerRead]

/-- Where `takeWhile` does not take the whole list, it stops at an element that fails. -/
theorem stops_length_takeWhile {α : Type} {p : α → Bool} {l : List α} (h : (l.takeWhile p).length < l.length) :
    p (l[(l.takeWhile p).length]'h) = false := by
  have hidx : (l.takeWhile p).length = l.findIdx (!p ·) := by
    rw [List.takeWhile_eq_take_findIdx_not, List.length_take] at h ⊢
    omega
  simp only [hidx] at h ⊢
  simpa using List.findIdx_getElem (w := h)

/-- Settles O55: the two refusals are the two checks of `readHeader`, and after them `readHeader_ok` gives the
fields. -/
theorem readHeaderParses : Obligations.ReadHeaderParses := by
  refine fun P bs => ⟨fun hlen => if_pos hlen, fun hlen hsig => ?_, fun hlen hsig =>
    ⟨headerRead P bs, readHeader_ok hlen hsig, List.takeWhile_prefix _, fun hzero => ?_, fun hshort => ?_,
      toNat_word64At _ _, by simp [headerRead], fun i f hf => ?_⟩⟩
  · rw [readHeader, if_neg (Nat.not_lt.2 hlen), if_pos hsig]
  · simpa using List.mem_takeWhile_imp hzero
  · have hfield : (fieldAt bs P.n1 P.n2).length = P.n2 :=
      fieldAt_length (Nat.le_trans (by rw [HdrParams.hlen]; omega) hlen)
    have hlt := Nat.lt_of_lt_of_eq hshort hfield.symm
    exact List.getElem?_eq_some_iff.2 ⟨hlt, bne_eq_false_iff_eq.1 (stops_length_takeWhile hlt)⟩
  · obtain ⟨hi, rfl⟩ := List.getElem?_eq_some_iff.1 hf
    simp only [headerRead, List.getElem_map, List.getElem_range, toNat_word64At]

/-! ## A header read back (R204, R205) -/

theorem takeWhile_padded {name : List Byte} (hzero : 0 ∉ name) (k : Nat) :
    (name ++ List.replicate k (0 : Byte)).takeWhile (· != 0) = name := by
  rw [List.takeWhile_append_of_pos fun b hb => bne_iff_ne.2 (ne_of_mem_of_not_mem hb hzero)]
  cases k <;> simp [List.replicate_succ]

theorem HeaderFields.take_n1 {P : HdrParams} {h : Header} {bs : List Byte} (hf : HeaderFields P h bs) :
    bs.take P.n1 = P.sig := hf.sig

theorem HeaderFields.headerRead_eq {P : HdrParams} {h : Header} {bs : List Byte} (hf : HeaderFields P h bs)
    (hv : headerValid P h) : headerRead P bs = h := by
  obtain ⟨-, hzero, hfreqs⟩ := headerValid_iff.1 hv
  have hname : (headerRead P bs).name = h.name := by
    rw [headerRead, hf.name, takeWhile_padded hzero]
  have hsize : (headerRead P bs).size = h.size := word64At_of_le64 hf.size
  have hfreq : (headerRead P bs).freqs = h.freqs := by
    refine List.ext_getElem (by simp [headerRead, hfreqs]) fun i h1 h2 => ?_
    simp only [headerRead, List.getElem_map, List.getElem_range]
    exact word64At_of_le64 (hf.freq (List.getElem?_eq_getElem h2))
  calc
    headerRead P bs = ⟨(headerRead P bs).name, (headerRead P bs).size, (headerRead P bs).freqs⟩ := rfl
    _ = h := by rw [hname, hsize, hfreq]

theorem readHeader_headerBytes {P : HdrParams} {h : Header} (hv : headerValid P h) (rest : List Byte) :
    readHeader P (headerBytes P h ++ rest) = .ok h := by
  have hfields := headerBytes_fields hv rest
  have hlen : P.hlen ≤ (headerBytes P h ++ rest).length := by
    rw [List.length_append, headerBytes_length hv]
    omega
  rw [readHeader_ok hlen hfields.take_n1, hfields.headerRead_eq hv]

theorem isCompressed_headerBytes {P : HdrParams} {h : Header} (hv : headerValid P h) (rest : List Byte) :
    isCompressed P (headerBytes P h ++ rest) := by
  rw [isCompressed, (headerBytes_fields hv rest).take_n1]
  simp [HdrParams.n1, headerBytes]

/-- Settles O56, by `readHeader_headerBytes` and `isCompressed_headerBytes`. -/
theorem headerRoundTrip : Obligations.HeaderRoundTrip := fun P h rest hv =>
  ⟨headerBytes P h, writeHeader_valid hv, readHeader_headerBytes hv rest, isCompressed_headerBytes hv rest⟩

/-! ## Commands issued in a row -/

theorem inv_of_exec {i : Instr} {s t : State} (hi : s.Inv) (h : exec i s = .next t) : t.Inv := by
  obtain ⟨u, hu, hinv⟩ := exec_inv hi i
  obtain rfl : t = u := by simpa [h] using hu
  exact hinv

theorem issueAll_append_of_ok {is : List Instr} {s t : State} (h : issueAll is s = .ok t) (js : List Instr) :
    issueAll (is ++ js) s = issueAll js t := by
  rw [issueAll_append, h]
  rfl

theorem exists_cleared (s : State) :
    ∃ t, issueAll [Instr.clr] s = .ok t ∧ t.Inv ∧ t.phase = .empty ∧ t.ldx = 0 :=
  ⟨_, issueAll_cons_ack rfl (exec_clr s) rfl, inv_reset s.inbox (some .ack), rfl, rfl⟩

theorem exists_scanned {s : State} (hi : s.Inv) (hp : s.phase = .empty ∨ s.phase = .count) (bs : List Byte) :
    ∃ t, issueAll (pseudoScan bs) s = .ok t ∧ t.Inv ∧ (t.phase = .empty ∨ t.phase = .count) := by
  induction bs generalizing s with
  | nil => exact ⟨s, rfl, hi, hp⟩
  | cons b bs ih =>
    have hexec := exec_recb hp b
    obtain ⟨t, ht, hinv, hphase⟩ := ih (inv_of_exec hi hexec) (.inr rfl)
    exact ⟨t, (issueAll_cons_ack rfl hexec rfl).trans ht, hinv, hphase⟩

/-! ## The 256 LDF (R101, R207) -/

theorem frequencies_loaded (s : State) (a : Byte) (d : Word64) :
    frequencies (loaded s a d).st = (frequencies s.st).set a.toNat d := by
  simp only [loaded, State.setEntry, tableSet, frequencies, symbolIndex, List.map_set]

/-- On the load path LDX says whether the load is complete (R36). -/
theorem ldx_eq_iff_table {s : State} (hi : s.Inv) (hp : s.phase = .empty ∨ s.phase = .load ∨ s.phase = .table) :
    s.ldx = 256 ↔ s.phase = .table := by
  rcases hp with hp | hp | hp
  · rw [hp, hi.notLoading (.inl hp)]
    decide
  · obtain ⟨-, hle, -⟩ := hi.loading hp
    exact iff_of_false (by bv_omega) (by simp [hp])
  · exact iff_of_true (hi.loaded hp) hp

/-- LDF from symbol `k` to the last: the frequencies before `k` are kept, and those from `k` on are the loaded ones. -/
theorem exists_loaded {s : State} (hi : s.Inv) (hp : s.phase = .empty ∨ s.phase = .load ∨ s.phase = .table)
    {k : Nat} (hk : s.ldx.toNat = k) {vs : List Word64} (hlen : k + vs.length = 256) :
    ∃ t, issueAll ((vs.zipIdx k).map fun p => .ldf (BitVec.ofNat 8 p.2) p.1) s = .ok t ∧ t.Inv ∧
      t.phase = .table ∧ frequencies t.st = (frequencies s.st).take k ++ vs := by
  induction vs generalizing s k with
  | nil =>
    have hall : (frequencies s.st).length ≤ k := (frequencies_length s.st).trans_le hlen.ge
    refine ⟨s, rfl, hi, (ldx_eq_iff_table hi hp).1 (BitVec.eq_of_toNat_eq (hk.trans hlen)), ?_⟩
    rw [List.append_nil, List.take_of_length_le hall]
  | cons v vs ih =>
    rw [List.length_cons] at hlen
    have hlt : k < (frequencies s.st).length := by
      rw [frequencies_length]
      omega
    have ha : (BitVec.ofNat 8 k).toNat = k := by
      rw [BitVec.toNat_ofNat]
      omega
    have hloading : s.phase = .empty ∨ s.phase = .load := by
      have htable := mt (ldx_eq_iff_table hi hp).2 (by bv_omega)
      simpa [htable] using hp
    have hexec := exec_ldf hloading (BitVec.ofNat 8 k) v
    rw [if_pos (ha.trans hk.symm)] at hexec
    have hphase : (loaded s (BitVec.ofNat 8 k) v).phase = .load ∨ (loaded s (BitVec.ofNat 8 k) v).phase = .table := by
      simp only [loaded]
      split <;> simp
    have hldx : (loaded s (BitVec.ofNat 8 k) v).ldx.toNat = k + 1 := by
      simp only [loaded]
      bv_omega
    obtain ⟨t, ht, hinv, htable, hfreq⟩ := ih (inv_of_exec hi hexec) (.inr hphase) hldx (by omega)
    refine ⟨t, (issueAll_cons_ack rfl hexec rfl).trans ht, hinv, htable, ?_⟩
    rw [hfreq, frequencies_loaded, ha, List.take_succ_eq_append_getElem (by rwa [List.length_set]),
      List.take_set_of_le (Nat.le_refl k), List.getElem_set_self, List.append_assoc, List.singleton_append]

/-! ## BLD and ASG, and the 256 RDF (R206) -/

theorem exists_prepared {s : State} (hi : s.Inv) (hp : s.phase = .empty ∨ s.phase = .count ∨ s.phase = .table) :
    ∃ t, issueAll pseudoPrepare s = .ok t ∧ t.Inv ∧ t.phase = .codes ∧ frequencies t.st = frequencies s.st := by
  have hbld := exec_bld hp
  generalize buildTree (frequencies s.st) = m at hbld
  have hinv := inv_of_exec hi hbld
  have hm := wellBuilt_of_inv hinv rfl
  obtain ⟨st, hasg, -⟩ := exec_asg rfl hm
  exact ⟨_, (issueAll_cons_ack rfl hbld rfl).trans (issueAll_cons_ack rfl hasg rfl), inv_of_exec hinv hasg, rfl,
    frequencies_eq_iff.2 fun a => (asg_entry rfl hm hasg a).freq⟩

theorem frequencies_eq_map (st : SymbolTable) :
    frequencies st = allSymbols.map fun a => (tableGet st (symbolIndex a)).freq := by
  refine List.ext_getElem (by simp [frequencies_length, allSymbols]) fun i h1 h2 => ?_
  rw [frequencies_length] at h1
  have hi : (BitVec.ofNat 8 i).toNat = i := by
    rw [BitVec.toNat_ofNat]
    omega
  have hget := frequencies_get st (BitVec.ofNat 8 i)
  rw [hi] at hget
  simp only [allSymbols, List.getElem_map, List.getElem_range]
  exact (List.getElem?_eq_some_iff.1 hget).2

theorem exists_issueReads {s : State} (hload : s.phase ≠ .load) (herr : s.phase ≠ .error) (as : List Byte) :
    ∃ r, issueReads (as.map .rdf) s = .ok (as.map fun a => (s.entry a).freq, { s with rsp := r }) := by
  induction as generalizing s with
  | nil => exact ⟨s.rsp, rfl⟩
  | cons a as ih =>
    obtain ⟨r, hr⟩ := ih (s := { s with rsp := some (.val (s.entry a).freq) }) hload herr
    refine ⟨r, ?_⟩
    rw [List.map_cons, issueReads_cons (issue_next (decode_encode rfl) (exec_rdf hload herr a) rfl nofun nofun), hr]
    rfl

theorem exists_readFrequencies {s : State} (hload : s.phase ≠ .load) (herr : s.phase ≠ .error) :
    ∃ r, issueReads (allSymbols.map .rdf) s = .ok (frequencies s.st, { s with rsp := r }) := by
  rw [frequencies_eq_map]
  exact exists_issueReads hload herr allSymbols

/-! ## The two procedures (R206, R207) -/

/-- How `compress` begins, from any state: it reaches CODES. -/
theorem exists_compressStart (s : State) (input : List Byte) :
    ∃ t, issueAll ([Instr.clr] ++ pseudoScan input ++ pseudoPrepare) s = .ok t ∧ t.Inv ∧ t.phase = .codes := by
  obtain ⟨s1, h1, hi1, hp1, -⟩ := exists_cleared s
  obtain ⟨s2, h2, hi2, hp2⟩ := exists_scanned hi1 (.inl hp1) input
  obtain ⟨t, h3, hi3, hp3, -⟩ := exists_prepared hi2 (hp2.imp_right .inl)
  refine ⟨t, ?_, hi3, hp3⟩
  rw [List.append_assoc, issueAll_append_of_ok h1, issueAll_append_of_ok h2, h3]

/-- How `decompress` begins, from any state: it reaches CODES with the frequencies of the header. -/
theorem exists_decompressStart (s : State) {fs : List Word64} (hfs : fs.length = 256) :
    ∃ t, issueAll ([Instr.clr] ++ pseudoLoadAll fs ++ pseudoPrepare) s = .ok t ∧ t.Inv ∧ t.phase = .codes ∧
      frequencies t.st = fs := by
  obtain ⟨s1, h1, hi1, hp1, hldx⟩ := exists_cleared s
  obtain ⟨s2, h2, hi2, hp2, hfreq2⟩ :=
    exists_loaded hi1 (.inl hp1) (k := 0) (by rw [hldx]; rfl) ((Nat.zero_add _).trans hfs)
  obtain ⟨t, h3, hi3, hp3, hfreq3⟩ := exists_prepared hi2 (.inr (.inr hp2))
  refine ⟨t, ?_, hi3, hp3, hfreq3.trans hfreq2⟩
  rw [List.append_assoc, issueAll_append_of_ok h1, pseudoLoadAll, issueAll_append_of_ok h2, h3]

theorem packed_of_issueAll {s t : State} (hi : s.Inv) (hp : s.phase = .codes) {bs : List Byte}
    (h : issueAll (pseudoPack bs) s = .ok t) : t.phase = .packed := by
  obtain ⟨u, t', hpack, -, -, hflush, -, -, -, hphase⟩ := packPathDelivers s bs hi hp
  rw [pseudoPack, issueAll_append_of_ok hpack, hflush] at h
  cases h
  exact hphase

theorem issueEnd_of_ok {s t : State} (h : issueAll [Instr.uend] s = .ok t) : issueEnd s = .ok t := by
  obtain ⟨r, u, hissue, hnil⟩ := issueAll_cons_ok h
  cases hnil
  rw [issueEnd, hissue]

theorem takeOutput_of_phase {s : State} (hp : s.phase = .packed ∨ s.phase = .done) : takeOutput s = .ok s.out :=
  takeOutput_ok_iff.2 (validOutput_eq_some.2 ⟨hp, rfl⟩)

/-- `compress` completes when its stages do. -/
theorem exists_compress {P : HdrParams} {input name : List Byte} {freqs : List Word64} {s s1 s2 s3 : State}
    (hlen : input.length < 2 ^ 64) (hv : headerValid P ⟨name, BitVec.ofNat 64 input.length, freqs⟩)
    (hstart : issueAll ([Instr.clr] ++ pseudoScan input ++ pseudoPrepare) s = .ok s1)
    (hreads : issueReads (allSymbols.map .rdf) s1 = .ok (freqs, s2))
    (hpack : issueAll (pseudoPack input) s2 = .ok s3) (hp : s3.phase = .packed) :
    ∃ c, compress P input name s = .ok c ∧
      c.file = headerBytes P ⟨name, BitVec.ofNat 64 input.length, freqs⟩ ++ s3.out := by
  rw [pseudoScan, pseudoPrepare] at hstart
  rw [pseudoPack] at hpack
  rw [compress, if_neg (Nat.not_le.2 hlen), compressStages]
  simp only [bind, Except.bind, hstart, hreads, writeHeader_valid hv, hpack, takeOutput_of_phase (.inl hp)]
  exact ⟨_, rfl, rfl⟩

/-- `decompress` completes when its stages do. -/
theorem exists_decompress {P : HdrParams} {file : List Byte} {h : Header} {s s1 s2 s3 : State}
    (hread : readHeader P file = .ok h)
    (hstart : issueAll ([Instr.clr] ++ pseudoLoadAll h.freqs ++ pseudoPrepare) s = .ok s1)
    (hunpack : issueAll (Instr.uex h.size :: (file.drop P.hlen).map .upb) s1 = .ok s2)
    (hend : issueAll [Instr.uend] s2 = .ok s3) (hp : s3.phase = .done) :
    ∃ d, decompress P file s = .ok d ∧ d.name = h.name ∧ d.data = s3.out := by
  obtain ⟨r, u, huex, hupb⟩ := issueAll_cons_ok hunpack
  have hsession :
      issueAll ([Instr.clr] ++ pseudoLoadAll h.freqs ++ (pseudoPrepare ++ [Instr.uex h.size])) s = .ok u := by
    rw [← List.append_assoc, issueAll_append_of_ok hstart, issueAll_cons huex]
    rfl
  simp only [pseudoLoadAll, pseudoPrepare, List.cons_append, List.nil_append] at hsession
  rw [decompress]
  simp only [bind, Except.bind, hread, List.cons_append, List.nil_append, hsession, hupb, issueEnd_of_ok hend,
    takeOutput_of_phase (.inr hp)]
  exact ⟨_, rfl, rfl, rfl⟩

/-- Settles O57: `compress` writes the frequencies it reads from the block, `decompress` reads them back from the header
(`readHeader_headerBytes`) and loads them, so both sessions reach CODES with the same frequencies, and
`roundTripRecoversBytes` speaks of them. -/
theorem decompressInvertsCompress : Obligations.DecompressInvertsCompress := by
  intro P input name s s' hlen hname hzero
  obtain ⟨u, hstart, hi, hp⟩ := exists_compressStart s input
  obtain ⟨r, hreads⟩ := exists_readFrequencies (s := u) (by simp [hp]) (by simp [hp])
  have hinv := inv_ports hi u.inbox r
  obtain ⟨u', hstart', hi', hp', hfreq⟩ := exists_decompressStart s' (frequencies_length u.st)
  obtain ⟨t, w, v, hpack, hunpack, -, hend, -, hout, hdone⟩ :=
    roundTripRecoversBytes _ u' input hinv hp hi' (.inr hp') hfreq hlen
  have hv : headerValid P ⟨name, BitVec.ofNat 64 input.length, frequencies u.st⟩ :=
    headerValid_iff.2 ⟨hname, by simpa using hzero, frequencies_length u.st⟩
  obtain ⟨c, hc, hfile⟩ := exists_compress hlen hv hstart hreads hpack (packed_of_issueAll hinv hp hpack)
  have hread := readHeader_headerBytes hv t.out
  have hpacked : c.file.drop P.hlen = t.out := by
    rw [hfile, ← headerBytes_length hv, List.drop_left]
  rw [← hfile] at hread
  rw [← hpacked] at hunpack
  obtain ⟨d, hd, hdname, hdata⟩ := exists_decompress hread hstart' hunpack hend hdone
  exact ⟨c, d, hc, hd, hdname, hdata.trans hout⟩

end Sys2Proof.Proofs
end

section
/-! The obligations of 46_system.md: CLR, RDR, and the valid output of a session that packs or unpacks. -/

namespace Sys2Proof.Proofs
open Sys2Proof.Machine

/-! ## CLR (R220) -/

theorem spells_clr : Spells 0x01 (fun a d => a == 0 && d == 0) (fun _ _ => .clr) :=
  spells_formatZ fun w hop => by
    unfold decode
    rw [hop]
    rfl

/-- Settles O16, by `exec_clr`. -/
theorem clrGivesResetState : Obligations.ClrGivesResetState := ⟨spells_clr, exec_clr⟩

/-! ## RDR (R222) -/

/-- The row of RDR makes two checks, the zero field and then the selector's range. -/
theorem spells_rdr : Spells 0x10 (fun a d => decide (a ≤ 10) && d == 0) (fun a _ => .rdr a) :=
  spells_of_decode fun w hop => by
    have hrow : decode w = (formatA .rdr (wordA w) (wordD w)).bind inRange := by
      unfold decode
      rw [hop]
      rfl
    simp only [hrow, formatA, Bool.and_eq_true, beq_iff_eq]
    by_cases hd : wordD w = 0
    · simp only [hd, if_true, and_true]
      rfl
    · rw [if_neg hd, if_neg fun h => hd h.2]
      rfl

/-- PKBUF read as a number (R38): CNT stands above the 8 bits of ACC. -/
theorem pkbuf_setWidth (s : State) :
    (pkbuf s).setWidth 64 = s.cnt.setWidth 64 * 256 + s.acc.setWidth 64 := by
  have happend : (s.cnt ++ s.acc).toNat = s.cnt.toNat * 256 + s.acc.toNat := by
    rw [BitVec.toNat_append, ← Nat.shiftLeft_add_eq_or_of_lt s.acc.isLt, Nat.shiftLeft_eq]
  rw [pkbuf]
  bv_omega

/-- The registers in the order of their selectors (R39). -/
theorem statusRegister_eq_getElem? (s : State) (a : Byte) :
    statusRegister s a =
      [s.phase.value.setWidth 64, s.fault.value.setWidth 64, s.finfo.setWidth 64, s.size, s.incnt, s.outcnt,
        s.emit, s.ldx.setWidth 64, s.tp.setWidth 64, s.ust.value.setWidth 64,
        (s.cnt.setWidth 64) * 256 + s.acc.setWidth 64][a.toNat]? := by
  rw [← pkbuf_setWidth, statusRegister]
  generalize a.toNat = n
  match n with
  | 0 | 1 | 2 | 3 | 4 | 5 | 6 | 7 | 8 | 9 | 10 => rfl
  | _ + 11 => rfl

/-- A selector that names a register is in RDR's range, which ERROR admits too (R245). -/
theorem exec_rdr {s : State} {a : Byte} {v : Word64} (h : statusRegister s a = some v) :
    exec (.rdr a) s = .next { s with rsp := some (.val v) } := by
  have hw : (Instr.rdr a).wellFormed = true := by
    rw [statusRegister_eq_getElem?] at h
    obtain ⟨hlt, -⟩ := List.getElem?_eq_some_iff.1 h
    exact decide_eq_true (BitVec.le_def.2 (Nat.le_of_lt_succ hlt))
  have hadm : admission (.rdr a) s.phase = .runs := by
    by_cases hp : s.phase = .error
    · exact admission_runs_iff.2 (.inl ⟨hp, hw⟩)
    · exact admission_of_legal hp hw rfl
  simp only [exec, execRdr, guarded_runs hadm, h]
  rfl

/-- Settles O17, by `exec_rdr`. -/
theorem rdrReadsStatus : Obligations.RdrReadsStatus :=
  ⟨spells_rdr, fun s a _ hv => exec_rdr ((statusRegister_eq_getElem? s a).trans hv)⟩

/-! ## The valid output of a session (R221) -/

/-- A session takes issued commands that do not end it (`sessionLast_issueAll`) and goes on with the inputs behind. -/
theorem sessionLast_issued {is : List Instr} {s t : State} (his : ∀ i ∈ is, i.wellFormed = true ∧ i ≠ .clr)
    (h : issueAll is s = .ok t) (rest : List HostInput) :
    sessionLast (s.withInbox (inputsOf is ++ rest)) = sessionLast (t.withInbox rest) :=
  sessionLast_issueAll rest (fun i hi => decode_encode (his i hi).1) (fun hclr => (his .clr hclr).2 rfl) h

/-- A session whose commands are all issued delivers the valid output of the state they leave. -/
theorem sessionOutput_issueAll {is : List Instr} {s t : State} (his : ∀ i ∈ is, i.wellFormed = true ∧ i ≠ .clr)
    (h : issueAll is s = .ok t) : sessionOutput (s.withInbox (inputsOf is)) = t.validOutput := by
  have hlast := sessionLast_issued his h []
  rw [List.append_nil] at hlast
  rw [sessionOutput, hlast]
  rfl

/-- The last command of a session, whatever it answers. -/
theorem sessionLast_exec {i : Instr} {s t : State} (hw : i.wellFormed = true) (hclr : i ≠ .clr)
    (h : exec i s = .next t) : sessionLast (s.withInbox (inputsOf [i])) = .next (t.withInbox []) := by
  have hgoes : endsSession (.command (encode i)) = false := by
    rw [endsSession_command (decode_encode hw), decide_eq_false hclr]
  have hstep : step ((s.withInbox []).given (.command (encode i))) = .next (t.withInbox []) := by
    rw [step_command, decode_encode hw]
    exact (exec_inbox i s []).trans (by rw [h]; rfl)
  exact runSession_given hgoes hstep 0

theorem inputsOf_append (is js : List Instr) : inputsOf (is ++ js) = inputsOf is ++ inputsOf js := List.map_append

/-- A session that issues its commands but for the last, which may raise a fault. -/
theorem sessionOutput_concat {is : List Instr} {i : Instr} {s t u : State}
    (his : ∀ j ∈ is ++ [i], j.wellFormed = true ∧ j ≠ .clr) (h : issueAll is s = .ok t) (hi : exec i t = .next u) :
    sessionOutput (s.withInbox (inputsOf (is ++ [i]))) = u.validOutput := by
  obtain ⟨hbefore, hw, hclr⟩ : (∀ j ∈ is, j.wellFormed = true ∧ j ≠ .clr) ∧ i.wellFormed = true ∧ i ≠ .clr := by
    simpa only [List.forall_mem_append, List.forall_mem_singleton] using his
  rw [sessionOutput, inputsOf_append, sessionLast_issued hbefore h, sessionLast_exec hw hclr hi]
  rfl

theorem pseudoPack_commands (bs : List Byte) : ∀ i ∈ pseudoPack bs, i.wellFormed = true ∧ i ≠ .clr := by
  rw [pseudoPack, List.forall_mem_append, List.forall_mem_map, List.forall_mem_singleton]
  exact ⟨fun _ _ => ⟨rfl, nofun⟩, rfl, nofun⟩

theorem pseudoUnpack_commands (n : Word64) (ps : List Byte) :
    ∀ i ∈ pseudoUnpack n ps, i.wellFormed = true ∧ i ≠ .clr := by
  rw [pseudoUnpack, List.forall_mem_append, List.forall_mem_cons, List.forall_mem_map, List.forall_mem_singleton]
  exact ⟨⟨⟨rfl, nofun⟩, fun _ _ => ⟨rfl, nofun⟩⟩, rfl, nofun⟩

/-- Where a byte has been packed there was data to pack. -/
theorem data_of_packed {s t : State} {bs : List Byte} (hi : s.Inv) (hp : s.phase = .codes)
    (h : issueAll (pseudoPack bs) s = .ok t) (ht : 0 < t.out.length) : 0 < bs.length := by
  obtain ⟨t', pad, hpack, hstream, hpad⟩ := exists_packedStream hi hp bs
  obtain rfl : t = t' := by simpa [h] using hpack
  refine List.length_pos_of_ne_nil ?_
  rintro rfl
  have hbits := congrArg List.length hstream
  rw [flatMap_byteBits_length, show codesOf s [] = [] from rfl, List.nil_append] at hbits
  omega

/-- Settles O60: a session reaches the states that issuing its commands reaches, whose OUT and PHASE are those of
`roundTripRecoversBytes`. A cut session is in UNPACK when its bytes run out (`truncationIsCaught`), and UEND leaves it
in ERROR. -/
theorem wholeStreamsGiveValidOutput : Obligations.WholeStreamsGiveValidOutput := by
  intro s s' bs hi hp hi' hp' hfreq hlen
  obtain ⟨t, u, v, hpack, hfed, -, hend, -, hout, hdone⟩ := roundTripRecoversBytes s s' bs hi hp hi' hp' hfreq hlen
  have hunpack : issueAll (pseudoUnpack (BitVec.ofNat 64 bs.length) t.out) s' = .ok v :=
    (issueAll_append_of_ok hfed [.uend]).trans hend
  have hpacked := validOutput_eq_some.2 ⟨.inl (packed_of_issueAll hi hp hpack), rfl⟩
  have hwhole := validOutput_eq_some.2 ⟨.inr hdone, hout⟩
  refine ⟨t.out, (sessionOutput_issueAll (pseudoPack_commands bs) hpack).trans hpacked,
    (sessionOutput_issueAll (pseudoUnpack_commands _ t.out) hunpack).trans hwhole, fun k hk => ?_⟩
  have hdata := data_of_packed hi hp hpack (Nat.zero_lt_of_lt hk)
  obtain ⟨w, hcut, -, -, hfault⟩ := truncationIsCaught s s' t bs k hi hp hi' hp' hfreq hdata hlen hpack hk
  have hnone : (w.raiseFault .formatTruncated 0x0A00).validOutput = none := validOutput_eq_none.2 ⟨nofun, nofun⟩
  exact (sessionOutput_concat (pseudoUnpack_commands _ (t.out.take k)) hcut hfault).trans hnone

end Sys2Proof.Proofs
end

section
/-! The obligations of 60_exceptions.md on faults and phase ERROR, and of 70_reset_and_hazards.md. -/

namespace Sys2Proof.Proofs
open Sys2Proof.Machine

/-! ## Waiting, and reset between commands (R270) -/

theorem step_waits {s : State} (h : s.inbox = []) : step s = .next s := by
  simp only [step, fetch, h]

/-- Settles O7, by `step_waits` and `step_resetInput`. -/
theorem stepWaitsOrResets : Obligations.StepWaitsOrResets := ⟨fun _ h => step_waits h, step_resetInput⟩

/-! ## Fault entry (R244) -/

/-- Settles O9: it is the definition of fault entry. -/
theorem faultEntry : Obligations.FaultEntry := fun _ _ _ => rfl

/-! ## Phase ERROR (R245, R247) -/

theorem runsInError_iff {i : Instr} : runsInError i = true ↔ i = .clr ∨ ∃ a ≤ 10, i = .rdr a := by
  cases i <;> simp [runsInError, Instr.wellFormed]

/-- In ERROR a word that spells neither CLR nor an RDR in range is refused, whether or not it spells a command. -/
theorem step_refuses {s : State} {w : CommandWord} (hp : s.phase = .error)
    (h : ∀ i, decode w = .ok i → runsInError i = false) : step (s.given (.command w)) = .next s.refuse := by
  rw [step_command]
  cases hd : decode w with
  | ok i => exact exec_error hp (h i hd)
  | error e => simp only [rejectWord, if_pos hp]

/-- Settles O11: the words of CLR and of RDR are those whose fields pass `spells_clr` and `spells_rdr`, and by
`step_refuses` ERROR refuses every other word. -/
theorem errorPhaseRefuses : Obligations.ErrorPhaseRefuses := by
  refine fun s w hp => ⟨fun ⟨hop, ha, hd⟩ => ?_, fun ⟨hop, ha, hd⟩ => ?_, fun hclr hrdr => ?_⟩
  · rw [step_command, (spells_clr w hop).1 (by simp [ha, hd])]
    exact exec_clr s
  · obtain ⟨v, hv⟩ := statusRegister_exists s ha
    refine ⟨v, hv, ?_⟩
    rw [step_command, (spells_rdr w hop).1 (by simpa [hd] using ha)]
    exact exec_rdr hv
  · refine step_refuses hp fun i hi => Bool.eq_false_iff.2 fun hruns => ?_
    obtain ⟨-, rfl⟩ := encodeOfDecode w i hi
    rw [wordOp_encode, wordA_encode, wordD_encode] at hclr hrdr
    rcases runsInError_iff.1 hruns with rfl | ⟨a, ha, rfl⟩
    · exact hclr ⟨rfl, rfl, rfl⟩
    · exact hrdr ⟨rfl, ha, rfl⟩

/-- A step from ERROR writes nothing but the response, or takes an input that ends the session and gives the reset
state. -/
theorem step_error {s t : State} {x : HostInput} (hp : s.phase = .error) (h : step (s.given x) = .next t) :
    t = { s with rsp := t.rsp } ∨
      endsSession x = true ∧ t = { State.reset with inbox := t.inbox, rsp := t.rsp } := by
  cases x with
  | reset =>
    rw [step_resetInput] at h
    cases h
    exact .inr ⟨rfl, rfl⟩
  | command w =>
    obtain ⟨hclr, hrdr, hother⟩ := errorPhaseRefuses s w hp
    by_cases hw : wordOp w = 0x01 ∧ wordA w = 0 ∧ wordD w = 0
    · rw [hclr hw] at h
      cases h
      obtain ⟨hop, ha, hd⟩ := hw
      exact .inr ⟨by simp [endsSession_command ((spells_clr w hop).1 (by simp [ha, hd]))], rfl⟩
    · by_cases hw' : wordOp w = 0x10 ∧ wordA w ≤ 10 ∧ wordD w = 0
      · obtain ⟨v, -, hstep⟩ := hrdr hw'
        rw [hstep] at h
        cases h
        exact .inl rfl
      · rw [hother hw hw'] at h
        cases h
        exact .inl rfl

/-- Settles O12, by `step_error`, or by `step_waits` where there is no input. -/
theorem errorIsSticky : Obligations.ErrorIsSticky := by
  intro s t hp h
  rcases inbox_cases s with hin | ⟨s1, x, rfl⟩
  · rw [step_waits hin] at h
    cases h
    exact .inl ⟨hp, rfl, rfl, rfl⟩
  · rcases step_error (s := s1) hp h with hkept | ⟨-, hreset⟩
    · rw [hkept]
      exact .inl ⟨hp, rfl, rfl, rfl⟩
    · exact .inr hreset

/-! ## The fault that a word raises (R240, R242) -/

/-- The outcome `r` of a word in state `s` is the one that the fault named for it asks for: that fault is raised, or
none is. -/
def FaultsAs (s : State) (info : BitVec 16) (r : Result) : Option FaultCode → Prop
  | some c => r = .next (s.raiseFault c info)
  | none => ∀ t, r = .next t → ∀ c, t.rsp ≠ some (.flt c)

theorem faultsAs_none {s t : State} {info : BitVec 16} {r : Response} (hr : t.rsp = some r) (h : ∀ c, r ≠ .flt c) :
    FaultsAs s info (.next t) none := by
  intro u hu c hc
  injection hu with hu
  rw [← hu, hr] at hc
  exact h c (Option.some.inj hc)

/-- The last two conditions of R242, on a command: LoadOrder of LDF and FormatTruncated of UEND. -/
def ownFault (s : State) (i : Instr) : Option FaultCode :=
  if i.opcode = 0x03 ∧ i.fieldA.toNat ≠ s.ldx.toNat then some .loadOrder
  else if i.opcode = 0x0A ∧ s.phase = .unpack then some .formatTruncated
  else none

theorem ownFault_ldf (s : State) (a : Byte) (d : Word64) :
    ownFault s (.ldf a d) = if a.toNat = s.ldx.toNat then none else some .loadOrder := by
  simp [ownFault, Instr.opcode, Instr.fieldA]

theorem ownFault_uend (s : State) :
    ownFault s .uend = if s.phase = .unpack then some .formatTruncated else none := by
  simp [ownFault, Instr.opcode]

/-- The table's first condition is that no row has the word's opcode. -/
theorem no_row_iff {op : Byte} : opcodeTable.all (fun r => op != wordOp r.pattern) = true ↔ ¬ Listed op := by
  rw [Listed, Bool.not_eq_true, ← Bool.not_eq_true', List.not_any_eq_all_not]
  rfl

theorem faultOf_error {s : State} (hp : s.phase = .error) (w : CommandWord) : faultOf s w = none := if_pos hp

section OutsideError
variable {s : State} (hp : s.phase ≠ .error)
include hp

theorem faultOf_unlisted {w : CommandWord} (hop : ¬ Listed (wordOp w)) : faultOf s w = some .illegalCommand := by
  rw [faultOf, if_neg hp, if_pos (no_row_iff.2 hop)]

theorem faultOf_misspelled {w : CommandWord} (hop : Listed (wordOp w)) (hw : legalSpelling w = false) :
    faultOf s w = some .illegalOperand := by
  rw [faultOf, if_neg hp, if_neg (mt no_row_iff.1 (not_not_intro hop)), if_pos hw]

/-- Of the word of a command only the phase and the command's own rule are left to judge. -/
theorem faultOf_encode {i : Instr} (hi : i.wellFormed = true) :
    faultOf s (encode i) = if legalIn i s.phase = true then ownFault s i else some .phaseViolation := by
  have hlisted : Listed (wordOp (encode i)) := wordOp_encode i ▸ listed_opcode i
  have hlegal : ¬ legalSpelling (encode i) = false := by simpa using legalSpelling_iff.2 ⟨i, hi, rfl⟩
  rw [faultOf, if_neg hp, if_neg (mt no_row_iff.1 (not_not_intro hlisted)), if_neg hlegal,
    wordOp_encode, wordA_encode, ite_not]
  simp only [mem_okColumn_iff hp, ownFault]

/-- A command that the phase table allows, and whose rule has no fault of its own, answers. -/
theorem exec_answers {i : Instr} (hi : i.wellFormed = true) (hl : legalIn i s.phase = true)
    (hown : ∀ c, ¬ RuleFault i c) (info : BitVec 16) : FaultsAs s info (exec i s) none := by
  intro t ht c
  rcases exec_ruleResult (admission_of_legal hp hi hl) ht with ⟨hr, hval, -⟩ | ⟨-, hc, -⟩
  · rcases hval with rfl | ⟨v, rfl⟩ <;> simp [hr]
  · exact absurd hc (hown _)

/-- Where the phase table allows a command, it raises the fault of its own rule and no other. -/
theorem exec_ownFault {i : Instr} (hi : i.wellFormed = true) (hl : legalIn i s.phase = true) :
    FaultsAs s (finfoOf i) (exec i s) (ownFault s i) := by
  cases i with
  | ldf a d =>
    rw [ownFault_ldf, exec_ldf (by simpa [legalIn] using hl)]
    by_cases horder : a.toNat = s.ldx.toNat
    · rw [if_pos horder, if_pos horder]
      exact faultsAs_none rfl nofun
    · rw [if_neg horder, if_neg horder]
      rfl
  | uend =>
    have hphases : s.phase = .unpack ∨ s.phase = .done := by simpa [legalIn] using hl
    rw [ownFault_uend]
    rcases hphases with hphase | hphase
    · rw [if_pos hphase]
      exact exec_uend_unpack hphase
    · rw [if_neg (by simp [hphase]), exec_uend_done hphase]
      exact faultsAs_none rfl nofun
  | _ => exact exec_answers hp hi hl (by simp [RuleFault, Instr.opcode]) _

end OutsideError

theorem wordInfo_encode (i : Instr) : wordInfo (encode i) = finfoOf i := by
  rw [wordInfo, wordOp_encode, wordA_encode, finfoOf]

/-- The conditions in their order: phase ERROR, the opcode and the operands of a word that does not decode, the phase
table, the command's own rule. -/
theorem step_faultOf (s : State) (w : CommandWord) :
    FaultsAs s (wordInfo w) (step (s.given (.command w))) (faultOf s w) := by
  by_cases hp : s.phase = .error
  · rw [faultOf_error hp]
    intro t ht c hc
    obtain ⟨r, hr, hkind⟩ := everyCommandIsAnswered.1 s t w ht
    rw [hc] at hr
    cases hr
    simp [hp] at hkind
  have hw := decodesTo_decode w
  cases hd : decode w with
  | ok i =>
    rw [hd] at hw
    obtain ⟨hi, rfl⟩ := hw
    simp only [step_command, hd, faultOf_encode hp hi, wordInfo_encode]
    split
    · next hl => exact exec_ownFault hp hi hl
    · next hl => exact exec_illegal hp hi (Bool.eq_false_iff.2 hl)
  | error e =>
    rw [step_decodeError hp hd]
    rw [hd] at hw
    cases hw with
    | illegalCommand hop =>
      rw [faultOf_unlisted hp hop]
      rfl
    | illegalOperand hop =>
      have hmis : legalSpelling w = false := by
        rw [← Bool.not_eq_true, ← decodes_iff_legalSpelling, hd]
        simp
      rw [faultOf_misspelled hp hop hmis]
      rfl

/-- Settles O10, by `step_faultOf`. -/
theorem faultsByPriority : Obligations.FaultsByPriority := by
  intro s w
  have h := step_faultOf s w
  constructor
  · intro c hc
    rw [hc] at h
    exact h
  · intro hnone
    rw [hnone] at h
    exact h

end Sys2Proof.Proofs
end

section
/-! The valid output of a session (60_exceptions.md R246): what one input that does not end a session does, and one
induction over its inputs (`runSession_keeps`). -/

namespace Sys2Proof.Proofs
open Sys2Proof.Machine

/-! ## What one input does -/

/-- The checks before a rule deliver nothing, so only the rule itself matters. -/
theorem guarded_out_prefix {i : Instr} {body : State → Result} {s t : State} (h : guarded i body s = .next t)
    (hbody : body s = .next t → s.out <+: t.out) : s.out <+: t.out := by
  rcases guarded_next_cases h with ⟨-, hrun⟩ | ⟨-, rfl⟩ | ⟨-, c, -, rfl⟩
  · exact hbody hrun
  · exact List.prefix_rfl
  · exact List.prefix_rfl

/-- Every command but CLR keeps what has been delivered. -/
theorem exec_out_prefix {i : Instr} {s t : State} (hclr : i ≠ .clr) (h : exec i s = .next t) : s.out <+: t.out := by
  cases i with
  | clr => exact absurd rfl hclr
  | recb | bld | uex | rdf | rdl | rdc =>
    simp only [exec, execRec, execBld, execUex, execRdf, execRdl, execRdc] at h
    refine guarded_out_prefix h fun hrun => ?_
    cases hrun
    simp
  | ldf | uend | rdr =>
    simp only [exec, execLdf, execUend, execRdr] at h
    refine guarded_out_prefix h fun hrun => ?_
    split at hrun <;> cases hrun <;> exact List.prefix_rfl
  | asg =>
    simp only [exec, execAsg] at h
    refine guarded_out_prefix h fun hrun => ?_
    obtain ⟨st, -, rfl⟩ := map_ok_iff.1 (finish_next_iff.1 hrun)
    exact List.prefix_rfl
  | pkb a =>
    simp only [exec, execPkb] at h
    refine guarded_out_prefix h fun hrun => ?_
    obtain ⟨c, -, rfl⟩ := map_ok_iff.1 (finish_next_iff.1 hrun)
    obtain ⟨bytes, hframe⟩ := appendBits_frame s c
    rw [hframe]
    exact List.prefix_append _ _
  | pkf =>
    simp only [exec, execPkf] at h
    refine guarded_out_prefix h fun hrun => ?_
    cases hrun
    by_cases hc : s.cnt = 0
    · rw [flushBits_empty hc]
      exact List.prefix_rfl
    · rw [flushBits_waiting hc]
      exact List.prefix_append _ _
  | upb a =>
    simp only [exec, execUpb] at h
    refine guarded_out_prefix h fun hrun => ?_
    split at hrun
    · cases hrun
      exact List.prefix_rfl
    · obtain ⟨u, hu, rfl⟩ := map_ok_iff.1 (finish_next_iff.1 hrun)
      obtain ⟨bytes, hframe⟩ := unpackBits_frame hu
      rw [endByte_eq, hframe]
      exact List.prefix_append _ _

/-- A command leaves the inputs behind it waiting. -/
theorem exec_keeps_inbox {i : Instr} {s t : State} (h : exec i s = .next t) : t.inbox = s.inbox := by
  have hports := exec_inbox i s s.inbox
  rw [show s.withInbox s.inbox = s from rfl, h] at hports
  injection hports with hports
  rw [hports]
  rfl

theorem rejectWord_frame (e : DecodeError) (w : CommandWord) (s : State) :
    (rejectWord e w s).out = s.out ∧ (rejectWord e w s).inbox = s.inbox := by
  rcases rejectWord_cases e w s with ⟨-, h⟩ | ⟨-, c, -, h⟩ <;> rw [h] <;> exact ⟨rfl, rfl⟩

/-- An input that does not end the session keeps what has been delivered and leaves the inputs behind it waiting. -/
theorem step_in_session {s t : State} {x : HostInput} (hx : endsSession x = false) (h : step (s.given x) = .next t) :
    s.out <+: t.out ∧ t.inbox = s.inbox := by
  cases x with
  | reset => cases hx
  | command w =>
    rw [step_command] at h
    cases hd : decode w with
    | ok i =>
      rw [hd] at h
      rw [endsSession_command hd, decide_eq_false_iff_not] at hx
      exact ⟨exec_out_prefix hx h, exec_keeps_inbox h⟩
    | error e =>
      rw [hd] at h
      cases h
      obtain ⟨hout, hin⟩ := rejectWord_frame e w s
      exact ⟨hout ▸ List.prefix_rfl, hin⟩

/-! ## What a whole session keeps -/

/-- A session that goes on has taken its next input. -/
theorem exists_step_of_runSession {n : Nat} {s t : State} {x : HostInput} (hx : endsSession x = false)
    (h : runSession (n + 1) (s.given x) = .next t) : ∃ u, step (s.given x) = .next u := by
  simp only [runSession, given_inbox, hx] at h
  cases hu : step (s.given x) with
  | next u => exact ⟨u, rfl⟩
  | fault | refused => simp [hu] at h

/-- What every input keeps that does not end the session, the session keeps. -/
theorem runSession_keeps {P : State → Prop}
    (hkeep : ∀ (s : State) x t, endsSession x = false → step (s.given x) = .next t → P (s.given x) → P t)
    {n : Nat} {s t : State} (h : runSession n s = .next t) (hs : P s) : P t := by
  induction n generalizing s with
  | zero =>
    cases h
    exact hs
  | succ n ih =>
    rcases inbox_cases s with hin | ⟨s1, x, rfl⟩
    · rw [runSession_nil hin] at h
      cases h
      exact hs
    · cases hx : endsSession x with
      | true =>
        rw [runSession_ends hx] at h
        cases h
        exact hs
      | false =>
        obtain ⟨u, hu⟩ := exists_step_of_runSession hx h
        rw [runSession_given hx hu] at h
        exact ih h (hkeep s1 x u hx hu hs)

theorem runSession_out_prefix {n : Nat} {s t : State} (h : runSession n s = .next t) : s.out <+: t.out :=
  runSession_keeps (P := fun u => s.out <+: u.out) (fun _ _ _ hx hstep hs => hs.trans (step_in_session hx hstep).1) h
    List.prefix_rfl

/-- ERROR is not left within a session. -/
theorem runSession_error {n : Nat} {s t : State} (h : runSession n s = .next t) (hp : s.phase = .error) :
    t.phase = .error := by
  refine runSession_keeps (P := fun u => u.phase = .error) (fun u x v hx hstep hu => ?_) h hp
  rcases step_error (s := u) hu hstep with hkept | ⟨hends, -⟩
  · rw [hkept]
    exact hu
  · rw [hx] at hends
    cases hends

/-- A session ends where it ends from each state on its way. -/
theorem sessionLast_of_runSession {n : Nat} {s t : State} (h : runSession n s = .next t) :
    sessionLast t = sessionLast s := by
  refine runSession_keeps (P := fun u => sessionLast u = sessionLast s) (fun u x v hx hstep hu => ?_) h rfl
  rw [← hu, sessionLast, (step_in_session hx hstep).2]
  exact (runSession_given hx hstep u.inbox.length).symm

theorem sessionOutput_eq_some {s : State} {bytes : List Byte} :
    sessionOutput s = some bytes ↔ ∃ t, sessionLast s = .next t ∧ t.validOutput = some bytes := by
  rw [sessionOutput]
  cases sessionLast s <;> simp

/-- Settles O59: the session keeps what it had delivered, and from a state in ERROR on its way it ends in ERROR. -/
theorem outputValidOnlyWhenFinished : Obligations.OutputValidOnlyWhenFinished := by
  refine ⟨fun s bytes h => ?_, fun s t n h hp => ?_⟩
  · obtain ⟨t, hlast, hvalid⟩ := sessionOutput_eq_some.1 h
    obtain ⟨hphase, hout⟩ := validOutput_eq_some.1 hvalid
    exact ⟨t, hlast, hphase, hout, hout ▸ runSession_out_prefix hlast⟩
  · refine Option.eq_none_iff_forall_ne_some.2 fun bytes hsome => ?_
    obtain ⟨u, hlast, hvalid⟩ := sessionOutput_eq_some.1 hsome
    rw [← sessionLast_of_runSession h] at hlast
    obtain ⟨hphase, -⟩ := validOutput_eq_some.1 hvalid
    simp [runSession_error hlast hp] at hphase

end Sys2Proof.Proofs
end
